-- ==== Sys2Proof/Word.lean ====
section
/-! DEFINITION. The two word types of the machine (00_scope.md R7): bytes of 8 bits and addresses of 16. -/

namespace Sys2Proof

/-- A byte: every register but PC, and every memory location (10_state.md R20, 20_memory.md R61). -/
abbrev Byte := BitVec 8

/-- A 16-bit address (20_memory.md R60), also the width of PC (10_state.md R24). -/
abbrev Addr := BitVec 16

end Sys2Proof
end

