-- ==== Sys2Proof/Syntax.lean ====
section
/-! DEFINITION. The instruction set as syntax: one constructor of `Instr` for each of the 256 rows of
spec/opcode_table.json (30_encoding.md R104, R107), and the view of an instruction as a mnemonic and an
operand (R105, R106). -/

namespace Sys2Proof

/-- The addressing modes with a memory operand, with their operand bytes (30_encoding.md R101, R106). -/
inductive MemMode where
  /-- `zp`, R144 -/
  | zp (d : Byte)
  /-- `zpx`, R145 -/
  | zpx (d : Byte)
  /-- `zpy`, R145 -/
  | zpy (d : Byte)
  /-- `abs`, R146 -/
  | abs (addr : Addr)
  /-- `abx`, R147 to R149 -/
  | abx (addr : Addr)
  /-- `aby`, R147 to R149 -/
  | aby (addr : Addr)
  /-- `izx`, R150 -/
  | izx (ptr : Byte)
  /-- `izy`, R151 to R153 -/
  | izy (ptr : Byte)
deriving DecidableEq, Repr

/-- What a read-class instruction takes its operand from (40_addressing_modes.md R140, R143). -/
inductive Source where
  /-- `imm`, the operand byte itself -/
  | imm (v : Byte)
  /-- a byte of memory -/
  | mem (m : MemMode)
deriving DecidableEq, Repr

/-- The operand of an instruction as its addressing mode gives it (30_encoding.md R106). -/
inductive Operand where
  /-- `imp` and the jam rows: no operand byte -/
  | implied
  /-- `acc` -/
  | accumulator
  /-- `imm` and the eight memory modes -/
  | source (o : Source)
  /-- `rel`: the signed offset byte -/
  | relative (off : Byte)
  /-- `ind`: the pointer's address, JMP only -/
  | indirect (addr : Addr)
deriving DecidableEq, Repr

/-- The 76 mnemonics of the opcode table (30_encoding.md R110, R116). -/
inductive Mnemonic where
  | brk | ora | jam | slo | nop | asl | php | anc | bpl | clc | jsr | and | rla | bit | rol | plp
  | bmi | sec | rti | eor | sre | lsr | pha | asr | jmp | bvc | cli | rts | adc | rra | ror | pla
  | arr | bvs | sei | sta | sax | sty | stx | dey | txa | ane | bcc | sha | tya | txs | shs | shy
  | shx | ldy | lda | ldx | lax | tay | tax | lxa | bcs | clv | tsx | las | cpy | cmp | dcp | dec
  | iny | dex | sbx | bne | cld | cpx | sbc | isb | inc | inx | beq | sed
deriving DecidableEq, Repr

/-- One constructor per row of spec/opcode_table.json: in the table's order the rows with operand bytes, then
the rows without (Lean's compiler takes no operand in a constructor past the 244th). Where a mnemonic and
mode have several rows, the constructors after the documented one carry the opcode in their name. -/
inductive Instr where
  /-- $01 `ORA ($nn,X)`, R241 -/
  | oraIzx (ptr : Byte)
  /-- $03 `SLO ($nn,X)`, R371 -/
  | sloIzx (ptr : Byte)
  /-- $04 `NOP $nn`, R392 -/
  | nopZp04 (d : Byte)
  /-- $05 `ORA $nn`, R241 -/
  | oraZp (d : Byte)
  /-- $06 `ASL $nn`, R281 -/
  | aslZp (d : Byte)
  /-- $07 `SLO $nn`, R371 -/
  | sloZp (d : Byte)
  /-- $09 `ORA #$nn`, R241 -/
  | oraImm (v : Byte)
  /-- $0B `ANC #$nn`, R411 -/
  | ancImm0B (v : Byte)
  /-- $0C `NOP $nnnn`, R393 -/
  | nopAbs (addr : Addr)
  /-- $0D `ORA $nnnn`, R241 -/
  | oraAbs (addr : Addr)
  /-- $0E `ASL $nnnn`, R281 -/
  | aslAbs (addr : Addr)
  /-- $0F `SLO $nnnn`, R371 -/
  | sloAbs (addr : Addr)
  /-- $10 `BPL $nnnn`, R320 -/
  | bplRel (off : Byte)
  /-- $11 `ORA ($nn),Y`, R241 -/
  | oraIzy (ptr : Byte)
  /-- $13 `SLO ($nn),Y`, R371 -/
  | sloIzy (ptr : Byte)
  /-- $14 `NOP $nn,X`, R392 -/
  | nopZpx14 (d : Byte)
  /-- $15 `ORA $nn,X`, R241 -/
  | oraZpx (d : Byte)
  /-- $16 `ASL $nn,X`, R281 -/
  | aslZpx (d : Byte)
  /-- $17 `SLO $nn,X`, R371 -/
  | sloZpx (d : Byte)
  /-- $19 `ORA $nnnn,Y`, R241 -/
  | oraAby (addr : Addr)
  /-- $1B `SLO $nnnn,Y`, R371 -/
  | sloAby (addr : Addr)
  /-- $1C `NOP $nnnn,X`, R394 -/
  | nopAbx1C (addr : Addr)
  /-- $1D `ORA $nnnn,X`, R241 -/
  | oraAbx (addr : Addr)
  /-- $1E `ASL $nnnn,X`, R281 -/
  | aslAbx (addr : Addr)
  /-- $1F `SLO $nnnn,X`, R371 -/
  | sloAbx (addr : Addr)
  /-- $20 `JSR $nnnn`, R316 -/
  | jsrAbs (addr : Addr)
  /-- $21 `AND ($nn,X)`, R240 -/
  | andIzx (ptr : Byte)
  /-- $23 `RLA ($nn,X)`, R372 -/
  | rlaIzx (ptr : Byte)
  /-- $24 `BIT $nn`, R243 -/
  | bitZp (d : Byte)
  /-- $25 `AND $nn`, R240 -/
  | andZp (d : Byte)
  /-- $26 `ROL $nn`, R283 -/
  | rolZp (d : Byte)
  /-- $27 `RLA $nn`, R372 -/
  | rlaZp (d : Byte)
  /-- $29 `AND #$nn`, R240 -/
  | andImm (v : Byte)
  /-- $2B `ANC #$nn`, R411 -/
  | ancImm2B (v : Byte)
  /-- $2C `BIT $nnnn`, R243 -/
  | bitAbs (addr : Addr)
  /-- $2D `AND $nnnn`, R240 -/
  | andAbs (addr : Addr)
  /-- $2E `ROL $nnnn`, R283 -/
  | rolAbs (addr : Addr)
  /-- $2F `RLA $nnnn`, R372 -/
  | rlaAbs (addr : Addr)
  /-- $30 `BMI $nnnn`, R321 -/
  | bmiRel (off : Byte)
  /-- $31 `AND ($nn),Y`, R240 -/
  | andIzy (ptr : Byte)
  /-- $33 `RLA ($nn),Y`, R372 -/
  | rlaIzy (ptr : Byte)
  /-- $34 `NOP $nn,X`, R392 -/
  | nopZpx34 (d : Byte)
  /-- $35 `AND $nn,X`, R240 -/
  | andZpx (d : Byte)
  /-- $36 `ROL $nn,X`, R283 -/
  | rolZpx (d : Byte)
  /-- $37 `RLA $nn,X`, R372 -/
  | rlaZpx (d : Byte)
  /-- $39 `AND $nnnn,Y`, R240 -/
  | andAby (addr : Addr)
  /-- $3B `RLA $nnnn,Y`, R372 -/
  | rlaAby (addr : Addr)
  /-- $3C `NOP $nnnn,X`, R394 -/
  | nopAbx3C (addr : Addr)
  /-- $3D `AND $nnnn,X`, R240 -/
  | andAbx (addr : Addr)
  /-- $3E `ROL $nnnn,X`, R283 -/
  | rolAbx (addr : Addr)
  /-- $3F `RLA $nnnn,X`, R372 -/
  | rlaAbx (addr : Addr)
  /-- $41 `EOR ($nn,X)`, R242 -/
  | eorIzx (ptr : Byte)
  /-- $43 `SRE ($nn,X)`, R373 -/
  | sreIzx (ptr : Byte)
  /-- $44 `NOP $nn`, R392 -/
  | nopZp44 (d : Byte)
  /-- $45 `EOR $nn`, R242 -/
  | eorZp (d : Byte)
  /-- $46 `LSR $nn`, R282 -/
  | lsrZp (d : Byte)
  /-- $47 `SRE $nn`, R373 -/
  | sreZp (d : Byte)
  /-- $49 `EOR #$nn`, R242 -/
  | eorImm (v : Byte)
  /-- $4B `ASR #$nn`, R412 -/
  | asrImm (v : Byte)
  /-- $4C `JMP $nnnn`, R311 -/
  | jmpAbs (addr : Addr)
  /-- $4D `EOR $nnnn`, R242 -/
  | eorAbs (addr : Addr)
  /-- $4E `LSR $nnnn`, R282 -/
  | lsrAbs (addr : Addr)
  /-- $4F `SRE $nnnn`, R373 -/
  | sreAbs (addr : Addr)
  /-- $50 `BVC $nnnn`, R322 -/
  | bvcRel (off : Byte)
  /-- $51 `EOR ($nn),Y`, R242 -/
  | eorIzy (ptr : Byte)
  /-- $53 `SRE ($nn),Y`, R373 -/
  | sreIzy (ptr : Byte)
  /-- $54 `NOP $nn,X`, R392 -/
  | nopZpx54 (d : Byte)
  /-- $55 `EOR $nn,X`, R242 -/
  | eorZpx (d : Byte)
  /-- $56 `LSR $nn,X`, R282 -/
  | lsrZpx (d : Byte)
  /-- $57 `SRE $nn,X`, R373 -/
  | sreZpx (d : Byte)
  /-- $59 `EOR $nnnn,Y`, R242 -/
  | eorAby (addr : Addr)
  /-- $5B `SRE $nnnn,Y`, R373 -/
  | sreAby (addr : Addr)
  /-- $5C `NOP $nnnn,X`, R394 -/
  | nopAbx5C (addr : Addr)
  /-- $5D `EOR $nnnn,X`, R242 -/
  | eorAbx (addr : Addr)
  /-- $5E `LSR $nnnn,X`, R282 -/
  | lsrAbx (addr : Addr)
  /-- $5F `SRE $nnnn,X`, R373 -/
  | sreAbx (addr : Addr)
  /-- $61 `ADC ($nn,X)`, R251 -/
  | adcIzx (ptr : Byte)
  /-- $63 `RRA ($nn,X)`, R374 -/
  | rraIzx (ptr : Byte)
  /-- $64 `NOP $nn`, R392 -/
  | nopZp64 (d : Byte)
  /-- $65 `ADC $nn`, R251 -/
  | adcZp (d : Byte)
  /-- $66 `ROR $nn`, R284 -/
  | rorZp (d : Byte)
  /-- $67 `RRA $nn`, R374 -/
  | rraZp (d : Byte)
  /-- $69 `ADC #$nn`, R251 -/
  | adcImm (v : Byte)
  /-- $6B `ARR #$nn`, R413 -/
  | arrImm (v : Byte)
  /-- $6C `JMP ($nnnn)`, R314 -/
  | jmpInd (addr : Addr)
  /-- $6D `ADC $nnnn`, R251 -/
  | adcAbs (addr : Addr)
  /-- $6E `ROR $nnnn`, R284 -/
  | rorAbs (addr : Addr)
  /-- $6F `RRA $nnnn`, R374 -/
  | rraAbs (addr : Addr)
  /-- $70 `BVS $nnnn`, R323 -/
  | bvsRel (off : Byte)
  /-- $71 `ADC ($nn),Y`, R251 -/
  | adcIzy (ptr : Byte)
  /-- $73 `RRA ($nn),Y`, R374 -/
  | rraIzy (ptr : Byte)
  /-- $74 `NOP $nn,X`, R392 -/
  | nopZpx74 (d : Byte)
  /-- $75 `ADC $nn,X`, R251 -/
  | adcZpx (d : Byte)
  /-- $76 `ROR $nn,X`, R284 -/
  | rorZpx (d : Byte)
  /-- $77 `RRA $nn,X`, R374 -/
  | rraZpx (d : Byte)
  /-- $79 `ADC $nnnn,Y`, R251 -/
  | adcAby (addr : Addr)
  /-- $7B `RRA $nnnn,Y`, R374 -/
  | rraAby (addr : Addr)
  /-- $7C `NOP $nnnn,X`, R394 -/
  | nopAbx7C (addr : Addr)
  /-- $7D `ADC $nnnn,X`, R251 -/
  | adcAbx (addr : Addr)
  /-- $7E `ROR $nnnn,X`, R284 -/
  | rorAbx (addr : Addr)
  /-- $7F `RRA $nnnn,X`, R374 -/
  | rraAbx (addr : Addr)
  /-- $80 `NOP #$nn`, R391 -/
  | nopImm80 (v : Byte)
  /-- $81 `STA ($nn,X)`, R204 -/
  | staIzx (ptr : Byte)
  /-- $82 `NOP #$nn`, R396 -/
  | nopImm82 (v : Byte)
  /-- $83 `SAX ($nn,X)`, R375 -/
  | saxIzx (ptr : Byte)
  /-- $84 `STY $nn`, R206 -/
  | styZp (d : Byte)
  /-- $85 `STA $nn`, R204 -/
  | staZp (d : Byte)
  /-- $86 `STX $nn`, R205 -/
  | stxZp (d : Byte)
  /-- $87 `SAX $nn`, R375 -/
  | saxZp (d : Byte)
  /-- $89 `NOP #$nn`, R391 -/
  | nopImm89 (v : Byte)
  /-- $8B `ANE #$nn`, R415 -/
  | aneImm (v : Byte)
  /-- $8C `STY $nnnn`, R206 -/
  | styAbs (addr : Addr)
  /-- $8D `STA $nnnn`, R204 -/
  | staAbs (addr : Addr)
  /-- $8E `STX $nnnn`, R205 -/
  | stxAbs (addr : Addr)
  /-- $8F `SAX $nnnn`, R375 -/
  | saxAbs (addr : Addr)
  /-- $90 `BCC $nnnn`, R324 -/
  | bccRel (off : Byte)
  /-- $91 `STA ($nn),Y`, R204 -/
  | staIzy (ptr : Byte)
  /-- $93 `SHA ($nn),Y`, R421 -/
  | shaIzy (ptr : Byte)
  /-- $94 `STY $nn,X`, R206 -/
  | styZpx (d : Byte)
  /-- $95 `STA $nn,X`, R204 -/
  | staZpx (d : Byte)
  /-- $96 `STX $nn,Y`, R205 -/
  | stxZpy (d : Byte)
  /-- $97 `SAX $nn,Y`, R375 -/
  | saxZpy (d : Byte)
  /-- $99 `STA $nnnn,Y`, R204 -/
  | staAby (addr : Addr)
  /-- $9B `SHS $nnnn,Y`, R424 -/
  | shsAby (addr : Addr)
  /-- $9C `SHY $nnnn,X`, R423 -/
  | shyAbx (addr : Addr)
  /-- $9D `STA $nnnn,X`, R204 -/
  | staAbx (addr : Addr)
  /-- $9E `SHX $nnnn,Y`, R422 -/
  | shxAby (addr : Addr)
  /-- $9F `SHA $nnnn,Y`, R421 -/
  | shaAby (addr : Addr)
  /-- $A0 `LDY #$nn`, R203 -/
  | ldyImm (v : Byte)
  /-- $A1 `LDA ($nn,X)`, R201 -/
  | ldaIzx (ptr : Byte)
  /-- $A2 `LDX #$nn`, R202 -/
  | ldxImm (v : Byte)
  /-- $A3 `LAX ($nn,X)`, R376 -/
  | laxIzx (ptr : Byte)
  /-- $A4 `LDY $nn`, R203 -/
  | ldyZp (d : Byte)
  /-- $A5 `LDA $nn`, R201 -/
  | ldaZp (d : Byte)
  /-- $A6 `LDX $nn`, R202 -/
  | ldxZp (d : Byte)
  /-- $A7 `LAX $nn`, R376 -/
  | laxZp (d : Byte)
  /-- $A9 `LDA #$nn`, R201 -/
  | ldaImm (v : Byte)
  /-- $AB `LXA #$nn`, R416 -/
  | lxaImm (v : Byte)
  /-- $AC `LDY $nnnn`, R203 -/
  | ldyAbs (addr : Addr)
  /-- $AD `LDA $nnnn`, R201 -/
  | ldaAbs (addr : Addr)
  /-- $AE `LDX $nnnn`, R202 -/
  | ldxAbs (addr : Addr)
  /-- $AF `LAX $nnnn`, R376 -/
  | laxAbs (addr : Addr)
  /-- $B0 `BCS $nnnn`, R325 -/
  | bcsRel (off : Byte)
  /-- $B1 `LDA ($nn),Y`, R201 -/
  | ldaIzy (ptr : Byte)
  /-- $B3 `LAX ($nn),Y`, R376 -/
  | laxIzy (ptr : Byte)
  /-- $B4 `LDY $nn,X`, R203 -/
  | ldyZpx (d : Byte)
  /-- $B5 `LDA $nn,X`, R201 -/
  | ldaZpx (d : Byte)
  /-- $B6 `LDX $nn,Y`, R202 -/
  | ldxZpy (d : Byte)
  /-- $B7 `LAX $nn,Y`, R376 -/
  | laxZpy (d : Byte)
  /-- $B9 `LDA $nnnn,Y`, R201 -/
  | ldaAby (addr : Addr)
  /-- $BB `LAS $nnnn,Y`, R425 -/
  | lasAby (addr : Addr)
  /-- $BC `LDY $nnnn,X`, R203 -/
  | ldyAbx (addr : Addr)
  /-- $BD `LDA $nnnn,X`, R201 -/
  | ldaAbx (addr : Addr)
  /-- $BE `LDX $nnnn,Y`, R202 -/
  | ldxAby (addr : Addr)
  /-- $BF `LAX $nnnn,Y`, R376 -/
  | laxAby (addr : Addr)
  /-- $C0 `CPY #$nn`, R257 -/
  | cpyImm (v : Byte)
  /-- $C1 `CMP ($nn,X)`, R255 -/
  | cmpIzx (ptr : Byte)
  /-- $C2 `NOP #$nn`, R396 -/
  | nopImmC2 (v : Byte)
  /-- $C3 `DCP ($nn,X)`, R377 -/
  | dcpIzx (ptr : Byte)
  /-- $C4 `CPY $nn`, R257 -/
  | cpyZp (d : Byte)
  /-- $C5 `CMP $nn`, R255 -/
  | cmpZp (d : Byte)
  /-- $C6 `DEC $nn`, R286 -/
  | decZp (d : Byte)
  /-- $C7 `DCP $nn`, R377 -/
  | dcpZp (d : Byte)
  /-- $C9 `CMP #$nn`, R255 -/
  | cmpImm (v : Byte)
  /-- $CB `SBX #$nn`, R414 -/
  | sbxImm (v : Byte)
  /-- $CC `CPY $nnnn`, R257 -/
  | cpyAbs (addr : Addr)
  /-- $CD `CMP $nnnn`, R255 -/
  | cmpAbs (addr : Addr)
  /-- $CE `DEC $nnnn`, R286 -/
  | decAbs (addr : Addr)
  /-- $CF `DCP $nnnn`, R377 -/
  | dcpAbs (addr : Addr)
  /-- $D0 `BNE $nnnn`, R326 -/
  | bneRel (off : Byte)
  /-- $D1 `CMP ($nn),Y`, R255 -/
  | cmpIzy (ptr : Byte)
  /-- $D3 `DCP ($nn),Y`, R377 -/
  | dcpIzy (ptr : Byte)
  /-- $D4 `NOP $nn,X`, R392 -/
  | nopZpxD4 (d : Byte)
  /-- $D5 `CMP $nn,X`, R255 -/
  | cmpZpx (d : Byte)
  /-- $D6 `DEC $nn,X`, R286 -/
  | decZpx (d : Byte)
  /-- $D7 `DCP $nn,X`, R377 -/
  | dcpZpx (d : Byte)
  /-- $D9 `CMP $nnnn,Y`, R255 -/
  | cmpAby (addr : Addr)
  /-- $DB `DCP $nnnn,Y`, R377 -/
  | dcpAby (addr : Addr)
  /-- $DC `NOP $nnnn,X`, R394 -/
  | nopAbxDC (addr : Addr)
  /-- $DD `CMP $nnnn,X`, R255 -/
  | cmpAbx (addr : Addr)
  /-- $DE `DEC $nnnn,X`, R286 -/
  | decAbx (addr : Addr)
  /-- $DF `DCP $nnnn,X`, R377 -/
  | dcpAbx (addr : Addr)
  /-- $E0 `CPX #$nn`, R256 -/
  | cpxImm (v : Byte)
  /-- $E1 `SBC ($nn,X)`, R253 -/
  | sbcIzx (ptr : Byte)
  /-- $E2 `NOP #$nn`, R396 -/
  | nopImmE2 (v : Byte)
  /-- $E3 `ISB ($nn,X)`, R378 -/
  | isbIzx (ptr : Byte)
  /-- $E4 `CPX $nn`, R256 -/
  | cpxZp (d : Byte)
  /-- $E5 `SBC $nn`, R253 -/
  | sbcZp (d : Byte)
  /-- $E6 `INC $nn`, R285 -/
  | incZp (d : Byte)
  /-- $E7 `ISB $nn`, R378 -/
  | isbZp (d : Byte)
  /-- $E9 `SBC #$nn`, R253 -/
  | sbcImm (v : Byte)
  /-- $EB `SBC #$nn`, R388 -/
  | sbcImmEB (v : Byte)
  /-- $EC `CPX $nnnn`, R256 -/
  | cpxAbs (addr : Addr)
  /-- $ED `SBC $nnnn`, R253 -/
  | sbcAbs (addr : Addr)
  /-- $EE `INC $nnnn`, R285 -/
  | incAbs (addr : Addr)
  /-- $EF `ISB $nnnn`, R378 -/
  | isbAbs (addr : Addr)
  /-- $F0 `BEQ $nnnn`, R327 -/
  | beqRel (off : Byte)
  /-- $F1 `SBC ($nn),Y`, R253 -/
  | sbcIzy (ptr : Byte)
  /-- $F3 `ISB ($nn),Y`, R378 -/
  | isbIzy (ptr : Byte)
  /-- $F4 `NOP $nn,X`, R392 -/
  | nopZpxF4 (d : Byte)
  /-- $F5 `SBC $nn,X`, R253 -/
  | sbcZpx (d : Byte)
  /-- $F6 `INC $nn,X`, R285 -/
  | incZpx (d : Byte)
  /-- $F7 `ISB $nn,X`, R378 -/
  | isbZpx (d : Byte)
  /-- $F9 `SBC $nnnn,Y`, R253 -/
  | sbcAby (addr : Addr)
  /-- $FB `ISB $nnnn,Y`, R378 -/
  | isbAby (addr : Addr)
  /-- $FC `NOP $nnnn,X`, R394 -/
  | nopAbxFC (addr : Addr)
  /-- $FD `SBC $nnnn,X`, R253 -/
  | sbcAbx (addr : Addr)
  /-- $FE `INC $nnnn,X`, R285 -/
  | incAbx (addr : Addr)
  /-- $FF `ISB $nnnn,X`, R378 -/
  | isbAbx (addr : Addr)
  /-- $00 `BRK`, R355 -/
  | brk
  /-- $02 `JAM`, R395 -/
  | jam02
  /-- $08 `PHP`, R342 -/
  | php
  /-- $0A `ASL A`, R281 -/
  | aslAcc
  /-- $12 `JAM`, R395 -/
  | jam12
  /-- $18 `CLC`, R360 -/
  | clc
  /-- $1A `NOP`, R390 -/
  | nop1A
  /-- $22 `JAM`, R395 -/
  | jam22
  /-- $28 `PLP`, R344 -/
  | plp
  /-- $2A `ROL A`, R283 -/
  | rolAcc
  /-- $32 `JAM`, R395 -/
  | jam32
  /-- $38 `SEC`, R361 -/
  | sec
  /-- $3A `NOP`, R390 -/
  | nop3A
  /-- $40 `RTI`, R350 -/
  | rti
  /-- $42 `JAM`, R395 -/
  | jam42
  /-- $48 `PHA`, R341 -/
  | pha
  /-- $4A `LSR A`, R282 -/
  | lsrAcc
  /-- $52 `JAM`, R395 -/
  | jam52
  /-- $58 `CLI`, R362 -/
  | cli
  /-- $5A `NOP`, R390 -/
  | nop5A
  /-- $60 `RTS`, R351 -/
  | rts
  /-- $62 `JAM`, R395 -/
  | jam62
  /-- $68 `PLA`, R343 -/
  | pla
  /-- $6A `ROR A`, R284 -/
  | rorAcc
  /-- $72 `JAM`, R395 -/
  | jam72
  /-- $78 `SEI`, R363 -/
  | sei
  /-- $7A `NOP`, R390 -/
  | nop7A
  /-- $88 `DEY`, R290 -/
  | dey
  /-- $8A `TXA`, R209 -/
  | txa
  /-- $92 `JAM`, R395 -/
  | jam92
  /-- $98 `TYA`, R210 -/
  | tya
  /-- $9A `TXS`, R212 -/
  | txs
  /-- $A8 `TAY`, R208 -/
  | tay
  /-- $AA `TAX`, R207 -/
  | tax
  /-- $B2 `JAM`, R395 -/
  | jamB2
  /-- $B8 `CLV`, R364 -/
  | clv
  /-- $BA `TSX`, R211 -/
  | tsx
  /-- $C8 `INY`, R288 -/
  | iny
  /-- $CA `DEX`, R289 -/
  | dex
  /-- $D2 `JAM`, R395 -/
  | jamD2
  /-- $D8 `CLD`, R365 -/
  | cld
  /-- $DA `NOP`, R390 -/
  | nopDA
  /-- $E8 `INX`, R287 -/
  | inx
  /-- $EA `NOP`, R367 -/
  | nop
  /-- $F2 `JAM`, R395 -/
  | jamF2
  /-- $F8 `SED`, R366 -/
  | sed
  /-- $FA `NOP`, R390 -/
  | nopFA
deriving DecidableEq, Repr

/-- An instruction as the mnemonic of its row and the operand its addressing mode gives it (30_encoding.md
R104, R105). -/
def Instr.form : Instr → Mnemonic × Operand
  | .brk => (.brk, .implied)
  | .oraIzx ptr => (.ora, .source (.mem (.izx ptr)))
  | .jam02 => (.jam, .implied)
  | .sloIzx ptr => (.slo, .source (.mem (.izx ptr)))
  | .nopZp04 d => (.nop, .source (.mem (.zp d)))
  | .oraZp d => (.ora, .source (.mem (.zp d)))
  | .aslZp d => (.asl, .source (.mem (.zp d)))
  | .sloZp d => (.slo, .source (.mem (.zp d)))
  | .php => (.php, .implied)
  | .oraImm v => (.ora, .source (.imm v))
  | .aslAcc => (.asl, .accumulator)
  | .ancImm0B v => (.anc, .source (.imm v))
  | .nopAbs addr => (.nop, .source (.mem (.abs addr)))
  | .oraAbs addr => (.ora, .source (.mem (.abs addr)))
  | .aslAbs addr => (.asl, .source (.mem (.abs addr)))
  | .sloAbs addr => (.slo, .source (.mem (.abs addr)))
  | .bplRel off => (.bpl, .relative off)
  | .oraIzy ptr => (.ora, .source (.mem (.izy ptr)))
  | .jam12 => (.jam, .implied)
  | .sloIzy ptr => (.slo, .source (.mem (.izy ptr)))
  | .nopZpx14 d => (.nop, .source (.mem (.zpx d)))
  | .oraZpx d => (.ora, .source (.mem (.zpx d)))
  | .aslZpx d => (.asl, .source (.mem (.zpx d)))
  | .sloZpx d => (.slo, .source (.mem (.zpx d)))
  | .clc => (.clc, .implied)
  | .oraAby addr => (.ora, .source (.mem (.aby addr)))
  | .nop1A => (.nop, .implied)
  | .sloAby addr => (.slo, .source (.mem (.aby addr)))
  | .nopAbx1C addr => (.nop, .source (.mem (.abx addr)))
  | .oraAbx addr => (.ora, .source (.mem (.abx addr)))
  | .aslAbx addr => (.asl, .source (.mem (.abx addr)))
  | .sloAbx addr => (.slo, .source (.mem (.abx addr)))
  | .jsrAbs addr => (.jsr, .source (.mem (.abs addr)))
  | .andIzx ptr => (.and, .source (.mem (.izx ptr)))
  | .jam22 => (.jam, .implied)
  | .rlaIzx ptr => (.rla, .source (.mem (.izx ptr)))
  | .bitZp d => (.bit, .source (.mem (.zp d)))
  | .andZp d => (.and, .source (.mem (.zp d)))
  | .rolZp d => (.rol, .source (.mem (.zp d)))
  | .rlaZp d => (.rla, .source (.mem (.zp d)))
  | .plp => (.plp, .implied)
  | .andImm v => (.and, .source (.imm v))
  | .rolAcc => (.rol, .accumulator)
  | .ancImm2B v => (.anc, .source (.imm v))
  | .bitAbs addr => (.bit, .source (.mem (.abs addr)))
  | .andAbs addr => (.and, .source (.mem (.abs addr)))
  | .rolAbs addr => (.rol, .source (.mem (.abs addr)))
  | .rlaAbs addr => (.rla, .source (.mem (.abs addr)))
  | .bmiRel off => (.bmi, .relative off)
  | .andIzy ptr => (.and, .source (.mem (.izy ptr)))
  | .jam32 => (.jam, .implied)
  | .rlaIzy ptr => (.rla, .source (.mem (.izy ptr)))
  | .nopZpx34 d => (.nop, .source (.mem (.zpx d)))
  | .andZpx d => (.and, .source (.mem (.zpx d)))
  | .rolZpx d => (.rol, .source (.mem (.zpx d)))
  | .rlaZpx d => (.rla, .source (.mem (.zpx d)))
  | .sec => (.sec, .implied)
  | .andAby addr => (.and, .source (.mem (.aby addr)))
  | .nop3A => (.nop, .implied)
  | .rlaAby addr => (.rla, .source (.mem (.aby addr)))
  | .nopAbx3C addr => (.nop, .source (.mem (.abx addr)))
  | .andAbx addr => (.and, .source (.mem (.abx addr)))
  | .rolAbx addr => (.rol, .source (.mem (.abx addr)))
  | .rlaAbx addr => (.rla, .source (.mem (.abx addr)))
  | .rti => (.rti, .implied)
  | .eorIzx ptr => (.eor, .source (.mem (.izx ptr)))
  | .jam42 => (.jam, .implied)
  | .sreIzx ptr => (.sre, .source (.mem (.izx ptr)))
  | .nopZp44 d => (.nop, .source (.mem (.zp d)))
  | .eorZp d => (.eor, .source (.mem (.zp d)))
  | .lsrZp d => (.lsr, .source (.mem (.zp d)))
  | .sreZp d => (.sre, .source (.mem (.zp d)))
  | .pha => (.pha, .implied)
  | .eorImm v => (.eor, .source (.imm v))
  | .lsrAcc => (.lsr, .accumulator)
  | .asrImm v => (.asr, .source (.imm v))
  | .jmpAbs addr => (.jmp, .source (.mem (.abs addr)))
  | .eorAbs addr => (.eor, .source (.mem (.abs addr)))
  | .lsrAbs addr => (.lsr, .source (.mem (.abs addr)))
  | .sreAbs addr => (.sre, .source (.mem (.abs addr)))
  | .bvcRel off => (.bvc, .relative off)
  | .eorIzy ptr => (.eor, .source (.mem (.izy ptr)))
  | .jam52 => (.jam, .implied)
  | .sreIzy ptr => (.sre, .source (.mem (.izy ptr)))
  | .nopZpx54 d => (.nop, .source (.mem (.zpx d)))
  | .eorZpx d => (.eor, .source (.mem (.zpx d)))
  | .lsrZpx d => (.lsr, .source (.mem (.zpx d)))
  | .sreZpx d => (.sre, .source (.mem (.zpx d)))
  | .cli => (.cli, .implied)
  | .eorAby addr => (.eor, .source (.mem (.aby addr)))
  | .nop5A => (.nop, .implied)
  | .sreAby addr => (.sre, .source (.mem (.aby addr)))
  | .nopAbx5C addr => (.nop, .source (.mem (.abx addr)))
  | .eorAbx addr => (.eor, .source (.mem (.abx addr)))
  | .lsrAbx addr => (.lsr, .source (.mem (.abx addr)))
  | .sreAbx addr => (.sre, .source (.mem (.abx addr)))
  | .rts => (.rts, .implied)
  | .adcIzx ptr => (.adc, .source (.mem (.izx ptr)))
  | .jam62 => (.jam, .implied)
  | .rraIzx ptr => (.rra, .source (.mem (.izx ptr)))
  | .nopZp64 d => (.nop, .source (.mem (.zp d)))
  | .adcZp d => (.adc, .source (.mem (.zp d)))
  | .rorZp d => (.ror, .source (.mem (.zp d)))
  | .rraZp d => (.rra, .source (.mem (.zp d)))
  | .pla => (.pla, .implied)
  | .adcImm v => (.adc, .source (.imm v))
  | .rorAcc => (.ror, .accumulator)
  | .arrImm v => (.arr, .source (.imm v))
  | .jmpInd addr => (.jmp, .indirect addr)
  | .adcAbs addr => (.adc, .source (.mem (.abs addr)))
  | .rorAbs addr => (.ror, .source (.mem (.abs addr)))
  | .rraAbs addr => (.rra, .source (.mem (.abs addr)))
  | .bvsRel off => (.bvs, .relative off)
  | .adcIzy ptr => (.adc, .source (.mem (.izy ptr)))
  | .jam72 => (.jam, .implied)
  | .rraIzy ptr => (.rra, .source (.mem (.izy ptr)))
  | .nopZpx74 d => (.nop, .source (.mem (.zpx d)))
  | .adcZpx d => (.adc, .source (.mem (.zpx d)))
  | .rorZpx d => (.ror, .source (.mem (.zpx d)))
  | .rraZpx d => (.rra, .source (.mem (.zpx d)))
  | .sei => (.sei, .implied)
  | .adcAby addr => (.adc, .source (.mem (.aby addr)))
  | .nop7A => (.nop, .implied)
  | .rraAby addr => (.rra, .source (.mem (.aby addr)))
  | .nopAbx7C addr => (.nop, .source (.mem (.abx addr)))
  | .adcAbx addr => (.adc, .source (.mem (.abx addr)))
  | .rorAbx addr => (.ror, .source (.mem (.abx addr)))
  | .rraAbx addr => (.rra, .source (.mem (.abx addr)))
  | .nopImm80 v => (.nop, .source (.imm v))
  | .staIzx ptr => (.sta, .source (.mem (.izx ptr)))
  | .nopImm82 v => (.nop, .source (.imm v))
  | .saxIzx ptr => (.sax, .source (.mem (.izx ptr)))
  | .styZp d => (.sty, .source (.mem (.zp d)))
  | .staZp d => (.sta, .source (.mem (.zp d)))
  | .stxZp d => (.stx, .source (.mem (.zp d)))
  | .saxZp d => (.sax, .source (.mem (.zp d)))
  | .dey => (.dey, .implied)
  | .nopImm89 v => (.nop, .source (.imm v))
  | .txa => (.txa, .implied)
  | .aneImm v => (.ane, .source (.imm v))
  | .styAbs addr => (.sty, .source (.mem (.abs addr)))
  | .staAbs addr => (.sta, .source (.mem (.abs addr)))
  | .stxAbs addr => (.stx, .source (.mem (.abs addr)))
  | .saxAbs addr => (.sax, .source (.mem (.abs addr)))
  | .bccRel off => (.bcc, .relative off)
  | .staIzy ptr => (.sta, .source (.mem (.izy ptr)))
  | .jam92 => (.jam, .implied)
  | .shaIzy ptr => (.sha, .source (.mem (.izy ptr)))
  | .styZpx d => (.sty, .source (.mem (.zpx d)))
  | .staZpx d => (.sta, .source (.mem (.zpx d)))
  | .stxZpy d => (.stx, .source (.mem (.zpy d)))
  | .saxZpy d => (.sax, .source (.mem (.zpy d)))
  | .tya => (.tya, .implied)
  | .staAby addr => (.sta, .source (.mem (.aby addr)))
  | .txs => (.txs, .implied)
  | .shsAby addr => (.shs, .source (.mem (.aby addr)))
  | .shyAbx addr => (.shy, .source (.mem (.abx addr)))
  | .staAbx addr => (.sta, .source (.mem (.abx addr)))
  | .shxAby addr => (.shx, .source (.mem (.aby addr)))
  | .shaAby addr => (.sha, .source (.mem (.aby addr)))
  | .ldyImm v => (.ldy, .source (.imm v))
  | .ldaIzx ptr => (.lda, .source (.mem (.izx ptr)))
  | .ldxImm v => (.ldx, .source (.imm v))
  | .laxIzx ptr => (.lax, .source (.mem (.izx ptr)))
  | .ldyZp d => (.ldy, .source (.mem (.zp d)))
  | .ldaZp d => (.lda, .source (.mem (.zp d)))
  | .ldxZp d => (.ldx, .source (.mem (.zp d)))
  | .laxZp d => (.lax, .source (.mem (.zp d)))
  | .tay => (.tay, .implied)
  | .ldaImm v => (.lda, .source (.imm v))
  | .tax => (.tax, .implied)
  | .lxaImm v => (.lxa, .source (.imm v))
  | .ldyAbs addr => (.ldy, .source (.mem (.abs addr)))
  | .ldaAbs addr => (.lda, .source (.mem (.abs addr)))
  | .ldxAbs addr => (.ldx, .source (.mem (.abs addr)))
  | .laxAbs addr => (.lax, .source (.mem (.abs addr)))
  | .bcsRel off => (.bcs, .relative off)
  | .ldaIzy ptr => (.lda, .source (.mem (.izy ptr)))
  | .jamB2 => (.jam, .implied)
  | .laxIzy ptr => (.lax, .source (.mem (.izy ptr)))
  | .ldyZpx d => (.ldy, .source (.mem (.zpx d)))
  | .ldaZpx d => (.lda, .source (.mem (.zpx d)))
  | .ldxZpy d => (.ldx, .source (.mem (.zpy d)))
  | .laxZpy d => (.lax, .source (.mem (.zpy d)))
  | .clv => (.clv, .implied)
  | .ldaAby addr => (.lda, .source (.mem (.aby addr)))
  | .tsx => (.tsx, .implied)
  | .lasAby addr => (.las, .source (.mem (.aby addr)))
  | .ldyAbx addr => (.ldy, .source (.mem (.abx addr)))
  | .ldaAbx addr => (.lda, .source (.mem (.abx addr)))
  | .ldxAby addr => (.ldx, .source (.mem (.aby addr)))
  | .laxAby addr => (.lax, .source (.mem (.aby addr)))
  | .cpyImm v => (.cpy, .source (.imm v))
  | .cmpIzx ptr => (.cmp, .source (.mem (.izx ptr)))
  | .nopImmC2 v => (.nop, .source (.imm v))
  | .dcpIzx ptr => (.dcp, .source (.mem (.izx ptr)))
  | .cpyZp d => (.cpy, .source (.mem (.zp d)))
  | .cmpZp d => (.cmp, .source (.mem (.zp d)))
  | .decZp d => (.dec, .source (.mem (.zp d)))
  | .dcpZp d => (.dcp, .source (.mem (.zp d)))
  | .iny => (.iny, .implied)
  | .cmpImm v => (.cmp, .source (.imm v))
  | .dex => (.dex, .implied)
  | .sbxImm v => (.sbx, .source (.imm v))
  | .cpyAbs addr => (.cpy, .source (.mem (.abs addr)))
  | .cmpAbs addr => (.cmp, .source (.mem (.abs addr)))
  | .decAbs addr => (.dec, .source (.mem (.abs addr)))
  | .dcpAbs addr => (.dcp, .source (.mem (.abs addr)))
  | .bneRel off => (.bne, .relative off)
  | .cmpIzy ptr => (.cmp, .source (.mem (.izy ptr)))
  | .jamD2 => (.jam, .implied)
  | .dcpIzy ptr => (.dcp, .source (.mem (.izy ptr)))
  | .nopZpxD4 d => (.nop, .source (.mem (.zpx d)))
  | .cmpZpx d => (.cmp, .source (.mem (.zpx d)))
  | .decZpx d => (.dec, .source (.mem (.zpx d)))
  | .dcpZpx d => (.dcp, .source (.mem (.zpx d)))
  | .cld => (.cld, .implied)
  | .cmpAby addr => (.cmp, .source (.mem (.aby addr)))
  | .nopDA => (.nop, .implied)
  | .dcpAby addr => (.dcp, .source (.mem (.aby addr)))
  | .nopAbxDC addr => (.nop, .source (.mem (.abx addr)))
  | .cmpAbx addr => (.cmp, .source (.mem (.abx addr)))
  | .decAbx addr => (.dec, .source (.mem (.abx addr)))
  | .dcpAbx addr => (.dcp, .source (.mem (.abx addr)))
  | .cpxImm v => (.cpx, .source (.imm v))
  | .sbcIzx ptr => (.sbc, .source (.mem (.izx ptr)))
  | .nopImmE2 v => (.nop, .source (.imm v))
  | .isbIzx ptr => (.isb, .source (.mem (.izx ptr)))
  | .cpxZp d => (.cpx, .source (.mem (.zp d)))
  | .sbcZp d => (.sbc, .source (.mem (.zp d)))
  | .incZp d => (.inc, .source (.mem (.zp d)))
  | .isbZp d => (.isb, .source (.mem (.zp d)))
  | .inx => (.inx, .implied)
  | .sbcImm v => (.sbc, .source (.imm v))
  | .nop => (.nop, .implied)
  | .sbcImmEB v => (.sbc, .source (.imm v))
  | .cpxAbs addr => (.cpx, .source (.mem (.abs addr)))
  | .sbcAbs addr => (.sbc, .source (.mem (.abs addr)))
  | .incAbs addr => (.inc, .source (.mem (.abs addr)))
  | .isbAbs addr => (.isb, .source (.mem (.abs addr)))
  | .beqRel off => (.beq, .relative off)
  | .sbcIzy ptr => (.sbc, .source (.mem (.izy ptr)))
  | .jamF2 => (.jam, .implied)
  | .isbIzy ptr => (.isb, .source (.mem (.izy ptr)))
  | .nopZpxF4 d => (.nop, .source (.mem (.zpx d)))
  | .sbcZpx d => (.sbc, .source (.mem (.zpx d)))
  | .incZpx d => (.inc, .source (.mem (.zpx d)))
  | .isbZpx d => (.isb, .source (.mem (.zpx d)))
  | .sed => (.sed, .implied)
  | .sbcAby addr => (.sbc, .source (.mem (.aby addr)))
  | .nopFA => (.nop, .implied)
  | .isbAby addr => (.isb, .source (.mem (.aby addr)))
  | .nopAbxFC addr => (.nop, .source (.mem (.abx addr)))
  | .sbcAbx addr => (.sbc, .source (.mem (.abx addr)))
  | .incAbx addr => (.inc, .source (.mem (.abx addr)))
  | .isbAbx addr => (.isb, .source (.mem (.abx addr)))

/-- The mnemonic of an instruction's row. -/
def Instr.mnemonic (i : Instr) : Mnemonic := i.form.1

/-- The operand of an instruction. -/
def Instr.operand (i : Instr) : Operand := i.form.2

end Sys2Proof
end

