-- ==== Sys2Proof/WellFormed.lean ====
section
/-! DEFINITION. Which mnemonic exists in which addressing mode (30_encoding.md R104 to R106, R110), as a check on
a mnemonic and an operand. Every operand byte may take every value (R100, R101: no operand value is
reserved), so this is the only way a written instruction can be ill-formed: `STA #$nn` does not exist. -/

namespace Sys2Proof

/-- The addressing mode codes of 30_encoding.md R106. -/
inductive Mode where
  | imp | acc | imm | zp | zpx | zpy | abs | abx | aby | izx | izy | rel | ind
deriving DecidableEq, Repr

/-- The mode of a memory operand. -/
def MemMode.mode : MemMode → Mode
  | .zp _ => .zp
  | .zpx _ => .zpx
  | .zpy _ => .zpy
  | .abs _ => .abs
  | .abx _ => .abx
  | .aby _ => .aby
  | .izx _ => .izx
  | .izy _ => .izy

/-- The mode of an operand. The jam rows, whose mode the matrix prints as "?", have no operand byte and count
as implied (46_undocumented_stable.md R395). -/
def Operand.mode : Operand → Mode
  | .implied => .imp
  | .accumulator => .acc
  | .source (.imm _) => .imm
  | .source (.mem m) => m.mode
  | .relative _ => .rel
  | .indirect _ => .ind

/-- The modes a mnemonic exists in, read off the matrix (30_encoding.md R104, R105). -/
def Mnemonic.modes : Mnemonic → List Mode
  | .brk | .jam | .php | .clc | .plp | .sec | .rti | .pha
  | .cli | .rts | .pla | .sei | .dey | .txa | .tya | .txs
  | .tay | .tax | .clv | .tsx | .iny | .dex | .cld | .inx
  | .sed =>
    [.imp]
  | .ora | .and | .eor | .adc | .lda | .cmp | .sbc =>
    [.imm, .zp, .zpx, .abs, .abx, .aby, .izx, .izy]
  | .slo | .rla | .sre | .rra | .sta | .dcp | .isb =>
    [.zp, .zpx, .abs, .abx, .aby, .izx, .izy]
  | .nop =>
    [.imp, .imm, .zp, .zpx, .abs, .abx]
  | .asl | .rol | .lsr | .ror =>
    [.acc, .zp, .zpx, .abs, .abx]
  | .anc | .asr | .arr | .ane | .lxa | .sbx =>
    [.imm]
  | .bpl | .bmi | .bvc | .bvs | .bcc | .bcs | .bne | .beq =>
    [.rel]
  | .jsr =>
    [.abs]
  | .bit =>
    [.zp, .abs]
  | .jmp =>
    [.abs, .ind]
  | .sax =>
    [.zp, .zpy, .abs, .izx]
  | .sty =>
    [.zp, .zpx, .abs]
  | .stx =>
    [.zp, .zpy, .abs]
  | .sha =>
    [.aby, .izy]
  | .shs | .shx | .las =>
    [.aby]
  | .shy =>
    [.abx]
  | .ldy =>
    [.imm, .zp, .zpx, .abs, .abx]
  | .ldx =>
    [.imm, .zp, .zpy, .abs, .aby]
  | .lax =>
    [.zp, .zpy, .abs, .aby, .izx, .izy]
  | .cpy | .cpx =>
    [.imm, .zp, .abs]
  | .dec | .inc =>
    [.zp, .zpx, .abs, .abx]

/-- A mnemonic and an operand that stand together in some cell of the matrix. -/
def wellFormedForm (m : Mnemonic) (o : Operand) : Bool := m.modes.contains o.mode

/-- An instruction is well-formed if its form stands in the matrix. -/
def Instr.wellFormed (i : Instr) : Bool := wellFormedForm i.mnemonic i.operand

/-- The number of bytes of an instruction in each mode (30_encoding.md R100, R106). -/
def Mode.bytes : Mode → Nat
  | .imp | .acc => 1
  | .imm | .zp | .zpx | .zpy | .izx | .izy | .rel => 2
  | .abs | .abx | .aby | .ind => 3

end Sys2Proof
end

