-- ==== Sys2Proof/Decode.lean ====
section
/-! DEFINITION. The decoder and the encoder (30_encoding.md R100 to R107). The opcode byte alone selects the
instruction and its length; all 256 values are defined, so the only byte lists refused are those that end
too early. -/

namespace Sys2Proof

/-- The low byte of a 16-bit value, `lo(w)` of 00_scope.md R10. -/
def lo (w : Addr) : Byte := w.extractLsb' 0 8

/-- The high byte of a 16-bit value, `hi(w)` of 00_scope.md R10. -/
def hi (w : Addr) : Byte := w.extractLsb' 8 8

/-- A 16-bit value from its high and low byte, `w16(h, l)` of 00_scope.md R10. -/
def w16 (h l : Byte) : Addr := h ++ l

/-- Opcodes $00 to $0F of the matrix (30_encoding.md R104, R105), as functions of the first and second
operand byte. -/
def opcodes0 : List (Byte → Byte → Instr) := [
  fun _ _ => .brk,
  fun l _ => .oraIzx l,
  fun _ _ => .jam02,
  fun l _ => .sloIzx l,
  fun l _ => .nopZp04 l,
  fun l _ => .oraZp l,
  fun l _ => .aslZp l,
  fun l _ => .sloZp l,
  fun _ _ => .php,
  fun l _ => .oraImm l,
  fun _ _ => .aslAcc,
  fun l _ => .ancImm0B l,
  fun l h => .nopAbs (w16 h l),
  fun l h => .oraAbs (w16 h l),
  fun l h => .aslAbs (w16 h l),
  fun l h => .sloAbs (w16 h l)]

/-- Opcodes $10 to $1F of the matrix (30_encoding.md R104, R105), as functions of the first and second
operand byte. -/
def opcodes1 : List (Byte → Byte → Instr) := [
  fun l _ => .bplRel l,
  fun l _ => .oraIzy l,
  fun _ _ => .jam12,
  fun l _ => .sloIzy l,
  fun l _ => .nopZpx14 l,
  fun l _ => .oraZpx l,
  fun l _ => .aslZpx l,
  fun l _ => .sloZpx l,
  fun _ _ => .clc,
  fun l h => .oraAby (w16 h l),
  fun _ _ => .nop1A,
  fun l h => .sloAby (w16 h l),
  fun l h => .nopAbx1C (w16 h l),
  fun l h => .oraAbx (w16 h l),
  fun l h => .aslAbx (w16 h l),
  fun l h => .sloAbx (w16 h l)]

/-- Opcodes $20 to $2F of the matrix (30_encoding.md R104, R105), as functions of the first and second
operand byte. -/
def opcodes2 : List (Byte → Byte → Instr) := [
  fun l h => .jsrAbs (w16 h l),
  fun l _ => .andIzx l,
  fun _ _ => .jam22,
  fun l _ => .rlaIzx l,
  fun l _ => .bitZp l,
  fun l _ => .andZp l,
  fun l _ => .rolZp l,
  fun l _ => .rlaZp l,
  fun _ _ => .plp,
  fun l _ => .andImm l,
  fun _ _ => .rolAcc,
  fun l _ => .ancImm2B l,
  fun l h => .bitAbs (w16 h l),
  fun l h => .andAbs (w16 h l),
  fun l h => .rolAbs (w16 h l),
  fun l h => .rlaAbs (w16 h l)]

/-- Opcodes $30 to $3F of the matrix (30_encoding.md R104, R105), as functions of the first and second
operand byte. -/
def opcodes3 : List (Byte → Byte → Instr) := [
  fun l _ => .bmiRel l,
  fun l _ => .andIzy l,
  fun _ _ => .jam32,
  fun l _ => .rlaIzy l,
  fun l _ => .nopZpx34 l,
  fun l _ => .andZpx l,
  fun l _ => .rolZpx l,
  fun l _ => .rlaZpx l,
  fun _ _ => .sec,
  fun l h => .andAby (w16 h l),
  fun _ _ => .nop3A,
  fun l h => .rlaAby (w16 h l),
  fun l h => .nopAbx3C (w16 h l),
  fun l h => .andAbx (w16 h l),
  fun l h => .rolAbx (w16 h l),
  fun l h => .rlaAbx (w16 h l)]

/-- Opcodes $40 to $4F of the matrix (30_encoding.md R104, R105), as functions of the first and second
operand byte. -/
def opcodes4 : List (Byte → Byte → Instr) := [
  fun _ _ => .rti,
  fun l _ => .eorIzx l,
  fun _ _ => .jam42,
  fun l _ => .sreIzx l,
  fun l _ => .nopZp44 l,
  fun l _ => .eorZp l,
  fun l _ => .lsrZp l,
  fun l _ => .sreZp l,
  fun _ _ => .pha,
  fun l _ => .eorImm l,
  fun _ _ => .lsrAcc,
  fun l _ => .asrImm l,
  fun l h => .jmpAbs (w16 h l),
  fun l h => .eorAbs (w16 h l),
  fun l h => .lsrAbs (w16 h l),
  fun l h => .sreAbs (w16 h l)]

/-- Opcodes $50 to $5F of the matrix (30_encoding.md R104, R105), as functions of the first and second
operand byte. -/
def opcodes5 : List (Byte → Byte → Instr) := [
  fun l _ => .bvcRel l,
  fun l _ => .eorIzy l,
  fun _ _ => .jam52,
  fun l _ => .sreIzy l,
  fun l _ => .nopZpx54 l,
  fun l _ => .eorZpx l,
  fun l _ => .lsrZpx l,
  fun l _ => .sreZpx l,
  fun _ _ => .cli,
  fun l h => .eorAby (w16 h l),
  fun _ _ => .nop5A,
  fun l h => .sreAby (w16 h l),
  fun l h => .nopAbx5C (w16 h l),
  fun l h => .eorAbx (w16 h l),
  fun l h => .lsrAbx (w16 h l),
  fun l h => .sreAbx (w16 h l)]

/-- Opcodes $60 to $6F of the matrix (30_encoding.md R104, R105), as functions of the first and second
operand byte. -/
def opcodes6 : List (Byte → Byte → Instr) := [
  fun _ _ => .rts,
  fun l _ => .adcIzx l,
  fun _ _ => .jam62,
  fun l _ => .rraIzx l,
  fun l _ => .nopZp64 l,
  fun l _ => .adcZp l,
  fun l _ => .rorZp l,
  fun l _ => .rraZp l,
  fun _ _ => .pla,
  fun l _ => .adcImm l,
  fun _ _ => .rorAcc,
  fun l _ => .arrImm l,
  fun l h => .jmpInd (w16 h l),
  fun l h => .adcAbs (w16 h l),
  fun l h => .rorAbs (w16 h l),
  fun l h => .rraAbs (w16 h l)]

/-- Opcodes $70 to $7F of the matrix (30_encoding.md R104, R105), as functions of the first and second
operand byte. -/
def opcodes7 : List (Byte → Byte → Instr) := [
  fun l _ => .bvsRel l,
  fun l _ => .adcIzy l,
  fun _ _ => .jam72,
  fun l _ => .rraIzy l,
  fun l _ => .nopZpx74 l,
  fun l _ => .adcZpx l,
  fun l _ => .rorZpx l,
  fun l _ => .rraZpx l,
  fun _ _ => .sei,
  fun l h => .adcAby (w16 h l),
  fun _ _ => .nop7A,
  fun l h => .rraAby (w16 h l),
  fun l h => .nopAbx7C (w16 h l),
  fun l h => .adcAbx (w16 h l),
  fun l h => .rorAbx (w16 h l),
  fun l h => .rraAbx (w16 h l)]

/-- Opcodes $80 to $8F of the matrix (30_encoding.md R104, R105), as functions of the first and second
operand byte. -/
def opcodes8 : List (Byte → Byte → Instr) := [
  fun l _ => .nopImm80 l,
  fun l _ => .staIzx l,
  fun l _ => .nopImm82 l,
  fun l _ => .saxIzx l,
  fun l _ => .styZp l,
  fun l _ => .staZp l,
  fun l _ => .stxZp l,
  fun l _ => .saxZp l,
  fun _ _ => .dey,
  fun l _ => .nopImm89 l,
  fun _ _ => .txa,
  fun l _ => .aneImm l,
  fun l h => .styAbs (w16 h l),
  fun l h => .staAbs (w16 h l),
  fun l h => .stxAbs (w16 h l),
  fun l h => .saxAbs (w16 h l)]

/-- Opcodes $90 to $9F of the matrix (30_encoding.md R104, R105), as functions of the first and second
operand byte. -/
def opcodes9 : List (Byte → Byte → Instr) := [
  fun l _ => .bccRel l,
  fun l _ => .staIzy l,
  fun _ _ => .jam92,
  fun l _ => .shaIzy l,
  fun l _ => .styZpx l,
  fun l _ => .staZpx l,
  fun l _ => .stxZpy l,
  fun l _ => .saxZpy l,
  fun _ _ => .tya,
  fun l h => .staAby (w16 h l),
  fun _ _ => .txs,
  fun l h => .shsAby (w16 h l),
  fun l h => .shyAbx (w16 h l),
  fun l h => .staAbx (w16 h l),
  fun l h => .shxAby (w16 h l),
  fun l h => .shaAby (w16 h l)]

/-- Opcodes $A0 to $AF of the matrix (30_encoding.md R104, R105), as functions of the first and second
operand byte. -/
def opcodesA : List (Byte → Byte → Instr) := [
  fun l _ => .ldyImm l,
  fun l _ => .ldaIzx l,
  fun l _ => .ldxImm l,
  fun l _ => .laxIzx l,
  fun l _ => .ldyZp l,
  fun l _ => .ldaZp l,
  fun l _ => .ldxZp l,
  fun l _ => .laxZp l,
  fun _ _ => .tay,
  fun l _ => .ldaImm l,
  fun _ _ => .tax,
  fun l _ => .lxaImm l,
  fun l h => .ldyAbs (w16 h l),
  fun l h => .ldaAbs (w16 h l),
  fun l h => .ldxAbs (w16 h l),
  fun l h => .laxAbs (w16 h l)]

/-- Opcodes $B0 to $BF of the matrix (30_encoding.md R104, R105), as functions of the first and second
operand byte. -/
def opcodesB : List (Byte → Byte → Instr) := [
  fun l _ => .bcsRel l,
  fun l _ => .ldaIzy l,
  fun _ _ => .jamB2,
  fun l _ => .laxIzy l,
  fun l _ => .ldyZpx l,
  fun l _ => .ldaZpx l,
  fun l _ => .ldxZpy l,
  fun l _ => .laxZpy l,
  fun _ _ => .clv,
  fun l h => .ldaAby (w16 h l),
  fun _ _ => .tsx,
  fun l h => .lasAby (w16 h l),
  fun l h => .ldyAbx (w16 h l),
  fun l h => .ldaAbx (w16 h l),
  fun l h => .ldxAby (w16 h l),
  fun l h => .laxAby (w16 h l)]

/-- Opcodes $C0 to $CF of the matrix (30_encoding.md R104, R105), as functions of the first and second
operand byte. -/
def opcodesC : List (Byte → Byte → Instr) := [
  fun l _ => .cpyImm l,
  fun l _ => .cmpIzx l,
  fun l _ => .nopImmC2 l,
  fun l _ => .dcpIzx l,
  fun l _ => .cpyZp l,
  fun l _ => .cmpZp l,
  fun l _ => .decZp l,
  fun l _ => .dcpZp l,
  fun _ _ => .iny,
  fun l _ => .cmpImm l,
  fun _ _ => .dex,
  fun l _ => .sbxImm l,
  fun l h => .cpyAbs (w16 h l),
  fun l h => .cmpAbs (w16 h l),
  fun l h => .decAbs (w16 h l),
  fun l h => .dcpAbs (w16 h l)]

/-- Opcodes $D0 to $DF of the matrix (30_encoding.md R104, R105), as functions of the first and second
operand byte. -/
def opcodesD : List (Byte → Byte → Instr) := [
  fun l _ => .bneRel l,
  fun l _ => .cmpIzy l,
  fun _ _ => .jamD2,
  fun l _ => .dcpIzy l,
  fun l _ => .nopZpxD4 l,
  fun l _ => .cmpZpx l,
  fun l _ => .decZpx l,
  fun l _ => .dcpZpx l,
  fun _ _ => .cld,
  fun l h => .cmpAby (w16 h l),
  fun _ _ => .nopDA,
  fun l h => .dcpAby (w16 h l),
  fun l h => .nopAbxDC (w16 h l),
  fun l h => .cmpAbx (w16 h l),
  fun l h => .decAbx (w16 h l),
  fun l h => .dcpAbx (w16 h l)]

/-- Opcodes $E0 to $EF of the matrix (30_encoding.md R104, R105), as functions of the first and second
operand byte. -/
def opcodesE : List (Byte → Byte → Instr) := [
  fun l _ => .cpxImm l,
  fun l _ => .sbcIzx l,
  fun l _ => .nopImmE2 l,
  fun l _ => .isbIzx l,
  fun l _ => .cpxZp l,
  fun l _ => .sbcZp l,
  fun l _ => .incZp l,
  fun l _ => .isbZp l,
  fun _ _ => .inx,
  fun l _ => .sbcImm l,
  fun _ _ => .nop,
  fun l _ => .sbcImmEB l,
  fun l h => .cpxAbs (w16 h l),
  fun l h => .sbcAbs (w16 h l),
  fun l h => .incAbs (w16 h l),
  fun l h => .isbAbs (w16 h l)]

/-- Opcodes $F0 to $FF of the matrix (30_encoding.md R104, R105), as functions of the first and second
operand byte. -/
def opcodesF : List (Byte → Byte → Instr) := [
  fun l _ => .beqRel l,
  fun l _ => .sbcIzy l,
  fun _ _ => .jamF2,
  fun l _ => .isbIzy l,
  fun l _ => .nopZpxF4 l,
  fun l _ => .sbcZpx l,
  fun l _ => .incZpx l,
  fun l _ => .isbZpx l,
  fun _ _ => .sed,
  fun l h => .sbcAby (w16 h l),
  fun _ _ => .nopFA,
  fun l h => .isbAby (w16 h l),
  fun l h => .nopAbxFC (w16 h l),
  fun l h => .sbcAbx (w16 h l),
  fun l h => .incAbx (w16 h l),
  fun l h => .isbAbx (w16 h l)]

/-- The opcode map, by high nybble and then by low nybble (30_encoding.md R104, R107). -/
def opcodeMap : List (List (Byte → Byte → Instr)) := [
  opcodes0, opcodes1, opcodes2, opcodes3,
  opcodes4, opcodes5, opcodes6, opcodes7,
  opcodes8, opcodes9, opcodesA, opcodesB,
  opcodesC, opcodesD, opcodesE, opcodesF]

/-- The instruction that an opcode byte and its (up to two) operand bytes stand for. Total on all opcodes
(30_encoding.md R100); operand bytes beyond the instruction's length have no influence. -/
def decodeOpcode (op first second : Byte) : Instr :=
  ((opcodeMap.getD (op.toNat / 16) []).getD (op.toNat % 16) fun _ _ => .nop) first second

/-- The bytes of an instruction, the first at the lowest address (30_encoding.md R100, R101). -/
def encode : Instr → List Byte
  | .brk => [0x00]
  | .oraIzx ptr => [0x01, ptr]
  | .jam02 => [0x02]
  | .sloIzx ptr => [0x03, ptr]
  | .nopZp04 d => [0x04, d]
  | .oraZp d => [0x05, d]
  | .aslZp d => [0x06, d]
  | .sloZp d => [0x07, d]
  | .php => [0x08]
  | .oraImm v => [0x09, v]
  | .aslAcc => [0x0A]
  | .ancImm0B v => [0x0B, v]
  | .nopAbs a => [0x0C, lo a, hi a]
  | .oraAbs a => [0x0D, lo a, hi a]
  | .aslAbs a => [0x0E, lo a, hi a]
  | .sloAbs a => [0x0F, lo a, hi a]
  | .bplRel off => [0x10, off]
  | .oraIzy ptr => [0x11, ptr]
  | .jam12 => [0x12]
  | .sloIzy ptr => [0x13, ptr]
  | .nopZpx14 d => [0x14, d]
  | .oraZpx d => [0x15, d]
  | .aslZpx d => [0x16, d]
  | .sloZpx d => [0x17, d]
  | .clc => [0x18]
  | .oraAby a => [0x19, lo a, hi a]
  | .nop1A => [0x1A]
  | .sloAby a => [0x1B, lo a, hi a]
  | .nopAbx1C a => [0x1C, lo a, hi a]
  | .oraAbx a => [0x1D, lo a, hi a]
  | .aslAbx a => [0x1E, lo a, hi a]
  | .sloAbx a => [0x1F, lo a, hi a]
  | .jsrAbs a => [0x20, lo a, hi a]
  | .andIzx ptr => [0x21, ptr]
  | .jam22 => [0x22]
  | .rlaIzx ptr => [0x23, ptr]
  | .bitZp d => [0x24, d]
  | .andZp d => [0x25, d]
  | .rolZp d => [0x26, d]
  | .rlaZp d => [0x27, d]
  | .plp => [0x28]
  | .andImm v => [0x29, v]
  | .rolAcc => [0x2A]
  | .ancImm2B v => [0x2B, v]
  | .bitAbs a => [0x2C, lo a, hi a]
  | .andAbs a => [0x2D, lo a, hi a]
  | .rolAbs a => [0x2E, lo a, hi a]
  | .rlaAbs a => [0x2F, lo a, hi a]
  | .bmiRel off => [0x30, off]
  | .andIzy ptr => [0x31, ptr]
  | .jam32 => [0x32]
  | .rlaIzy ptr => [0x33, ptr]
  | .nopZpx34 d => [0x34, d]
  | .andZpx d => [0x35, d]
  | .rolZpx d => [0x36, d]
  | .rlaZpx d => [0x37, d]
  | .sec => [0x38]
  | .andAby a => [0x39, lo a, hi a]
  | .nop3A => [0x3A]
  | .rlaAby a => [0x3B, lo a, hi a]
  | .nopAbx3C a => [0x3C, lo a, hi a]
  | .andAbx a => [0x3D, lo a, hi a]
  | .rolAbx a => [0x3E, lo a, hi a]
  | .rlaAbx a => [0x3F, lo a, hi a]
  | .rti => [0x40]
  | .eorIzx ptr => [0x41, ptr]
  | .jam42 => [0x42]
  | .sreIzx ptr => [0x43, ptr]
  | .nopZp44 d => [0x44, d]
  | .eorZp d => [0x45, d]
  | .lsrZp d => [0x46, d]
  | .sreZp d => [0x47, d]
  | .pha => [0x48]
  | .eorImm v => [0x49, v]
  | .lsrAcc => [0x4A]
  | .asrImm v => [0x4B, v]
  | .jmpAbs a => [0x4C, lo a, hi a]
  | .eorAbs a => [0x4D, lo a, hi a]
  | .lsrAbs a => [0x4E, lo a, hi a]
  | .sreAbs a => [0x4F, lo a, hi a]
  | .bvcRel off => [0x50, off]
  | .eorIzy ptr => [0x51, ptr]
  | .jam52 => [0x52]
  | .sreIzy ptr => [0x53, ptr]
  | .nopZpx54 d => [0x54, d]
  | .eorZpx d => [0x55, d]
  | .lsrZpx d => [0x56, d]
  | .sreZpx d => [0x57, d]
  | .cli => [0x58]
  | .eorAby a => [0x59, lo a, hi a]
  | .nop5A => [0x5A]
  | .sreAby a => [0x5B, lo a, hi a]
  | .nopAbx5C a => [0x5C, lo a, hi a]
  | .eorAbx a => [0x5D, lo a, hi a]
  | .lsrAbx a => [0x5E, lo a, hi a]
  | .sreAbx a => [0x5F, lo a, hi a]
  | .rts => [0x60]
  | .adcIzx ptr => [0x61, ptr]
  | .jam62 => [0x62]
  | .rraIzx ptr => [0x63, ptr]
  | .nopZp64 d => [0x64, d]
  | .adcZp d => [0x65, d]
  | .rorZp d => [0x66, d]
  | .rraZp d => [0x67, d]
  | .pla => [0x68]
  | .adcImm v => [0x69, v]
  | .rorAcc => [0x6A]
  | .arrImm v => [0x6B, v]
  | .jmpInd a => [0x6C, lo a, hi a]
  | .adcAbs a => [0x6D, lo a, hi a]
  | .rorAbs a => [0x6E, lo a, hi a]
  | .rraAbs a => [0x6F, lo a, hi a]
  | .bvsRel off => [0x70, off]
  | .adcIzy ptr => [0x71, ptr]
  | .jam72 => [0x72]
  | .rraIzy ptr => [0x73, ptr]
  | .nopZpx74 d => [0x74, d]
  | .adcZpx d => [0x75, d]
  | .rorZpx d => [0x76, d]
  | .rraZpx d => [0x77, d]
  | .sei => [0x78]
  | .adcAby a => [0x79, lo a, hi a]
  | .nop7A => [0x7A]
  | .rraAby a => [0x7B, lo a, hi a]
  | .nopAbx7C a => [0x7C, lo a, hi a]
  | .adcAbx a => [0x7D, lo a, hi a]
  | .rorAbx a => [0x7E, lo a, hi a]
  | .rraAbx a => [0x7F, lo a, hi a]
  | .nopImm80 v => [0x80, v]
  | .staIzx ptr => [0x81, ptr]
  | .nopImm82 v => [0x82, v]
  | .saxIzx ptr => [0x83, ptr]
  | .styZp d => [0x84, d]
  | .staZp d => [0x85, d]
  | .stxZp d => [0x86, d]
  | .saxZp d => [0x87, d]
  | .dey => [0x88]
  | .nopImm89 v => [0x89, v]
  | .txa => [0x8A]
  | .aneImm v => [0x8B, v]
  | .styAbs a => [0x8C, lo a, hi a]
  | .staAbs a => [0x8D, lo a, hi a]
  | .stxAbs a => [0x8E, lo a, hi a]
  | .saxAbs a => [0x8F, lo a, hi a]
  | .bccRel off => [0x90, off]
  | .staIzy ptr => [0x91, ptr]
  | .jam92 => [0x92]
  | .shaIzy ptr => [0x93, ptr]
  | .styZpx d => [0x94, d]
  | .staZpx d => [0x95, d]
  | .stxZpy d => [0x96, d]
  | .saxZpy d => [0x97, d]
  | .tya => [0x98]
  | .staAby a => [0x99, lo a, hi a]
  | .txs => [0x9A]
  | .shsAby a => [0x9B, lo a, hi a]
  | .shyAbx a => [0x9C, lo a, hi a]
  | .staAbx a => [0x9D, lo a, hi a]
  | .shxAby a => [0x9E, lo a, hi a]
  | .shaAby a => [0x9F, lo a, hi a]
  | .ldyImm v => [0xA0, v]
  | .ldaIzx ptr => [0xA1, ptr]
  | .ldxImm v => [0xA2, v]
  | .laxIzx ptr => [0xA3, ptr]
  | .ldyZp d => [0xA4, d]
  | .ldaZp d => [0xA5, d]
  | .ldxZp d => [0xA6, d]
  | .laxZp d => [0xA7, d]
  | .tay => [0xA8]
  | .ldaImm v => [0xA9, v]
  | .tax => [0xAA]
  | .lxaImm v => [0xAB, v]
  | .ldyAbs a => [0xAC, lo a, hi a]
  | .ldaAbs a => [0xAD, lo a, hi a]
  | .ldxAbs a => [0xAE, lo a, hi a]
  | .laxAbs a => [0xAF, lo a, hi a]
  | .bcsRel off => [0xB0, off]
  | .ldaIzy ptr => [0xB1, ptr]
  | .jamB2 => [0xB2]
  | .laxIzy ptr => [0xB3, ptr]
  | .ldyZpx d => [0xB4, d]
  | .ldaZpx d => [0xB5, d]
  | .ldxZpy d => [0xB6, d]
  | .laxZpy d => [0xB7, d]
  | .clv => [0xB8]
  | .ldaAby a => [0xB9, lo a, hi a]
  | .tsx => [0xBA]
  | .lasAby a => [0xBB, lo a, hi a]
  | .ldyAbx a => [0xBC, lo a, hi a]
  | .ldaAbx a => [0xBD, lo a, hi a]
  | .ldxAby a => [0xBE, lo a, hi a]
  | .laxAby a => [0xBF, lo a, hi a]
  | .cpyImm v => [0xC0, v]
  | .cmpIzx ptr => [0xC1, ptr]
  | .nopImmC2 v => [0xC2, v]
  | .dcpIzx ptr => [0xC3, ptr]
  | .cpyZp d => [0xC4, d]
  | .cmpZp d => [0xC5, d]
  | .decZp d => [0xC6, d]
  | .dcpZp d => [0xC7, d]
  | .iny => [0xC8]
  | .cmpImm v => [0xC9, v]
  | .dex => [0xCA]
  | .sbxImm v => [0xCB, v]
  | .cpyAbs a => [0xCC, lo a, hi a]
  | .cmpAbs a => [0xCD, lo a, hi a]
  | .decAbs a => [0xCE, lo a, hi a]
  | .dcpAbs a => [0xCF, lo a, hi a]
  | .bneRel off => [0xD0, off]
  | .cmpIzy ptr => [0xD1, ptr]
  | .jamD2 => [0xD2]
  | .dcpIzy ptr => [0xD3, ptr]
  | .nopZpxD4 d => [0xD4, d]
  | .cmpZpx d => [0xD5, d]
  | .decZpx d => [0xD6, d]
  | .dcpZpx d => [0xD7, d]
  | .cld => [0xD8]
  | .cmpAby a => [0xD9, lo a, hi a]
  | .nopDA => [0xDA]
  | .dcpAby a => [0xDB, lo a, hi a]
  | .nopAbxDC a => [0xDC, lo a, hi a]
  | .cmpAbx a => [0xDD, lo a, hi a]
  | .decAbx a => [0xDE, lo a, hi a]
  | .dcpAbx a => [0xDF, lo a, hi a]
  | .cpxImm v => [0xE0, v]
  | .sbcIzx ptr => [0xE1, ptr]
  | .nopImmE2 v => [0xE2, v]
  | .isbIzx ptr => [0xE3, ptr]
  | .cpxZp d => [0xE4, d]
  | .sbcZp d => [0xE5, d]
  | .incZp d => [0xE6, d]
  | .isbZp d => [0xE7, d]
  | .inx => [0xE8]
  | .sbcImm v => [0xE9, v]
  | .nop => [0xEA]
  | .sbcImmEB v => [0xEB, v]
  | .cpxAbs a => [0xEC, lo a, hi a]
  | .sbcAbs a => [0xED, lo a, hi a]
  | .incAbs a => [0xEE, lo a, hi a]
  | .isbAbs a => [0xEF, lo a, hi a]
  | .beqRel off => [0xF0, off]
  | .sbcIzy ptr => [0xF1, ptr]
  | .jamF2 => [0xF2]
  | .isbIzy ptr => [0xF3, ptr]
  | .nopZpxF4 d => [0xF4, d]
  | .sbcZpx d => [0xF5, d]
  | .incZpx d => [0xF6, d]
  | .isbZpx d => [0xF7, d]
  | .sed => [0xF8]
  | .sbcAby a => [0xF9, lo a, hi a]
  | .nopFA => [0xFA]
  | .isbAby a => [0xFB, lo a, hi a]
  | .nopAbxFC a => [0xFC, lo a, hi a]
  | .sbcAbx a => [0xFD, lo a, hi a]
  | .incAbx a => [0xFE, lo a, hi a]
  | .isbAbx a => [0xFF, lo a, hi a]

/-- How many bytes follow the opcode byte (30_encoding.md R100, R106). -/
def operandBytes (op : Byte) : Nat := (encode (decodeOpcode op 0 0)).length - 1

/-- Why a list of bytes is no instruction. No opcode is refused (30_encoding.md R111). -/
inductive DecodeError where
  /-- there is no opcode byte -/
  | noOpcode
  /-- the list ends before the operand bytes that the opcode asks for -/
  | missingOperand (op : Byte)
deriving DecidableEq, Repr

/-- Reads one instruction from the front of a byte list: the instruction and the bytes after it. -/
def decode : List Byte → Except DecodeError (Instr × List Byte)
  | [] => .error .noOpcode
  | op :: rest =>
    match operandBytes op, rest with
    | 0, rest => .ok (decodeOpcode op 0 0, rest)
    | 1, first :: rest => .ok (decodeOpcode op first 0, rest)
    | 2, first :: second :: rest => .ok (decodeOpcode op first second, rest)
    | _, _ => .error (.missingOperand op)

/-- The three bytes of an instruction word numbered as spec/opcode_table.json numbers bits: bit 0 is the least
significant bit of the first byte; bits from `nbits` up are 0. -/
def wordBytes (nbits w : Nat) : List Byte :=
  let v := w % 2 ^ nbits
  [BitVec.ofNat 8 v, BitVec.ofNat 8 (v / 256), BitVec.ofNat 8 (v / 65536)]

/-- The instruction the decoder reads from an instruction whose bits are `w` (the host's query). -/
def decodeTableWord (nbits w : Nat) : Option Instr :=
  match decode (wordBytes nbits w) with
  | .ok (i, _) => some i
  | .error _ => none

end Sys2Proof
end

