-- ==== Sys2Proof/Config.lean ====
section
/-! DEFINITION. What is fixed for one machine (the parameters of 00_scope.md R8) and the free values: what the
spec leaves unspecified is drawn through constants that have no body, so that no proof can know them
(93_implementation_defined.md U10). -/

namespace Sys2Proof

/-- The n-th free byte. Every `Draw` of the spec and every read that nothing drives takes the next one
(93_implementation_defined.md U7, U9, U10; log 7). -/
opaque Config.freeByte : Nat → BitVec 8

/-- The byte at an address of a ROM chip whose contents are not given: an unknown constant of the board
(00_scope.md R6 (d); log 8). The first argument numbers the chip. -/
opaque Config.romByte : Nat → Nat → BitVec 8

/-- VARIANT: which part (00_scope.md R2, R8). -/
inductive Variant where
  | mos6502 | mos6510 | mos8502
deriving DecidableEq, Repr

/-- Platform: what answers a bus access (00_scope.md R8; decision D4). -/
inductive Platform where
  /-- 64 KiB of RAM -/
  | flat
  /-- the Commodore 64 map of 20_memory.md R80 to R83 -/
  | c64
deriving DecidableEq, Repr

/-- ARR_FLAGS: how opcode $6B sets C and V in binary mode (47_undocumented_unusual.md R413; decision D17). -/
inductive ArrFlags where
  | plainRor | adder
deriving DecidableEq, Repr

/-- The known bytes of the Commodore 64's ROM chips, as (address, byte) pairs at the addresses where the
processor sees them (20_memory.md R81). A byte not listed is `Config.romByte`. The two external chips may be absent:
`none` is a line with nothing connected to it, whose area reads as open space (70_reset_and_hazards.md R553 (b)). -/
structure Roms where
  basic : List Host.Cell
  kernal : List Host.Cell
  char : List Host.Cell
  romL : Option (List Host.Cell)
  romH : Option (List Host.Cell)
deriving DecidableEq, Repr

/-- The parameters of the model (00_scope.md R8). No step changes them. -/
structure Board where
  /-- VARIANT -/
  variant : Variant
  /-- Platform -/
  platform : Platform
  /-- ARR_FLAGS -/
  arrFlags : ArrFlags
  /-- The part runs at 2 MHz, which fixes the 8502's ANE constant (47_undocumented_unusual.md R415). DESIGN CHOICE,
  unsafe (log 34): one speed for the whole run. The spec says that an 8502 can run at 2 MHz, not whether it
  can change its speed while it runs. -/
  fast : Bool
  /-- RESET_VECTOR -/
  resetVector : Addr
  /-- IRQ_VECTOR -/
  irqVector : Addr
  /-- END_PC -/
  endPc : Option Addr
  /-- the ROM bytes that are known -/
  roms : Roms
deriving DecidableEq, Repr

end Sys2Proof
end

