-- ==== Sys2Proof/Machine/Memory.lean ====
section
/-! DEFINITION. Memory as plain data: (address, byte) pairs with strictly rising addresses, none of them equal to
what an unlisted address reads as, so that equal memories are equal data (20_memory.md R60, R61, R70). -/

namespace Sys2Proof.Machine

/-- Bytes by address. -/
abbrev Memory := List Host.Cell

/-- What an address that is not listed reads as. DESIGN CHOICE, unsafe (log 5): the spec leaves RAM unspecified at
power-on (10_state.md R52). -/
def Memory.unlisted : Byte := 0

/-- The byte at an address. -/
def Memory.read : Memory → Nat → Byte
  | [], _ => Memory.unlisted
  | (b, v) :: rest, a => if a = b then v else Memory.read rest a

/-- A cell in front of a memory whose addresses are all above it, left out if it holds the unlisted value. -/
def Memory.consCell (a : Nat) (v : Byte) (m : Memory) : Memory :=
  if v = Memory.unlisted then m else (a, v) :: m

/-- Writes one byte, keeping the canonical form. -/
def Memory.write : Memory → Nat → Byte → Memory
  | [], a, v => Memory.consCell a v []
  | (b, w) :: rest, a, v =>
    if a < b then Memory.consCell a v ((b, w) :: rest)
    else if a = b then Memory.consCell a v rest
    else (b, w) :: Memory.write rest a v

/-- All addresses of a canonical memory lie above `a`: its first one does. -/
def Memory.startsAbove (a : Nat) : Memory → Bool
  | [] => true
  | (b, _) :: _ => decide (a < b)

/-- The canonical form: addresses strictly rising and inside the 64 KiB space, no unlisted value listed. -/
def Memory.wf : Memory → Bool
  | [] => true
  | (a, v) :: rest =>
    decide (a < 65536) && decide (v ≠ Memory.unlisted) && Memory.startsAbove a rest && Memory.wf rest

end Sys2Proof.Machine
end

