-- ==== Sys2Proof/Machine/State.lean ====
section
/-! DEFINITION. The state of the machine as plain data (10_state.md; the list is INVENTORY.md's), the reasons a
step can stop, and the state after reset. -/

namespace Sys2Proof.Machine

/-- The six stored flags of P. B and bit 5 are not state (10_state.md R30, R32). -/
structure Flags where
  /-- Negative, bit 7 -/
  n : Bool
  /-- oVerflow, bit 6 -/
  v : Bool
  /-- Decimal, bit 3 -/
  d : Bool
  /-- Interrupt disable, bit 2 -/
  i : Bool
  /-- Zero, bit 1 -/
  z : Bool
  /-- Carry, bit 0 -/
  c : Bool
deriving DecidableEq, Repr

/-- One bus cycle: an address, the byte transferred, and the direction (20_memory.md R62). -/
inductive BusAccess where
  | read (addr : Addr) (data : Byte)
  | write (addr : Addr) (data : Byte)
deriving DecidableEq, Repr

/-- The -RESET line as the next step finds it (60_exceptions.md R512, R530). -/
inductive ResetPin where
  /-- not pulled -/
  | inactive
  /-- held low: the processor does nothing architectural -/
  | held
  /-- let go: the reset sequence is next -/
  | released
deriving DecidableEq, Repr

/-- The external inputs (93_implementation_defined.md U14). Only the environment's operations of
Machine/Inputs.lean set them, but that a step uses up `released`, `nmiArriving` and
`resetArriving`, and that `periphNext` moves on by a level for each of its bus cycles. -/
structure Inputs where
  /-- a device asserts -IRQ (60_exceptions.md R510) -/
  irqLine : Bool
  /-- -NMI is held low (R511) -/
  nmiLine : Bool
  /-- an NMI edge falls inside the coming step: after its first bus cycle and, in a BRK, before its sixth (R525) -/
  nmiArriving : Bool
  /-- the -RESET line (R512) -/
  resetPin : ResetPin
  /-- -RESET goes low in the course of the coming step, after that many of its bus cycles (R530; log 20) -/
  resetArriving : Option Nat
  /-- PERIPH_IN as it stands: the external level of each port line (00_scope.md R8, 10_state.md R43, R45) -/
  periphIn : Byte
  /-- PERIPH_IN in the bus cycles to come, a level for each, the next one first; the last one stands from then on -/
  periphNext : List Byte
  /-- the level of -GAME (20_memory.md R80) -/
  game : Bool
  /-- the level of -EXROM (20_memory.md R80) -/
  exrom : Bool
deriving DecidableEq, Repr

/-- Everything the spec gives the machine, and the two fields of the model's own. -/
structure State where
  /-- the accumulator A (10_state.md R20) -/
  a : Byte
  /-- the index register X (R20) -/
  x : Byte
  /-- the index register Y (R20) -/
  y : Byte
  /-- the stack pointer S; the stack is page 1 (R23) -/
  sp : Byte
  /-- the program counter: between instructions the address of the next opcode (R24) -/
  pc : Addr
  /-- the six stored flags of P (R30, R32) -/
  p : Flags
  /-- DDR of the on-chip port; only the implemented lines' bits can be 1 (R41, R42) -/
  ddr : Byte
  /-- PRL, the output latch of the on-chip port, likewise (R42, R49 (e)) -/
  prl : Byte
  /-- RAM (20_memory.md R60) -/
  mem : Memory
  /-- the C64's colour RAM, nybbles at $D800 to $DBFF (20_memory.md R83) -/
  colorRam : Memory
  /-- the jammed condition (R49 (b)) -/
  jammed : Bool
  /-- an NMI edge is latched (60_exceptions.md R511) -/
  nmiPending : Bool
  /-- the external inputs (93_implementation_defined.md U14) -/
  inputs : Inputs
  /-- the parameters (00_scope.md R8); no step changes them -/
  board : Board
  /-- the model's own: how many free values have been drawn (log 7) -/
  draws : Nat
  /-- the model's own: the accesses of the last step, first one first (20_memory.md R62, R66; log 28) -/
  bus : List BusAccess
deriving DecidableEq, Repr

/-- The state with another `a`. -/
def State.setA (s : State) (val : Byte) : State := { s with a := val }

/-- The state with another `x`. -/
def State.setX (s : State) (val : Byte) : State := { s with x := val }

/-- The state with another `y`. -/
def State.setY (s : State) (val : Byte) : State := { s with y := val }

/-- The state with another `sp`. -/
def State.setSp (s : State) (val : Byte) : State := { s with sp := val }

/-- The state with another `pc`. -/
def State.setPc (s : State) (val : Addr) : State := { s with pc := val }

/-- The state with another `p`. -/
def State.setP (s : State) (val : Flags) : State := { s with p := val }

/-- The state with another `ddr`. -/
def State.setDdr (s : State) (val : Byte) : State := { s with ddr := val }

/-- The state with another `prl`. -/
def State.setPrl (s : State) (val : Byte) : State := { s with prl := val }

/-- The state with another `mem`. -/
def State.setMem (s : State) (val : Memory) : State := { s with mem := val }

/-- The state with another `colorRam`. -/
def State.setColorRam (s : State) (val : Memory) : State := { s with colorRam := val }

/-- The state with another `jammed`. -/
def State.setJammed (s : State) (val : Bool) : State := { s with jammed := val }

/-- The state with another `nmiPending`. -/
def State.setNmiPending (s : State) (val : Bool) : State := { s with nmiPending := val }

/-- The state with another `inputs`. -/
def State.setInputs (s : State) (val : Inputs) : State := { s with inputs := val }

/-- The state with another `draws`. -/
def State.setDraws (s : State) (val : Nat) : State := { s with draws := val }

/-- The state with another `bus`. -/
def State.setBus (s : State) (val : List BusAccess) : State := { s with bus := val }

/-- The reasons a step can end in a fault: none. The processor raises no synchronous exception of any kind
(60_exceptions.md R500), so this type is empty: a jam is a state (46_undocumented_stable.md R395). -/
inductive Fault where
deriving DecidableEq, Repr

/-- The reasons an instruction can be refused. -/
inductive Refusal where
  /-- Raised by `exec` for an instruction that has no meaning yet, by its mnemonic; safe. No arm raises it. -/
  | notModelled (mnemonic : String)
deriving DecidableEq, Repr

/-- What a meaning answers. -/
abbrev Result := Host.Outcome State Fault Refusal

/-- The inputs as the environment leaves them right after reset (log 10, 32; -GAME and -EXROM by their pull-ups,
20_memory.md R80). -/
def Inputs.reset : Inputs where
  irqLine := false
  nmiLine := false
  nmiArriving := false
  resetPin := .inactive
  resetArriving := none
  periphIn := 0xFF
  periphNext := []
  game := true
  exrom := true

/-- The default parameters of 00_scope.md R8 (decisions D1, D4, D17, D18; log 1). -/
def Board.standard : Board where
  variant := .mos6510
  platform := .flat
  arrFlags := .adder
  fast := false
  resetVector := 0xFFFC
  irqVector := 0xFFFE
  endPc := none
  roms := { basic := [], kernal := [], char := [], romL := none, romH := none }

/-- The machine right after reset (10_state.md R52, 60_exceptions.md R530, 70_reset_and_hazards.md R550): PC is
the word at the reset vector (of a memory with nothing listed), DDR is 0, nothing is pending, nothing is
jammed. The spec leaves the registers, PRL and RAM unspecified at power-on: their values are DESIGN CHOICES
(log 2, 3, 4, 5). -/
def State.reset : State where
  a := 0
  x := 0
  y := 0
  sp := 0xFD
  pc := 0
  p := { n := false, v := false, d := false, i := true, z := false, c := false }
  ddr := 0
  prl := 0
  mem := []
  colorRam := []
  jammed := false
  nmiPending := false
  inputs := Inputs.reset
  board := Board.standard
  draws := 0
  bus := []

end Sys2Proof.Machine
end

