-- ==== Sys2Proof/Machine/Flags.lean ====
section
/-! DEFINITION. The status byte and every flag computation: packing and unpacking P (10_state.md R31, R32), N and
Z of a value (00_scope.md R13), addition and subtraction in binary and decimal mode, comparison
(42_logic_arithmetic.md R250, R252, R254), shifts and rotates (43_shift_incdec.md R280). A function here
takes and gives a whole `Flags`, so the flags it leaves alone are visible in it. -/

namespace Sys2Proof.Machine

/-- `Pbyte(b)`: the byte pushed for P, bit 5 always 1 and bit 4 the B given (10_state.md R31). -/
def Flags.pack (b : Bool) (p : Flags) : Byte :=
  BitVec.ofNat 8 (128 * p.n.toNat + 64 * p.v.toNat + 32 + 16 * b.toNat + 8 * p.d.toNat + 4 * p.i.toNat
    + 2 * p.z.toNat + p.c.toNat)

/-- `setP(v)`: the six flags of a pulled byte; its bits 5 and 4 are ignored (10_state.md R32). -/
def Flags.unpack (v : Byte) : Flags where
  n := v.getLsbD 7
  v := v.getLsbD 6
  d := v.getLsbD 3
  i := v.getLsbD 2
  z := v.getLsbD 1
  c := v.getLsbD 0

/-- `setNZ(v)` (00_scope.md R13). -/
def Flags.withNZ (p : Flags) (v : Byte) : Flags := { p with n := v.getLsbD 7, z := v == 0 }

/-- C set to a value, the other flags as they are. -/
def Flags.withC (p : Flags) (c : Bool) : Flags := { p with c := c }

/-- `ADC(s)` with D = 0: the new A and flags (42_logic_arithmetic.md R250). -/
def adcBinary (a s : Byte) (p : Flags) : Byte × Flags :=
  let t := a.toNat + s.toNat + p.c.toNat
  let r : Byte := BitVec.ofNat 8 t
  (r, { p with
    n := r.getLsbD 7
    v := ((a ^^^ r) &&& (s ^^^ r)).getLsbD 7
    z := r == 0
    c := decide (255 < t) })

/-- `ADC(s)` with D = 1: Z is the binary sum's, N and V are taken after the low nybble's fixup and before the
high one's, C and A after both (42_logic_arithmetic.md R250). -/
def adcDecimal (a s : Byte) (p : Flags) : Byte × Flags :=
  let al0 := a.toNat % 16 + s.toNat % 16 + p.c.toNat
  let al := if 9 < al0 then al0 + 6 else al0
  let ah0 := a.toNat / 16 + s.toNat / 16 + (if 15 < al then 1 else 0)
  let mid : Byte := BitVec.ofNat 8 (ah0 * 16)
  let ah := if 9 < ah0 then ah0 + 6 else ah0
  (BitVec.ofNat 8 (ah * 16 + al % 16), { p with
    n := ah0.testBit 3
    v := (mid ^^^ a).getLsbD 7 && !(a ^^^ s).getLsbD 7
    z := BitVec.ofNat 8 (a.toNat + s.toNat + p.c.toNat) == (0 : Byte)
    c := decide (15 < ah) })

/-- `ADC(s)` (42_logic_arithmetic.md R250). -/
def adc (a s : Byte) (p : Flags) : Byte × Flags :=
  if p.d then adcDecimal a s p else adcBinary a s p

/-- The integer `A - s - (1 - C)` of `SBC(s)` (42_logic_arithmetic.md R252). -/
def sbcDifference (a s : Byte) (c : Bool) : Int :=
  (a.toNat : Int) - s.toNat - (1 - c.toNat)

/-- The flags of `SBC(s)`, the same in both modes (42_logic_arithmetic.md R252). -/
def sbcFlags (a s : Byte) (p : Flags) : Flags :=
  let t := sbcDifference a s p.c
  let r : Byte := BitVec.ofInt 8 t
  { p with
    n := r.getLsbD 7
    v := ((a ^^^ s) &&& (a ^^^ r)).getLsbD 7
    z := r == 0
    c := decide (0 ≤ t) }

/-- The new A of `SBC(s)` with D = 1 (42_logic_arithmetic.md R252). -/
def sbcDecimalValue (a s : Byte) (c : Bool) : Byte :=
  let al0 : Int := ((a.toNat % 16 : Nat) : Int) - (s.toNat % 16 : Nat) - (1 - c.toNat)
  let al := if al0 < 0 then al0 - 6 else al0
  let ah0 : Int := ((a.toNat / 16 : Nat) : Int) - (s.toNat / 16 : Nat) - (if al < 0 then 1 else 0)
  let ah := if ah0 < 0 then ah0 - 6 else ah0
  BitVec.ofInt 8 (ah * 16) ||| (BitVec.ofInt 8 al &&& 0x0F)

/-- `SBC(s)` (42_logic_arithmetic.md R252). -/
def sbc (a s : Byte) (p : Flags) : Byte × Flags :=
  (if p.d then sbcDecimalValue a s p.c else BitVec.ofInt 8 (sbcDifference a s p.c), sbcFlags a s p)

/-- `Compare(r, s)`: the difference and the flags; V, D and the incoming C have no part in it
(42_logic_arithmetic.md R254). -/
def compare (r s : Byte) (p : Flags) : Byte × Flags :=
  let t := r - s
  (t, { p with n := t.getLsbD 7, z := t == 0, c := decide (s.toNat ≤ r.toNat) })

/-- The flags of BIT: Z from A AND v, N and V from bits 7 and 6 of v (42_logic_arithmetic.md R243). -/
def bitFlags (a v : Byte) (p : Flags) : Flags :=
  { p with n := v.getLsbD 7, v := v.getLsbD 6, z := (a &&& v) == 0 }

/-- `asl(m)` and its carry out (43_shift_incdec.md R280). The carry in has no part in it. -/
def asl (m : Byte) (_ : Bool) : Byte × Bool := (m <<< 1, m.getLsbD 7)

/-- `lsr(m)` and its carry out (43_shift_incdec.md R280). The carry in has no part in it. -/
def lsr (m : Byte) (_ : Bool) : Byte × Bool := (m >>> 1, m.getLsbD 0)

/-- `rol(m, c)` and its carry out (43_shift_incdec.md R280). -/
def rol (m : Byte) (c : Bool) : Byte × Bool := (m <<< 1 ||| BitVec.ofNat 8 c.toNat, m.getLsbD 7)

/-- `ror(m, c)` and its carry out (43_shift_incdec.md R280). -/
def ror (m : Byte) (c : Bool) : Byte × Bool := (m >>> 1 ||| BitVec.ofNat 8 (128 * c.toNat), m.getLsbD 0)

end Sys2Proof.Machine
end

