-- ==== Sys2Proof/Machine/Platform.lean ====
section
/-! DEFINITION. What answers a bus access: the on-chip port of the 6510 and 8502 (10_state.md R40 to R47) and the
platform around the processor, flat RAM or the Commodore 64 map (20_memory.md R80 to R83; decision D4). -/

namespace Sys2Proof.Machine

/-- `Draw`: the next free byte (93_implementation_defined.md U10; log 7). -/
def State.draw (s : State) : Byte × State := (Config.freeByte s.draws, s.setDraws (s.draws + 1))

/-- A byte whose bits under `mask` nothing determines and whose other bits are those of `known`
(93_implementation_defined.md U7). -/
def State.withFreeBits (s : State) (known mask : Byte) : Byte × State :=
  if mask = 0 then (known, s)
  else ((known &&& ~~~mask) ||| (s.draw.1 &&& mask), s.draw.2)

/-- The port lines a part has, as a mask: PORT_BITS of 00_scope.md R8. -/
def portMask : Variant → Byte
  | .mos6502 => 0x00
  | .mos6510 => 0x3F
  | .mos8502 => 0xFF

/-- The part has an on-chip port (10_state.md R40; decision D2). -/
def State.hasPort (s : State) : Bool := portMask s.board.variant != 0

/-- The level some bus cycles from now: the cycles' levels come one after the other, the last one stands. -/
def levelAfter (now : Byte) : List Byte → Nat → Byte
  | [], _ => now
  | _ :: _, 0 => now
  | v :: rest, n + 1 => levelAfter v rest n

/-- PERIPH_IN in the given bus cycle of the coming step, its first cycle numbered 0 (00_scope.md R8). -/
def Inputs.periphAt (p : Inputs) (cycle : Nat) : Byte := levelAfter p.periphIn p.periphNext cycle

/-- The inputs after that many bus cycles: PERIPH_IN has moved on, the lines stand. -/
def Inputs.elapse (p : Inputs) (cycles : Nat) : Inputs :=
  { p with periphIn := p.periphAt cycles, periphNext := p.periphNext.drop cycles }

/-- The levels the outside gives the port lines in a bus cycle of the step: PERIPH_IN, which on the Commodore 64 is 1
on P0, P1, P2 and the cassette sense switch on P4 (10_state.md R43, R45). Its other bits there are covered by
`floatingLines`. -/
def State.lineInputs (s : State) (cycle : Nat) : Byte :=
  match s.board.platform with
  | .flat => s.inputs.periphAt cycle
  | .c64 => 0x07 ||| (s.inputs.periphAt cycle &&& 0x10)

/-- The level of each port line in a bus cycle of the step: PRL where it is an output, the outside's level where it is
an input (10_state.md R42). -/
def State.lineLevels (s : State) (cycle : Nat) : Byte :=
  (s.prl &&& s.ddr) ||| (s.lineInputs cycle &&& ~~~s.ddr)

/-- The level of LORAM, HIRAM or CHAREN, lines P0, P1 and P2 on the Commodore 64: PRL where the line is an output, 1
by its pull-up where it is an input, whatever the outside (10_state.md R44, R45). -/
def State.bankLine (s : State) (k : Nat) : Bool := !s.ddr.getLsbD k || s.prl.getLsbD k

/-- The lines whose level as inputs nothing determines: on the Commodore 64 P3 and P5 (decision D9), and the
8502's P6 and P7, of which the spec says nothing there (log 10). -/
def State.floatingLines (s : State) : Byte :=
  match s.board.platform with
  | .flat => 0x00
  | .c64 => 0xE8 &&& ~~~s.ddr

/-- The owners of the I/O area but for the colour RAM (20_memory.md R83). -/
inductive Device where
  /-- the VIC-II, 6567 or 6569 -/
  | vic
  /-- the SID, 6581 -/
  | sid
  /-- CIA 1, 6526 -/
  | cia1
  /-- CIA 2, 6526 -/
  | cia2
  /-- user expansion 1, -I/O1 of the expansion port -/
  | expansion1
  /-- user expansion 2, -I/O2 of the expansion port -/
  | expansion2
deriving DecidableEq, Repr

/-- How many addresses a device's window takes before its registers appear again: $40 of the VIC-II, $20 of the SID, 16
of a CIA. The two expansion windows are not mirrored (20_memory.md R83). -/
def Device.window : Device → Nat
  | .vic => 0x40
  | .sid => 0x20
  | .cia1 | .cia2 => 0x10
  | .expansion1 | .expansion2 => 0x100

/-- What answers at an address. -/
inductive Target where
  /-- DDR of the on-chip port -/
  | ddr
  /-- PR of the on-chip port -/
  | pr
  | ram
  | basicRom
  | kernalRom
  | charRom
  | romL
  | romH
  | colorRam
  /-- a register of a device, counted from the start of its window (20_memory.md R83) -/
  | device (owner : Device) (register : Nat)
  /-- open address space -/
  | openSpace
deriving DecidableEq, Repr

/-- The columns of the configuration table 20_memory.md R80, each named by its title: the states of LORAM, HIRAM,
-GAME and -EXROM. Column `c001x` is also that of the title `00x0` (90_conflicts.md C18). -/
inductive Column where
  | c1111 | c101x | c1000 | c011x | c001x | c1110 | c0100 | c1100 | cxx01
deriving DecidableEq, Repr

/-- The column of a configuration (20_memory.md R80). -/
def column (loram hiram game exrom : Bool) : Column :=
  match loram, hiram, game, exrom with
  | true, true, true, true => .c1111
  | true, false, true, _ => .c101x
  | true, false, false, false => .c1000
  | false, true, true, _ => .c011x
  | false, false, true, _ => .c001x
  | false, false, false, false => .c001x
  | true, true, true, false => .c1110
  | false, true, false, false => .c0100
  | true, true, false, false => .c1100
  | _, _, false, true => .cxx01

/-- The cells of the table, by their legend (20_memory.md R81). -/
inductive Area where
  | ram | kernal | basic | romL | romH
  /-- "IO/C": I/O if CHAREN is 1, else the character ROM -/
  | ioOrChar
  /-- "IO/RAM": I/O if CHAREN is 1, else RAM (90_conflicts.md C19) -/
  | ioOrRam
  /-- "I/O", whatever CHAREN -/
  | io
  /-- "-" -/
  | openSpace
deriving DecidableEq, Repr

/-- Rows $1000-$3FFF and $4000-$7FFF of the table of 20_memory.md R80. -/
def Column.at1000 : Column → Area
  | .cxx01 => .openSpace
  | _ => .ram

/-- Row $8000-$9FFF. -/
def Column.at8000 : Column → Area
  | .c1110 | .c1100 | .cxx01 => .romL
  | _ => .ram

/-- Row $A000-$BFFF. -/
def Column.atA000 : Column → Area
  | .c1111 | .c1110 => .basic
  | .c0100 | .c1100 => .romH
  | .cxx01 => .openSpace
  | _ => .ram

/-- Row $C000-$CFFF. -/
def Column.atC000 : Column → Area
  | .cxx01 => .openSpace
  | _ => .ram

/-- Row $D000-$DFFF. -/
def Column.atD000 : Column → Area
  | .c001x => .ram
  | .c1000 => .ioOrRam
  | .cxx01 => .io
  | _ => .ioOrChar

/-- Row $E000-$FFFF. -/
def Column.atE000 : Column → Area
  | .c101x | .c1000 | .c001x => .ram
  | .cxx01 => .romH
  | _ => .kernal

/-- The table of 20_memory.md R80, row by row from the bottom; row $0000-$0FFF is RAM in every column. -/
def Column.area (col : Column) (a : Nat) : Area :=
  if a < 0x1000 then .ram
  else if a < 0x8000 then col.at1000
  else if a < 0xA000 then col.at8000
  else if a < 0xC000 then col.atA000
  else if a < 0xD000 then col.atC000
  else if a < 0xE000 then col.atD000
  else col.atE000

/-- The register of a device that an address of its range reaches: the copies of a window are one register, and every
range starts at a multiple of the window (20_memory.md R83). -/
def Device.at (d : Device) (a : Nat) : Target := .device d (a % d.window)

/-- The owner of an address of the I/O area $D000-$DFFF (20_memory.md R83). -/
def ioTarget (a : Nat) : Target :=
  if a < 0xD400 then Device.vic.at a
  else if a < 0xD800 then Device.sid.at a
  else if a < 0xDC00 then .colorRam
  else if a < 0xDD00 then Device.cia1.at a
  else if a < 0xDE00 then Device.cia2.at a
  else if a < 0xDF00 then Device.expansion1.at a
  else Device.expansion2.at a

/-- What answers in a cell of the table (20_memory.md R81). -/
def Area.target (area : Area) (charen : Bool) (a : Nat) : Target :=
  match area with
  | .ram => .ram
  | .kernal => .kernalRom
  | .basic => .basicRom
  | .romL => .romL
  | .romH => .romH
  | .ioOrChar => if charen then ioTarget a else .charRom
  | .ioOrRam => if charen then ioTarget a else .ram
  | .io => ioTarget a
  | .openSpace => .openSpace

/-- The Commodore 64's configuration at this moment: P0, P1 of the port and the two cartridge lines
(20_memory.md R80, 10_state.md R44). -/
def State.column (s : State) : Column :=
  Machine.column (s.bankLine 0) (s.bankLine 1) s.inputs.game s.inputs.exrom

/-- What answers at an address now. The port comes first: $0000 and $0001 never reach the external bus on a part
that has one (20_memory.md R61; decision D10). -/
def State.target (s : State) (a : Addr) : Target :=
  if s.hasPort ∧ a = 0 then .ddr
  else if s.hasPort ∧ a = 1 then .pr
  else
    match s.board.platform with
    | .flat => .ram
    | .c64 => (s.column.area a.toNat).target (s.bankLine 2) a.toNat

/-- A byte of a ROM chip: the known one, else the board's unknown constant (log 8). -/
def romRead (chip : Nat) : List Host.Cell → Nat → Byte
  | [], a => Config.romByte chip a
  | (b, v) :: rest, a => if a = b then v else romRead chip rest a

/-- What the area of an external ROM reads as: the chip's byte, or, with no chip there, the free value of open space
(20_memory.md R81, 70_reset_and_hazards.md R553 (b); log 8). -/
def State.externalRom (s : State) (chip : Nat) (cells : Option (List Host.Cell)) (a : Nat) : Byte × State :=
  match cells with
  | some known => (romRead chip known a, s)
  | none => s.draw

/-- The byte an address answers a read with in a given bus cycle of the step, and the state after any free value has
been drawn: the port as 10_state.md R43 says, RAM and ROM their byte, colour RAM its nybble under four free bits,
and nothing known from a device or from open space (93_implementation_defined.md U7). -/
def State.answerAt (s : State) (cycle : Nat) (a : Addr) : Byte × State :=
  match s.target a with
  | .ddr => s.withFreeBits s.ddr (~~~(portMask s.board.variant))
  | .pr => s.withFreeBits (s.lineLevels cycle) (~~~(portMask s.board.variant) ||| s.floatingLines)
  | .ram => (s.mem.read a.toNat, s)
  | .basicRom => (romRead 0 s.board.roms.basic a.toNat, s)
  | .kernalRom => (romRead 1 s.board.roms.kernal a.toNat, s)
  | .charRom => (romRead 2 s.board.roms.char a.toNat, s)
  | .romL => s.externalRom 3 s.board.roms.romL a.toNat
  | .romH => s.externalRom 4 s.board.roms.romH a.toNat
  | .colorRam => s.withFreeBits (s.colorRam.read a.toNat) 0xF0
  | .device _ _ => s.draw
  | .openSpace => s.draw

/-- What an address answers in the bus cycle that is next: the step's accesses so far are on the bus list. -/
def State.answer (s : State) (a : Addr) : Byte × State := s.answerAt s.bus.length a

/-- What a write does to the state: the port registers take their implemented bits (10_state.md R42), RAM the
byte, colour RAM the low nybble, and the RAM beneath a ROM the byte but for the Ultimax configuration
(20_memory.md R82). A device or external memory takes the byte outside the machine (decision D8). -/
def State.accept (s : State) (a : Addr) (v : Byte) : State :=
  match s.target a with
  | .ddr => s.setDdr (v &&& portMask s.board.variant)
  | .pr => s.setPrl (v &&& portMask s.board.variant)
  | .ram => s.setMem (s.mem.write a.toNat v)
  | .basicRom | .kernalRom | .charRom | .romL | .romH =>
    if s.column = .cxx01 then s else s.setMem (s.mem.write a.toNat v)
  | .colorRam => s.setColorRam (s.colorRam.write a.toNat (v &&& 0x0F))
  | .device _ _ => s
  | .openSpace => s

end Sys2Proof.Machine
end

