-- ==== Sys2Proof/Machine/Ops.lean ====
section
/-! DEFINITION. The named operations every meaning is written with: bus cycles (00_scope.md R12), fetch, push and
pull (R13), taking an interrupt and BRK through a vector as one shared operation (60_exceptions.md R522, R523,
45_stack_flags_system.md R355), the return from one (R350), the reset sequence (60_exceptions.md R530), and
the jam (46_undocumented_stable.md R395). -/

namespace Sys2Proof.Machine

/-- One bus cycle recorded at the end of the step's list. -/
def State.log (s : State) (c : BusAccess) : State := s.setBus (s.bus ++ [c])

/-- `MemRead(a, 1)`: one read cycle (00_scope.md R12). -/
def State.read (s : State) (a : Addr) : Byte × State :=
  let r := s.answer a
  (r.1, r.2.log (.read a r.1))

/-- `_ <- MemRead(a, 1)`: a dummy read (00_scope.md R12). -/
def State.touch (s : State) (a : Addr) : State := (s.read a).2

/-- `MemWrite(a, 1, v)`: one write cycle (00_scope.md R12). -/
def State.write (s : State) (a : Addr) (v : Byte) : State := (s.accept a v).log (.write a v)

/-- `Fetch()` (00_scope.md R13). -/
def State.fetchByte (s : State) : Byte × State :=
  let r := s.read s.pc
  (r.1, r.2.setPc (s.pc + 1))

/-- The stack address `$0100 + S` (10_state.md R23). -/
def State.stackAddr (s : State) : Addr := w16 0x01 s.sp

/-- `Push(v)` (00_scope.md R13). -/
def State.push (s : State) (v : Byte) : State := (s.write s.stackAddr v).setSp (s.sp - 1)

/-- `Pull()` (00_scope.md R13). -/
def State.pull (s : State) : Byte × State :=
  let s1 := s.setSp (s.sp + 1)
  s1.read s1.stackAddr

/-- `PullFirst()`: the dummy read of the old stack top, then the pull (45_stack_flags_system.md R345). -/
def State.pullFirst (s : State) : Byte × State := (s.touch s.stackAddr).pull

/-- `setNZ(v)` on P (00_scope.md R13). -/
def State.setNZ (s : State) (v : Byte) : State := s.setP (s.p.withNZ v)

/-- C alone set. -/
def State.setCarry (s : State) (c : Bool) : State := s.setP (s.p.withC c)

/-- A Boolean `Draw` (00_scope.md R14). -/
def State.drawBool (s : State) : Bool × State := (s.draw.1.getLsbD 0, s.draw.2)

/-- PC from the two bytes of a vector, low byte first (60_exceptions.md R502). -/
def State.loadVector (s : State) (vec : Addr) : State :=
  let l := s.read vec
  let h := l.2.read (vec + 1)
  h.2.setPc (w16 h.1 l.1)

/-- Taking an interrupt, from the pushes on: PCH, PCL and P with the given B go on the stack, I becomes 1, PC
comes from the vector. A, X, Y and the other flags stay, D among them (60_exceptions.md R522, R523;
45_stack_flags_system.md R355). -/
def State.takeInterrupt (s : State) (b : Bool) (vec : Addr) : State :=
  let s1 := ((s.push (hi s.pc)).push (lo s.pc)).push (s.p.pack b)
  (s1.setP { s1.p with i := true }).loadVector vec

/-- The interrupt sequence of IRQ and NMI: two dummy reads at PC, which stays, and then the entry with B = 0
(60_exceptions.md R522). -/
def State.interruptSequence (s : State) (vec : Addr) : State :=
  ((s.touch s.pc).touch s.pc).takeInterrupt false vec

/-- The NMI vector (20_memory.md R64). -/
def nmiVector : Addr := 0xFFFA

/-- BRK's vector (20_memory.md R64, 45_stack_flags_system.md R355). -/
def brkVector : Addr := 0xFFFE

/-- The return from an interrupt, from cycle 3 on: P, PCL and PCH are pulled (45_stack_flags_system.md R350,
60_exceptions.md R531). -/
def State.returnFromInterrupt (s : State) : State :=
  let f := s.pullFirst
  let l := (f.2.setP (Flags.unpack f.1)).pull
  let h := l.2.pull
  h.2.setPc (w16 h.1 l.1)

/-- An NMI edge that fell inside the step becomes pending for the next boundary (60_exceptions.md R511, R520). -/
def State.settleNmi (s : State) : State :=
  if s.inputs.nmiArriving then
    (s.setNmiPending true).setInputs { s.inputs with nmiArriving := false }
  else s

/-- The time of a step passes: PERIPH_IN moves on by a level for each of its bus cycles (00_scope.md R8). -/
def State.elapse (s : State) : State := s.setInputs (s.inputs.elapse s.bus.length)

/-- BRK took the NMI's vector: the edge is used up (60_exceptions.md R525). -/
def State.useNmiEdge (s : State) : State := s.setInputs { s.inputs with nmiArriving := false }

/-- `Reset()`: the jam and any NMI edge are forgotten, every port line is an input, S, I, D and PRL are drawn, PC
comes from the reset vector, and the rest stays (60_exceptions.md R530, 10_state.md R46, R52; decisions D11,
D12, D13). -/
def State.resetSequence (s : State) : State :=
  let s1 := ((s.setJammed false).setNmiPending false).setDdr 0
  let s2 := s1.setInputs { s1.inputs with resetPin := .inactive, nmiArriving := false }
  let stack := s2.draw
  let i := stack.2.drawBool
  let d := i.2.drawBool
  let latch := d.2.draw
  let s3 := (latch.2.setSp stack.1).setPrl (latch.1 &&& portMask s.board.variant)
  (s3.setP { s3.p with i := i.1, d := d.1 }).loadVector s.board.resetVector

/-- `Jam()`: nothing but the jammed condition changes (46_undocumented_stable.md R395). -/
def State.jam (s : State) : State := s.setJammed true

end Sys2Proof.Machine
end

