-- ==== Sys2Proof/Machine/Operands.lean ====
section
/-! DEFINITION. The addressing modes: effective addresses and, access by access, the bus cycles after the
instruction's own bytes (40_addressing_modes.md). `readOperand`, `writeMem` and `modifyMem` are the spec's
`ReadOperand`, `WriteOperand` and `ModifyOperand`; `storeHigh` is `StoreH` (47_undocumented_unusual.md R420). -/

namespace Sys2Proof.Machine

/-- The address in page 0 of a byte (30_encoding.md R101). -/
def zeroPage (d : Byte) : Addr := w16 0 d

/-- A base address plus an index, modulo 65536 (40_addressing_modes.md R141; decision D6). -/
def indexed (base : Addr) (index : Byte) : Addr := base + index.setWidth 16

/-- The indexed address before its high byte is fixed: `w16(hi, (lo + I) & 255)` (R147, R148, R166). -/
def unfixed (base : Addr) (index : Byte) : Addr := w16 (hi base) (lo base + index)

/-- A page crossing: `lo + I > 255` (R141). -/
def crosses (base : Addr) (index : Byte) : Bool := decide (255 < (lo base).toNat + index.toNat)

/-- A branch's signed offset, `sext_8` (00_scope.md R10). -/
def offset (off : Byte) : Addr := off.signExtend 16

/-- `EA_izx` (R150). The dummy read of cycle 3 is at the unindexed pointer (decision D15). -/
def pointerIzx (ptr : Byte) (s : State) : Addr × State :=
  let l := (s.touch (zeroPage ptr)).read (zeroPage (ptr + s.x))
  let h := l.2.read (zeroPage (ptr + s.x + 1))
  (w16 h.1 l.1, h.2)

/-- The base address of `(zp),Y`: both pointer bytes come from page 0 (R151). -/
def pointerIzy (ptr : Byte) (s : State) : Addr × State :=
  let l := s.read (zeroPage ptr)
  let h := l.2.read (zeroPage (ptr + 1))
  (w16 h.1 l.1, h.2)

/-- Read class: the unfixed address is read only if a page was crossed (R147, R151). -/
def readIndexed (base : Addr) (index : Byte) (s : State) : Addr × State :=
  (indexed base index, if crosses base index then s.touch (unfixed base index) else s)

/-- Write and RMW class: the unfixed address is always read first (R148, R149, R152, R153). -/
def storeIndexed (base : Addr) (index : Byte) (s : State) : Addr × State :=
  (indexed base index, s.touch (unfixed base index))

/-- The effective address of a read-class operand, and the state after the cycles before its read. -/
def readAddress (m : MemMode) (s : State) : Addr × State :=
  match m with
  | .zp d => (zeroPage d, s)
  | .zpx d => (zeroPage (d + s.x), s.touch (zeroPage d))
  | .zpy d => (zeroPage (d + s.y), s.touch (zeroPage d))
  | .abs addr => (addr, s)
  | .abx addr => readIndexed addr s.x s
  | .aby addr => readIndexed addr s.y s
  | .izx ptr => pointerIzx ptr s
  | .izy ptr => readIndexed (pointerIzy ptr s).1 s.y (pointerIzy ptr s).2

/-- The effective address of a write-class or RMW-class operand, and the state after the cycles before its first
access there. -/
def storeAddress (m : MemMode) (s : State) : Addr × State :=
  match m with
  | .zp d => (zeroPage d, s)
  | .zpx d => (zeroPage (d + s.x), s.touch (zeroPage d))
  | .zpy d => (zeroPage (d + s.y), s.touch (zeroPage d))
  | .abs addr => (addr, s)
  | .abx addr => storeIndexed addr s.x s
  | .aby addr => storeIndexed addr s.y s
  | .izx ptr => pointerIzx ptr s
  | .izy ptr => storeIndexed (pointerIzy ptr s).1 s.y (pointerIzy ptr s).2

/-- `ReadOperand(mode)` for the memory modes (R144 to R151). -/
def readMem (m : MemMode) (s : State) : Byte × State := (readAddress m s).2.read (readAddress m s).1

/-- `ReadOperand(mode)`: an immediate operand has been fetched with the instruction (R143). -/
def readOperand (o : Source) (s : State) : Byte × State :=
  match o with
  | .imm v => (v, s)
  | .mem m => readMem m s

/-- `WriteOperand(mode, v)` (R144 to R152). -/
def writeMem (m : MemMode) (v : Byte) (s : State) : State :=
  (storeAddress m s).2.write (storeAddress m s).1 v

/-- `ModifyOperand(mode, f)`: read, write back unchanged, write modified; also the byte read (R144 to R153,
R160). -/
def modifyMem (m : MemMode) (f : Byte → Byte) (s : State) : Byte × State :=
  let e := storeAddress m s
  let r := e.2.read e.1
  (r.1, (r.2.write e.1 r.1).write e.1 (f r.1))

/-- The value the SHA family stores: the register AND the base address's high byte plus 1
(47_undocumented_unusual.md R420). -/
def highAnd (base : Addr) (reg : Byte) : Byte := reg &&& (hi base + 1)

/-- Where the SHA family stores: the indexed address, but after a page crossing the stored value is its high byte
(47_undocumented_unusual.md R420). -/
def highAddress (base : Addr) (index reg : Byte) : Addr :=
  if crosses base index then w16 (highAnd base reg) (lo base + index) else indexed base index

/-- `StoreH(mode, R)` from a base address and an index (47_undocumented_unusual.md R420). -/
def storeHigh (base : Addr) (index reg : Byte) (s : State) : State :=
  (s.touch (unfixed base index)).write (highAddress base index reg) (highAnd base reg)

end Sys2Proof.Machine
end

