-- ==== Sys2Proof/Machine/Shared.lean ====
section
/-! DEFINITION. The shapes that instructions share, as operations the meanings call with their register, function
or condition. On entry PC is the address after the instruction's fetched bytes (00_scope.md R15; log 23). -/

namespace Sys2Proof.Machine

/-- Load: the operand goes into a register (or two), N and Z follow it (41_load_store_transfer.md R201 to R203,
46_undocumented_stable.md R376). -/
def loadWith (put : State → Byte → State) (o : Source) (s : State) : Result :=
  let r := readOperand o s
  .next ((put r.2 r.1).setNZ r.1)

/-- A and X both take a byte (46_undocumented_stable.md R376, 47_undocumented_unusual.md R416, R425). -/
def putAX (s : State) (v : Byte) : State := (s.setA v).setX v

/-- Store a value; nothing else changes (41_load_store_transfer.md R200 (d), R204 to R206). -/
def storeValue (v : Byte) (m : MemMode) (s : State) : Result := .next (writeMem m v s)

/-- A transfer between registers that sets N and Z (41_load_store_transfer.md R207 to R211). -/
def transferWith (put : State → Byte → State) (v : Byte) (s : State) : Result :=
  .next ((put (s.touch s.pc) v).setNZ v)

/-- A logic operation on A and the operand (42_logic_arithmetic.md R240 to R242). -/
def logicWith (f : Byte → Byte → Byte) (o : Source) (s : State) : Result :=
  let r := readOperand o s
  .next ((r.2.setA (f s.a r.1)).setNZ (f s.a r.1))

/-- Addition or subtraction of the operand to A with all its flags (42_logic_arithmetic.md R251, R253). -/
def arithWith (f : Byte → Byte → Flags → Byte × Flags) (o : Source) (s : State) : Result :=
  let r := readOperand o s
  .next ((r.2.setA (f s.a r.1 s.p).1).setP (f s.a r.1 s.p).2)

/-- A comparison of a register with the operand (42_logic_arithmetic.md R255 to R257). -/
def compareWith (reg : Byte) (o : Source) (s : State) : Result :=
  let r := readOperand o s
  .next (r.2.setP (compare reg r.1 s.p).2)

/-- BIT (42_logic_arithmetic.md R243). -/
def bitTest (o : Source) (s : State) : Result :=
  let r := readOperand o s
  .next (r.2.setP (bitFlags s.a r.1 s.p))

/-- The memory half of a shift: the byte written and the state with the new C (43_shift_incdec.md R280). -/
def shiftStore (f : Byte → Bool → Byte × Bool) (m : MemMode) (s : State) : Byte × State :=
  let r := modifyMem m (fun b => (f b s.p.c).1) s
  ((f r.1 s.p.c).1, r.2.setCarry (f r.1 s.p.c).2)

/-- A shift or rotate of memory (43_shift_incdec.md R281 to R284). -/
def shiftMem (f : Byte → Bool → Byte × Bool) (m : MemMode) (s : State) : Result :=
  let r := shiftStore f m s
  .next (r.2.setNZ r.1)

/-- A shift or rotate of A (43_shift_incdec.md R280 to R284). -/
def shiftAcc (f : Byte → Bool → Byte × Bool) (s : State) : Result :=
  let q := f s.a s.p.c
  .next ((((s.touch s.pc).setA q.1).setCarry q.2).setNZ q.1)

/-- INC or DEC of memory: the byte written and the state after (43_shift_incdec.md R285, R286). -/
def countStore (f : Byte → Byte) (m : MemMode) (s : State) : Byte × State :=
  let r := modifyMem m f s
  (f r.1, r.2)

/-- INC and DEC (43_shift_incdec.md R285, R286). -/
def countMem (f : Byte → Byte) (m : MemMode) (s : State) : Result :=
  let r := countStore f m s
  .next (r.2.setNZ r.1)

/-- A shift of memory, then a logic operation of A with the byte written (46_undocumented_stable.md R371 to
R373). -/
def shiftLogic (f : Byte → Bool → Byte × Bool) (g : Byte → Byte → Byte) (m : MemMode) (s : State) : Result :=
  let r := shiftStore f m s
  .next ((r.2.setA (g s.a r.1)).setNZ (g s.a r.1))

/-- RRA: a rotate of memory, then ADC of the byte written with the C rotated out (46_undocumented_stable.md
R374). -/
def rotateAdd (m : MemMode) (s : State) : Result :=
  let r := shiftStore ror m s
  .next ((r.2.setA (adc s.a r.1 r.2.p).1).setP (adc s.a r.1 r.2.p).2)

/-- DCP: DEC of memory, then a comparison of A with the byte written (46_undocumented_stable.md R377). -/
def decCompare (m : MemMode) (s : State) : Result :=
  let r := countStore (· - 1) m s
  .next (r.2.setP (compare s.a r.1 s.p).2)

/-- ISB: INC of memory, then SBC of the byte written (46_undocumented_stable.md R378). -/
def incSubtract (m : MemMode) (s : State) : Result :=
  let r := countStore (· + 1) m s
  .next ((r.2.setA (sbc s.a r.1 s.p).1).setP (sbc s.a r.1 s.p).2)

/-- `Implied()` and a change of flags (45_stack_flags_system.md R360 to R366). -/
def changeFlags (f : Flags → Flags) (s : State) : Result := .next ((s.touch s.pc).setP (f s.p))

/-- A one-byte NOP: `Implied()` (45_stack_flags_system.md R367, 46_undocumented_stable.md R390). -/
def idle (s : State) : Result := .next (s.touch s.pc)

/-- A NOP with an operand: the reads of its mode (46_undocumented_stable.md R391 to R394). -/
def idleRead (o : Source) (s : State) : Result := .next (readOperand o s).2

/-- `$82 $C2 $E2`: a drawn jam, else a NOP (46_undocumented_stable.md R396). DESIGN CHOICE: the operand is fetched in
the jam too, so that PC and bus are those of the NOP (log 12). -/
def idleOrJam (s : State) : Result :=
  let d := s.drawBool
  .next (if d.1 then d.2.jam else d.2)

/-- `Branch(cond)` from cycle 3 on; PC is the next instruction's address (44_control_flow.md R312). -/
def branchIf (cond : Bool) (off : Byte) (s : State) : Result :=
  if cond then
    let t := s.pc + offset off
    let s1 := s.touch s.pc
    .next ((if hi t = hi s.pc then s1 else s1.touch (w16 (hi s.pc) (lo t))).setPc t)
  else .next s

end Sys2Proof.Machine
end

