-- ==== Sys2Proof/Machine/Arith.lean ====
section
/-! DEFINITION. The meanings of the logic, arithmetic and compare instructions (42_logic_arithmetic.md), one per row of the opcode table. -/

namespace Sys2Proof.Machine

/-- $01 `ORA ($nn,X)` (R241). -/
def execOraIzx (ptr : Byte) (s : State) : Result := logicWith (· ||| ·) (.mem (.izx ptr)) s

/-- $05 `ORA $nn` (R241). -/
def execOraZp (d : Byte) (s : State) : Result := logicWith (· ||| ·) (.mem (.zp d)) s

/-- $09 `ORA #$nn` (R241). -/
def execOraImm (v : Byte) (s : State) : Result := logicWith (· ||| ·) (.imm v) s

/-- $0D `ORA $nnnn` (R241). -/
def execOraAbs (addr : Addr) (s : State) : Result := logicWith (· ||| ·) (.mem (.abs addr)) s

/-- $11 `ORA ($nn),Y` (R241). -/
def execOraIzy (ptr : Byte) (s : State) : Result := logicWith (· ||| ·) (.mem (.izy ptr)) s

/-- $15 `ORA $nn,X` (R241). -/
def execOraZpx (d : Byte) (s : State) : Result := logicWith (· ||| ·) (.mem (.zpx d)) s

/-- $19 `ORA $nnnn,Y` (R241). -/
def execOraAby (addr : Addr) (s : State) : Result := logicWith (· ||| ·) (.mem (.aby addr)) s

/-- $1D `ORA $nnnn,X` (R241). -/
def execOraAbx (addr : Addr) (s : State) : Result := logicWith (· ||| ·) (.mem (.abx addr)) s

/-- $21 `AND ($nn,X)` (R240). -/
def execAndIzx (ptr : Byte) (s : State) : Result := logicWith (· &&& ·) (.mem (.izx ptr)) s

/-- $24 `BIT $nn` (R243). -/
def execBitZp (d : Byte) (s : State) : Result := bitTest (.mem (.zp d)) s

/-- $25 `AND $nn` (R240). -/
def execAndZp (d : Byte) (s : State) : Result := logicWith (· &&& ·) (.mem (.zp d)) s

/-- $29 `AND #$nn` (R240). -/
def execAndImm (v : Byte) (s : State) : Result := logicWith (· &&& ·) (.imm v) s

/-- $2C `BIT $nnnn` (R243). -/
def execBitAbs (addr : Addr) (s : State) : Result := bitTest (.mem (.abs addr)) s

/-- $2D `AND $nnnn` (R240). -/
def execAndAbs (addr : Addr) (s : State) : Result := logicWith (· &&& ·) (.mem (.abs addr)) s

/-- $31 `AND ($nn),Y` (R240). -/
def execAndIzy (ptr : Byte) (s : State) : Result := logicWith (· &&& ·) (.mem (.izy ptr)) s

/-- $35 `AND $nn,X` (R240). -/
def execAndZpx (d : Byte) (s : State) : Result := logicWith (· &&& ·) (.mem (.zpx d)) s

/-- $39 `AND $nnnn,Y` (R240). -/
def execAndAby (addr : Addr) (s : State) : Result := logicWith (· &&& ·) (.mem (.aby addr)) s

/-- $3D `AND $nnnn,X` (R240). -/
def execAndAbx (addr : Addr) (s : State) : Result := logicWith (· &&& ·) (.mem (.abx addr)) s

/-- $41 `EOR ($nn,X)` (R242). -/
def execEorIzx (ptr : Byte) (s : State) : Result := logicWith (· ^^^ ·) (.mem (.izx ptr)) s

/-- $45 `EOR $nn` (R242). -/
def execEorZp (d : Byte) (s : State) : Result := logicWith (· ^^^ ·) (.mem (.zp d)) s

/-- $49 `EOR #$nn` (R242). -/
def execEorImm (v : Byte) (s : State) : Result := logicWith (· ^^^ ·) (.imm v) s

/-- $4D `EOR $nnnn` (R242). -/
def execEorAbs (addr : Addr) (s : State) : Result := logicWith (· ^^^ ·) (.mem (.abs addr)) s

/-- $51 `EOR ($nn),Y` (R242). -/
def execEorIzy (ptr : Byte) (s : State) : Result := logicWith (· ^^^ ·) (.mem (.izy ptr)) s

/-- $55 `EOR $nn,X` (R242). -/
def execEorZpx (d : Byte) (s : State) : Result := logicWith (· ^^^ ·) (.mem (.zpx d)) s

/-- $59 `EOR $nnnn,Y` (R242). -/
def execEorAby (addr : Addr) (s : State) : Result := logicWith (· ^^^ ·) (.mem (.aby addr)) s

/-- $5D `EOR $nnnn,X` (R242). -/
def execEorAbx (addr : Addr) (s : State) : Result := logicWith (· ^^^ ·) (.mem (.abx addr)) s

/-- $61 `ADC ($nn,X)` (R251). -/
def execAdcIzx (ptr : Byte) (s : State) : Result := arithWith adc (.mem (.izx ptr)) s

/-- $65 `ADC $nn` (R251). -/
def execAdcZp (d : Byte) (s : State) : Result := arithWith adc (.mem (.zp d)) s

/-- $69 `ADC #$nn` (R251). -/
def execAdcImm (v : Byte) (s : State) : Result := arithWith adc (.imm v) s

/-- $6D `ADC $nnnn` (R251). -/
def execAdcAbs (addr : Addr) (s : State) : Result := arithWith adc (.mem (.abs addr)) s

/-- $71 `ADC ($nn),Y` (R251). -/
def execAdcIzy (ptr : Byte) (s : State) : Result := arithWith adc (.mem (.izy ptr)) s

/-- $75 `ADC $nn,X` (R251). -/
def execAdcZpx (d : Byte) (s : State) : Result := arithWith adc (.mem (.zpx d)) s

/-- $79 `ADC $nnnn,Y` (R251). -/
def execAdcAby (addr : Addr) (s : State) : Result := arithWith adc (.mem (.aby addr)) s

/-- $7D `ADC $nnnn,X` (R251). -/
def execAdcAbx (addr : Addr) (s : State) : Result := arithWith adc (.mem (.abx addr)) s

/-- $C0 `CPY #$nn` (R257). -/
def execCpyImm (v : Byte) (s : State) : Result := compareWith s.y (.imm v) s

/-- $C1 `CMP ($nn,X)` (R255). -/
def execCmpIzx (ptr : Byte) (s : State) : Result := compareWith s.a (.mem (.izx ptr)) s

/-- $C4 `CPY $nn` (R257). -/
def execCpyZp (d : Byte) (s : State) : Result := compareWith s.y (.mem (.zp d)) s

/-- $C5 `CMP $nn` (R255). -/
def execCmpZp (d : Byte) (s : State) : Result := compareWith s.a (.mem (.zp d)) s

/-- $C9 `CMP #$nn` (R255). -/
def execCmpImm (v : Byte) (s : State) : Result := compareWith s.a (.imm v) s

/-- $CC `CPY $nnnn` (R257). -/
def execCpyAbs (addr : Addr) (s : State) : Result := compareWith s.y (.mem (.abs addr)) s

/-- $CD `CMP $nnnn` (R255). -/
def execCmpAbs (addr : Addr) (s : State) : Result := compareWith s.a (.mem (.abs addr)) s

/-- $D1 `CMP ($nn),Y` (R255). -/
def execCmpIzy (ptr : Byte) (s : State) : Result := compareWith s.a (.mem (.izy ptr)) s

/-- $D5 `CMP $nn,X` (R255). -/
def execCmpZpx (d : Byte) (s : State) : Result := compareWith s.a (.mem (.zpx d)) s

/-- $D9 `CMP $nnnn,Y` (R255). -/
def execCmpAby (addr : Addr) (s : State) : Result := compareWith s.a (.mem (.aby addr)) s

/-- $DD `CMP $nnnn,X` (R255). -/
def execCmpAbx (addr : Addr) (s : State) : Result := compareWith s.a (.mem (.abx addr)) s

/-- $E0 `CPX #$nn` (R256). -/
def execCpxImm (v : Byte) (s : State) : Result := compareWith s.x (.imm v) s

/-- $E1 `SBC ($nn,X)` (R253). -/
def execSbcIzx (ptr : Byte) (s : State) : Result := arithWith sbc (.mem (.izx ptr)) s

/-- $E4 `CPX $nn` (R256). -/
def execCpxZp (d : Byte) (s : State) : Result := compareWith s.x (.mem (.zp d)) s

/-- $E5 `SBC $nn` (R253). -/
def execSbcZp (d : Byte) (s : State) : Result := arithWith sbc (.mem (.zp d)) s

/-- $E9 `SBC #$nn` (R253). -/
def execSbcImm (v : Byte) (s : State) : Result := arithWith sbc (.imm v) s

/-- $EC `CPX $nnnn` (R256). -/
def execCpxAbs (addr : Addr) (s : State) : Result := compareWith s.x (.mem (.abs addr)) s

/-- $ED `SBC $nnnn` (R253). -/
def execSbcAbs (addr : Addr) (s : State) : Result := arithWith sbc (.mem (.abs addr)) s

/-- $F1 `SBC ($nn),Y` (R253). -/
def execSbcIzy (ptr : Byte) (s : State) : Result := arithWith sbc (.mem (.izy ptr)) s

/-- $F5 `SBC $nn,X` (R253). -/
def execSbcZpx (d : Byte) (s : State) : Result := arithWith sbc (.mem (.zpx d)) s

/-- $F9 `SBC $nnnn,Y` (R253). -/
def execSbcAby (addr : Addr) (s : State) : Result := arithWith sbc (.mem (.aby addr)) s

/-- $FD `SBC $nnnn,X` (R253). -/
def execSbcAbx (addr : Addr) (s : State) : Result := arithWith sbc (.mem (.abx addr)) s

end Sys2Proof.Machine
end

