-- ==== Sys2Proof/Machine/Control.lean ====
section
/-! DEFINITION. The meanings of jumps, subroutine call and branches (44_control_flow.md), one per row of the opcode table. -/

namespace Sys2Proof.Machine

/-- The target's high byte as JSR's last cycle reads it, after the pushes: the operand's, unless the byte is one
of the two the pushes wrote (44_control_flow.md R316, corner case (a); log 23). PC points at it. -/
def jsrHigh (addr : Addr) (s : State) : Byte :=
  if s.pc = w16 0x01 (s.sp - 1) then lo s.pc else if s.pc = w16 0x01 s.sp then hi s.pc else hi addr

/-- $10 `BPL $nnnn` (R320). -/
def execBplRel (off : Byte) (s : State) : Result := branchIf (!s.p.n) off s

/-- $20 `JSR $nnnn` (R316). -/
def execJsrAbs (addr : Addr) (s : State) : Result :=
  let s1 := ((s.touch s.stackAddr).push (hi s.pc)).push (lo s.pc)
  let h := jsrHigh addr s
  .next ((s1.log (.read s.pc h)).setPc (w16 h (lo addr)))

/-- $30 `BMI $nnnn` (R321). -/
def execBmiRel (off : Byte) (s : State) : Result := branchIf s.p.n off s

/-- $4C `JMP $nnnn` (R311). -/
def execJmpAbs (addr : Addr) (s : State) : Result := .next (s.setPc addr)

/-- $50 `BVC $nnnn` (R322). -/
def execBvcRel (off : Byte) (s : State) : Result := branchIf (!s.p.v) off s

/-- $6C `JMP ($nnnn)` (R314). -/
def execJmpInd (addr : Addr) (s : State) : Result :=
  let l := s.read addr
  let h := l.2.read (w16 (hi addr) (lo addr + 1))
  .next (h.2.setPc (w16 h.1 l.1))

/-- $70 `BVS $nnnn` (R323). -/
def execBvsRel (off : Byte) (s : State) : Result := branchIf s.p.v off s

/-- $90 `BCC $nnnn` (R324). -/
def execBccRel (off : Byte) (s : State) : Result := branchIf (!s.p.c) off s

/-- $B0 `BCS $nnnn` (R325). -/
def execBcsRel (off : Byte) (s : State) : Result := branchIf s.p.c off s

/-- $D0 `BNE $nnnn` (R326). -/
def execBneRel (off : Byte) (s : State) : Result := branchIf (!s.p.z) off s

/-- $F0 `BEQ $nnnn` (R327). -/
def execBeqRel (off : Byte) (s : State) : Result := branchIf s.p.z off s

end Sys2Proof.Machine
end

