-- ==== Sys2Proof/Machine/LoadStore.lean ====
section
/-! DEFINITION. The meanings of the loads, stores and register transfers (41_load_store_transfer.md), one per row of the opcode table. -/

namespace Sys2Proof.Machine

/-- $81 `STA ($nn,X)` (R204). -/
def execStaIzx (ptr : Byte) (s : State) : Result := storeValue s.a (.izx ptr) s

/-- $84 `STY $nn` (R206). -/
def execStyZp (d : Byte) (s : State) : Result := storeValue s.y (.zp d) s

/-- $85 `STA $nn` (R204). -/
def execStaZp (d : Byte) (s : State) : Result := storeValue s.a (.zp d) s

/-- $86 `STX $nn` (R205). -/
def execStxZp (d : Byte) (s : State) : Result := storeValue s.x (.zp d) s

/-- $8A `TXA` (R209). -/
def execTxa (s : State) : Result := transferWith State.setA s.x s

/-- $8C `STY $nnnn` (R206). -/
def execStyAbs (addr : Addr) (s : State) : Result := storeValue s.y (.abs addr) s

/-- $8D `STA $nnnn` (R204). -/
def execStaAbs (addr : Addr) (s : State) : Result := storeValue s.a (.abs addr) s

/-- $8E `STX $nnnn` (R205). -/
def execStxAbs (addr : Addr) (s : State) : Result := storeValue s.x (.abs addr) s

/-- $91 `STA ($nn),Y` (R204). -/
def execStaIzy (ptr : Byte) (s : State) : Result := storeValue s.a (.izy ptr) s

/-- $94 `STY $nn,X` (R206). -/
def execStyZpx (d : Byte) (s : State) : Result := storeValue s.y (.zpx d) s

/-- $95 `STA $nn,X` (R204). -/
def execStaZpx (d : Byte) (s : State) : Result := storeValue s.a (.zpx d) s

/-- $96 `STX $nn,Y` (R205). -/
def execStxZpy (d : Byte) (s : State) : Result := storeValue s.x (.zpy d) s

/-- $98 `TYA` (R210). -/
def execTya (s : State) : Result := transferWith State.setA s.y s

/-- $99 `STA $nnnn,Y` (R204). -/
def execStaAby (addr : Addr) (s : State) : Result := storeValue s.a (.aby addr) s

/-- $9A `TXS` (R212). No flag changes. -/
def execTxs (s : State) : Result := .next ((s.touch s.pc).setSp s.x)

/-- $9D `STA $nnnn,X` (R204). -/
def execStaAbx (addr : Addr) (s : State) : Result := storeValue s.a (.abx addr) s

/-- $A0 `LDY #$nn` (R203). -/
def execLdyImm (v : Byte) (s : State) : Result := loadWith State.setY (.imm v) s

/-- $A1 `LDA ($nn,X)` (R201). -/
def execLdaIzx (ptr : Byte) (s : State) : Result := loadWith State.setA (.mem (.izx ptr)) s

/-- $A2 `LDX #$nn` (R202). -/
def execLdxImm (v : Byte) (s : State) : Result := loadWith State.setX (.imm v) s

/-- $A4 `LDY $nn` (R203). -/
def execLdyZp (d : Byte) (s : State) : Result := loadWith State.setY (.mem (.zp d)) s

/-- $A5 `LDA $nn` (R201). -/
def execLdaZp (d : Byte) (s : State) : Result := loadWith State.setA (.mem (.zp d)) s

/-- $A6 `LDX $nn` (R202). -/
def execLdxZp (d : Byte) (s : State) : Result := loadWith State.setX (.mem (.zp d)) s

/-- $A8 `TAY` (R208). -/
def execTay (s : State) : Result := transferWith State.setY s.a s

/-- $A9 `LDA #$nn` (R201). -/
def execLdaImm (v : Byte) (s : State) : Result := loadWith State.setA (.imm v) s

/-- $AA `TAX` (R207). -/
def execTax (s : State) : Result := transferWith State.setX s.a s

/-- $AC `LDY $nnnn` (R203). -/
def execLdyAbs (addr : Addr) (s : State) : Result := loadWith State.setY (.mem (.abs addr)) s

/-- $AD `LDA $nnnn` (R201). -/
def execLdaAbs (addr : Addr) (s : State) : Result := loadWith State.setA (.mem (.abs addr)) s

/-- $AE `LDX $nnnn` (R202). -/
def execLdxAbs (addr : Addr) (s : State) : Result := loadWith State.setX (.mem (.abs addr)) s

/-- $B1 `LDA ($nn),Y` (R201). -/
def execLdaIzy (ptr : Byte) (s : State) : Result := loadWith State.setA (.mem (.izy ptr)) s

/-- $B4 `LDY $nn,X` (R203). -/
def execLdyZpx (d : Byte) (s : State) : Result := loadWith State.setY (.mem (.zpx d)) s

/-- $B5 `LDA $nn,X` (R201). -/
def execLdaZpx (d : Byte) (s : State) : Result := loadWith State.setA (.mem (.zpx d)) s

/-- $B6 `LDX $nn,Y` (R202). -/
def execLdxZpy (d : Byte) (s : State) : Result := loadWith State.setX (.mem (.zpy d)) s

/-- $B9 `LDA $nnnn,Y` (R201). -/
def execLdaAby (addr : Addr) (s : State) : Result := loadWith State.setA (.mem (.aby addr)) s

/-- $BA `TSX` (R211). -/
def execTsx (s : State) : Result := transferWith State.setX s.sp s

/-- $BC `LDY $nnnn,X` (R203). -/
def execLdyAbx (addr : Addr) (s : State) : Result := loadWith State.setY (.mem (.abx addr)) s

/-- $BD `LDA $nnnn,X` (R201). -/
def execLdaAbx (addr : Addr) (s : State) : Result := loadWith State.setA (.mem (.abx addr)) s

/-- $BE `LDX $nnnn,Y` (R202). -/
def execLdxAby (addr : Addr) (s : State) : Result := loadWith State.setX (.mem (.aby addr)) s

end Sys2Proof.Machine
end

