-- ==== Sys2Proof/Machine/Shift.lean ====
section
/-! DEFINITION. The meanings of the shifts, rotates, increments and decrements (43_shift_incdec.md), one per row of the opcode table. -/

namespace Sys2Proof.Machine

/-- $06 `ASL $nn` (R281). -/
def execAslZp (d : Byte) (s : State) : Result := shiftMem asl (.zp d) s

/-- $0A `ASL A` (R281). -/
def execAslAcc (s : State) : Result := shiftAcc asl s

/-- $0E `ASL $nnnn` (R281). -/
def execAslAbs (addr : Addr) (s : State) : Result := shiftMem asl (.abs addr) s

/-- $16 `ASL $nn,X` (R281). -/
def execAslZpx (d : Byte) (s : State) : Result := shiftMem asl (.zpx d) s

/-- $1E `ASL $nnnn,X` (R281). -/
def execAslAbx (addr : Addr) (s : State) : Result := shiftMem asl (.abx addr) s

/-- $26 `ROL $nn` (R283). -/
def execRolZp (d : Byte) (s : State) : Result := shiftMem rol (.zp d) s

/-- $2A `ROL A` (R283). -/
def execRolAcc (s : State) : Result := shiftAcc rol s

/-- $2E `ROL $nnnn` (R283). -/
def execRolAbs (addr : Addr) (s : State) : Result := shiftMem rol (.abs addr) s

/-- $36 `ROL $nn,X` (R283). -/
def execRolZpx (d : Byte) (s : State) : Result := shiftMem rol (.zpx d) s

/-- $3E `ROL $nnnn,X` (R283). -/
def execRolAbx (addr : Addr) (s : State) : Result := shiftMem rol (.abx addr) s

/-- $46 `LSR $nn` (R282). -/
def execLsrZp (d : Byte) (s : State) : Result := shiftMem lsr (.zp d) s

/-- $4A `LSR A` (R282). -/
def execLsrAcc (s : State) : Result := shiftAcc lsr s

/-- $4E `LSR $nnnn` (R282). -/
def execLsrAbs (addr : Addr) (s : State) : Result := shiftMem lsr (.abs addr) s

/-- $56 `LSR $nn,X` (R282). -/
def execLsrZpx (d : Byte) (s : State) : Result := shiftMem lsr (.zpx d) s

/-- $5E `LSR $nnnn,X` (R282). -/
def execLsrAbx (addr : Addr) (s : State) : Result := shiftMem lsr (.abx addr) s

/-- $66 `ROR $nn` (R284). -/
def execRorZp (d : Byte) (s : State) : Result := shiftMem ror (.zp d) s

/-- $6A `ROR A` (R284). -/
def execRorAcc (s : State) : Result := shiftAcc ror s

/-- $6E `ROR $nnnn` (R284). -/
def execRorAbs (addr : Addr) (s : State) : Result := shiftMem ror (.abs addr) s

/-- $76 `ROR $nn,X` (R284). -/
def execRorZpx (d : Byte) (s : State) : Result := shiftMem ror (.zpx d) s

/-- $7E `ROR $nnnn,X` (R284). -/
def execRorAbx (addr : Addr) (s : State) : Result := shiftMem ror (.abx addr) s

/-- $88 `DEY` (R290). -/
def execDey (s : State) : Result := transferWith State.setY (s.y - 1) s

/-- $C6 `DEC $nn` (R286). -/
def execDecZp (d : Byte) (s : State) : Result := countMem (· - 1) (.zp d) s

/-- $C8 `INY` (R288). -/
def execIny (s : State) : Result := transferWith State.setY (s.y + 1) s

/-- $CA `DEX` (R289). -/
def execDex (s : State) : Result := transferWith State.setX (s.x - 1) s

/-- $CE `DEC $nnnn` (R286). -/
def execDecAbs (addr : Addr) (s : State) : Result := countMem (· - 1) (.abs addr) s

/-- $D6 `DEC $nn,X` (R286). -/
def execDecZpx (d : Byte) (s : State) : Result := countMem (· - 1) (.zpx d) s

/-- $DE `DEC $nnnn,X` (R286). -/
def execDecAbx (addr : Addr) (s : State) : Result := countMem (· - 1) (.abx addr) s

/-- $E6 `INC $nn` (R285). -/
def execIncZp (d : Byte) (s : State) : Result := countMem (· + 1) (.zp d) s

/-- $E8 `INX` (R287). -/
def execInx (s : State) : Result := transferWith State.setX (s.x + 1) s

/-- $EE `INC $nnnn` (R285). -/
def execIncAbs (addr : Addr) (s : State) : Result := countMem (· + 1) (.abs addr) s

/-- $F6 `INC $nn,X` (R285). -/
def execIncZpx (d : Byte) (s : State) : Result := countMem (· + 1) (.zpx d) s

/-- $FE `INC $nnnn,X` (R285). -/
def execIncAbx (addr : Addr) (s : State) : Result := countMem (· + 1) (.abx addr) s

end Sys2Proof.Machine
end

