-- ==== Sys2Proof/Machine/Stable.lean ====
section
/-! DEFINITION. The meanings of the undocumented commands with predictable behaviour and the jams (46_undocumented_stable.md), one per row of the opcode table. -/

namespace Sys2Proof.Machine

/-- $02 `JAM` (R395). -/
def execJam02 (s : State) : Result := .next s.jam

/-- $03 `SLO ($nn,X)` (R371). -/
def execSloIzx (ptr : Byte) (s : State) : Result := shiftLogic asl (· ||| ·) (.izx ptr) s

/-- $04 `NOP $nn` (R392). -/
def execNopZp04 (d : Byte) (s : State) : Result := idleRead (.mem (.zp d)) s

/-- $07 `SLO $nn` (R371). -/
def execSloZp (d : Byte) (s : State) : Result := shiftLogic asl (· ||| ·) (.zp d) s

/-- $0C `NOP $nnnn` (R393). -/
def execNopAbs (addr : Addr) (s : State) : Result := idleRead (.mem (.abs addr)) s

/-- $0F `SLO $nnnn` (R371). -/
def execSloAbs (addr : Addr) (s : State) : Result := shiftLogic asl (· ||| ·) (.abs addr) s

/-- $12 `JAM` (R395). -/
def execJam12 (s : State) : Result := .next s.jam

/-- $13 `SLO ($nn),Y` (R371). -/
def execSloIzy (ptr : Byte) (s : State) : Result := shiftLogic asl (· ||| ·) (.izy ptr) s

/-- $14 `NOP $nn,X` (R392). -/
def execNopZpx14 (d : Byte) (s : State) : Result := idleRead (.mem (.zpx d)) s

/-- $17 `SLO $nn,X` (R371). -/
def execSloZpx (d : Byte) (s : State) : Result := shiftLogic asl (· ||| ·) (.zpx d) s

/-- $1A `NOP` (R390). -/
def execNop1A (s : State) : Result := idle s

/-- $1B `SLO $nnnn,Y` (R371). -/
def execSloAby (addr : Addr) (s : State) : Result := shiftLogic asl (· ||| ·) (.aby addr) s

/-- $1C `NOP $nnnn,X` (R394). -/
def execNopAbx1C (addr : Addr) (s : State) : Result := idleRead (.mem (.abx addr)) s

/-- $1F `SLO $nnnn,X` (R371). -/
def execSloAbx (addr : Addr) (s : State) : Result := shiftLogic asl (· ||| ·) (.abx addr) s

/-- $22 `JAM` (R395). -/
def execJam22 (s : State) : Result := .next s.jam

/-- $23 `RLA ($nn,X)` (R372). -/
def execRlaIzx (ptr : Byte) (s : State) : Result := shiftLogic rol (· &&& ·) (.izx ptr) s

/-- $27 `RLA $nn` (R372). -/
def execRlaZp (d : Byte) (s : State) : Result := shiftLogic rol (· &&& ·) (.zp d) s

/-- $2F `RLA $nnnn` (R372). -/
def execRlaAbs (addr : Addr) (s : State) : Result := shiftLogic rol (· &&& ·) (.abs addr) s

/-- $32 `JAM` (R395). -/
def execJam32 (s : State) : Result := .next s.jam

/-- $33 `RLA ($nn),Y` (R372). -/
def execRlaIzy (ptr : Byte) (s : State) : Result := shiftLogic rol (· &&& ·) (.izy ptr) s

/-- $34 `NOP $nn,X` (R392). -/
def execNopZpx34 (d : Byte) (s : State) : Result := idleRead (.mem (.zpx d)) s

/-- $37 `RLA $nn,X` (R372). -/
def execRlaZpx (d : Byte) (s : State) : Result := shiftLogic rol (· &&& ·) (.zpx d) s

/-- $3A `NOP` (R390). -/
def execNop3A (s : State) : Result := idle s

/-- $3B `RLA $nnnn,Y` (R372). -/
def execRlaAby (addr : Addr) (s : State) : Result := shiftLogic rol (· &&& ·) (.aby addr) s

/-- $3C `NOP $nnnn,X` (R394). -/
def execNopAbx3C (addr : Addr) (s : State) : Result := idleRead (.mem (.abx addr)) s

/-- $3F `RLA $nnnn,X` (R372). -/
def execRlaAbx (addr : Addr) (s : State) : Result := shiftLogic rol (· &&& ·) (.abx addr) s

/-- $42 `JAM` (R395). -/
def execJam42 (s : State) : Result := .next s.jam

/-- $43 `SRE ($nn,X)` (R373). -/
def execSreIzx (ptr : Byte) (s : State) : Result := shiftLogic lsr (· ^^^ ·) (.izx ptr) s

/-- $44 `NOP $nn` (R392). -/
def execNopZp44 (d : Byte) (s : State) : Result := idleRead (.mem (.zp d)) s

/-- $47 `SRE $nn` (R373). -/
def execSreZp (d : Byte) (s : State) : Result := shiftLogic lsr (· ^^^ ·) (.zp d) s

/-- $4F `SRE $nnnn` (R373). -/
def execSreAbs (addr : Addr) (s : State) : Result := shiftLogic lsr (· ^^^ ·) (.abs addr) s

/-- $52 `JAM` (R395). -/
def execJam52 (s : State) : Result := .next s.jam

/-- $53 `SRE ($nn),Y` (R373). -/
def execSreIzy (ptr : Byte) (s : State) : Result := shiftLogic lsr (· ^^^ ·) (.izy ptr) s

/-- $54 `NOP $nn,X` (R392). -/
def execNopZpx54 (d : Byte) (s : State) : Result := idleRead (.mem (.zpx d)) s

/-- $57 `SRE $nn,X` (R373). -/
def execSreZpx (d : Byte) (s : State) : Result := shiftLogic lsr (· ^^^ ·) (.zpx d) s

/-- $5A `NOP` (R390). -/
def execNop5A (s : State) : Result := idle s

/-- $5B `SRE $nnnn,Y` (R373). -/
def execSreAby (addr : Addr) (s : State) : Result := shiftLogic lsr (· ^^^ ·) (.aby addr) s

/-- $5C `NOP $nnnn,X` (R394). -/
def execNopAbx5C (addr : Addr) (s : State) : Result := idleRead (.mem (.abx addr)) s

/-- $5F `SRE $nnnn,X` (R373). -/
def execSreAbx (addr : Addr) (s : State) : Result := shiftLogic lsr (· ^^^ ·) (.abx addr) s

/-- $62 `JAM` (R395). -/
def execJam62 (s : State) : Result := .next s.jam

/-- $63 `RRA ($nn,X)` (R374). -/
def execRraIzx (ptr : Byte) (s : State) : Result := rotateAdd (.izx ptr) s

/-- $64 `NOP $nn` (R392). -/
def execNopZp64 (d : Byte) (s : State) : Result := idleRead (.mem (.zp d)) s

/-- $67 `RRA $nn` (R374). -/
def execRraZp (d : Byte) (s : State) : Result := rotateAdd (.zp d) s

/-- $6F `RRA $nnnn` (R374). -/
def execRraAbs (addr : Addr) (s : State) : Result := rotateAdd (.abs addr) s

/-- $72 `JAM` (R395). -/
def execJam72 (s : State) : Result := .next s.jam

/-- $73 `RRA ($nn),Y` (R374). -/
def execRraIzy (ptr : Byte) (s : State) : Result := rotateAdd (.izy ptr) s

/-- $74 `NOP $nn,X` (R392). -/
def execNopZpx74 (d : Byte) (s : State) : Result := idleRead (.mem (.zpx d)) s

/-- $77 `RRA $nn,X` (R374). -/
def execRraZpx (d : Byte) (s : State) : Result := rotateAdd (.zpx d) s

/-- $7A `NOP` (R390). -/
def execNop7A (s : State) : Result := idle s

/-- $7B `RRA $nnnn,Y` (R374). -/
def execRraAby (addr : Addr) (s : State) : Result := rotateAdd (.aby addr) s

/-- $7C `NOP $nnnn,X` (R394). -/
def execNopAbx7C (addr : Addr) (s : State) : Result := idleRead (.mem (.abx addr)) s

/-- $7F `RRA $nnnn,X` (R374). -/
def execRraAbx (addr : Addr) (s : State) : Result := rotateAdd (.abx addr) s

/-- $80 `NOP #$nn` (R391). -/
def execNopImm80 (v : Byte) (s : State) : Result := idleRead (.imm v) s

/-- $82 `NOP #$nn` (R396). -/
def execNopImm82 (_ : Byte) (s : State) : Result := idleOrJam s

/-- $83 `SAX ($nn,X)` (R375). -/
def execSaxIzx (ptr : Byte) (s : State) : Result := storeValue (s.a &&& s.x) (.izx ptr) s

/-- $87 `SAX $nn` (R375). -/
def execSaxZp (d : Byte) (s : State) : Result := storeValue (s.a &&& s.x) (.zp d) s

/-- $89 `NOP #$nn` (R391). -/
def execNopImm89 (v : Byte) (s : State) : Result := idleRead (.imm v) s

/-- $8F `SAX $nnnn` (R375). -/
def execSaxAbs (addr : Addr) (s : State) : Result := storeValue (s.a &&& s.x) (.abs addr) s

/-- $92 `JAM` (R395). -/
def execJam92 (s : State) : Result := .next s.jam

/-- $97 `SAX $nn,Y` (R375). -/
def execSaxZpy (d : Byte) (s : State) : Result := storeValue (s.a &&& s.x) (.zpy d) s

/-- $A3 `LAX ($nn,X)` (R376). -/
def execLaxIzx (ptr : Byte) (s : State) : Result := loadWith putAX (.mem (.izx ptr)) s

/-- $A7 `LAX $nn` (R376). -/
def execLaxZp (d : Byte) (s : State) : Result := loadWith putAX (.mem (.zp d)) s

/-- $AF `LAX $nnnn` (R376). -/
def execLaxAbs (addr : Addr) (s : State) : Result := loadWith putAX (.mem (.abs addr)) s

/-- $B2 `JAM` (R395). -/
def execJamB2 (s : State) : Result := .next s.jam

/-- $B3 `LAX ($nn),Y` (R376). -/
def execLaxIzy (ptr : Byte) (s : State) : Result := loadWith putAX (.mem (.izy ptr)) s

/-- $B7 `LAX $nn,Y` (R376). -/
def execLaxZpy (d : Byte) (s : State) : Result := loadWith putAX (.mem (.zpy d)) s

/-- $BF `LAX $nnnn,Y` (R376). -/
def execLaxAby (addr : Addr) (s : State) : Result := loadWith putAX (.mem (.aby addr)) s

/-- $C2 `NOP #$nn` (R396). -/
def execNopImmC2 (_ : Byte) (s : State) : Result := idleOrJam s

/-- $C3 `DCP ($nn,X)` (R377). -/
def execDcpIzx (ptr : Byte) (s : State) : Result := decCompare (.izx ptr) s

/-- $C7 `DCP $nn` (R377). -/
def execDcpZp (d : Byte) (s : State) : Result := decCompare (.zp d) s

/-- $CF `DCP $nnnn` (R377). -/
def execDcpAbs (addr : Addr) (s : State) : Result := decCompare (.abs addr) s

/-- $D2 `JAM` (R395). -/
def execJamD2 (s : State) : Result := .next s.jam

/-- $D3 `DCP ($nn),Y` (R377). -/
def execDcpIzy (ptr : Byte) (s : State) : Result := decCompare (.izy ptr) s

/-- $D4 `NOP $nn,X` (R392). -/
def execNopZpxD4 (d : Byte) (s : State) : Result := idleRead (.mem (.zpx d)) s

/-- $D7 `DCP $nn,X` (R377). -/
def execDcpZpx (d : Byte) (s : State) : Result := decCompare (.zpx d) s

/-- $DA `NOP` (R390). -/
def execNopDA (s : State) : Result := idle s

/-- $DB `DCP $nnnn,Y` (R377). -/
def execDcpAby (addr : Addr) (s : State) : Result := decCompare (.aby addr) s

/-- $DC `NOP $nnnn,X` (R394). -/
def execNopAbxDC (addr : Addr) (s : State) : Result := idleRead (.mem (.abx addr)) s

/-- $DF `DCP $nnnn,X` (R377). -/
def execDcpAbx (addr : Addr) (s : State) : Result := decCompare (.abx addr) s

/-- $E2 `NOP #$nn` (R396). -/
def execNopImmE2 (_ : Byte) (s : State) : Result := idleOrJam s

/-- $E3 `ISB ($nn,X)` (R378). -/
def execIsbIzx (ptr : Byte) (s : State) : Result := incSubtract (.izx ptr) s

/-- $E7 `ISB $nn` (R378). -/
def execIsbZp (d : Byte) (s : State) : Result := incSubtract (.zp d) s

/-- $EB `SBC #$nn` (R388). -/
def execSbcImmEB (v : Byte) (s : State) : Result := arithWith sbc (.imm v) s

/-- $EF `ISB $nnnn` (R378). -/
def execIsbAbs (addr : Addr) (s : State) : Result := incSubtract (.abs addr) s

/-- $F2 `JAM` (R395). -/
def execJamF2 (s : State) : Result := .next s.jam

/-- $F3 `ISB ($nn),Y` (R378). -/
def execIsbIzy (ptr : Byte) (s : State) : Result := incSubtract (.izy ptr) s

/-- $F4 `NOP $nn,X` (R392). -/
def execNopZpxF4 (d : Byte) (s : State) : Result := idleRead (.mem (.zpx d)) s

/-- $F7 `ISB $nn,X` (R378). -/
def execIsbZpx (d : Byte) (s : State) : Result := incSubtract (.zpx d) s

/-- $FA `NOP` (R390). -/
def execNopFA (s : State) : Result := idle s

/-- $FB `ISB $nnnn,Y` (R378). -/
def execIsbAby (addr : Addr) (s : State) : Result := incSubtract (.aby addr) s

/-- $FC `NOP $nnnn,X` (R394). -/
def execNopAbxFC (addr : Addr) (s : State) : Result := idleRead (.mem (.abx addr)) s

/-- $FF `ISB $nnnn,X` (R378). -/
def execIsbAbx (addr : Addr) (s : State) : Result := incSubtract (.abx addr) s

end Sys2Proof.Machine
end

