-- ==== Sys2Proof/Machine/System.lean ====
section
/-! DEFINITION. The meanings of the stack, return, software interrupt, flag and NOP instructions (45_stack_flags_system.md), one per row of the opcode table. -/

namespace Sys2Proof.Machine

/-- $00 `BRK` (R355). The byte after the opcode is fetched and dropped, so the address pushed is the opcode's plus 2; B = 1. An NMI edge
inside the instruction may take the vector, by a draw (60_exceptions.md R525; log 18). -/
def execBrk (s : State) : Result :=
  let s1 := s.fetchByte.2
  if s1.inputs.nmiArriving then
    let d := s1.drawBool
    .next (if d.1 then d.2.useNmiEdge.takeInterrupt true nmiVector else d.2.takeInterrupt true brkVector)
  else .next (s1.takeInterrupt true brkVector)

/-- $08 `PHP` (R342). -/
def execPhp (s : State) : Result := .next ((s.touch s.pc).push (s.p.pack true))

/-- $18 `CLC` (R360). -/
def execClc (s : State) : Result := changeFlags (fun p => { p with c := false }) s

/-- $28 `PLP` (R344). -/
def execPlp (s : State) : Result :=
  let r := (s.touch s.pc).pullFirst
  .next (r.2.setP (Flags.unpack r.1))

/-- $38 `SEC` (R361). -/
def execSec (s : State) : Result := changeFlags (fun p => { p with c := true }) s

/-- $40 `RTI` (R350). -/
def execRti (s : State) : Result := .next (s.touch s.pc).returnFromInterrupt

/-- $48 `PHA` (R341). -/
def execPha (s : State) : Result := .next ((s.touch s.pc).push s.a)

/-- $58 `CLI` (R362). -/
def execCli (s : State) : Result := changeFlags (fun p => { p with i := false }) s

/-- $60 `RTS` (R351). -/
def execRts (s : State) : Result :=
  let l := (s.touch s.pc).pullFirst
  let h := l.2.pull
  .next ((h.2.touch (w16 h.1 l.1)).setPc (w16 h.1 l.1 + 1))

/-- $68 `PLA` (R343). -/
def execPla (s : State) : Result :=
  let r := (s.touch s.pc).pullFirst
  .next ((r.2.setA r.1).setNZ r.1)

/-- $78 `SEI` (R363). -/
def execSei (s : State) : Result := changeFlags (fun p => { p with i := true }) s

/-- $B8 `CLV` (R364). -/
def execClv (s : State) : Result := changeFlags (fun p => { p with v := false }) s

/-- $D8 `CLD` (R365). -/
def execCld (s : State) : Result := changeFlags (fun p => { p with d := false }) s

/-- $EA `NOP` (R367). -/
def execNop (s : State) : Result := idle s

/-- $F8 `SED` (R366). -/
def execSed (s : State) : Result := changeFlags (fun p => { p with d := true }) s

end Sys2Proof.Machine
end

