-- ==== Sys2Proof/Machine/Unusual.lean ====
section
/-! DEFINITION. The meanings of the undocumented commands with unusual behaviour (47_undocumented_unusual.md), one per row of the opcode table. -/

namespace Sys2Proof.Machine

/-- A drawn element of a set. -/
def State.drawFrom (s : State) (set : List Byte) : Byte × State :=
  (set.getD (s.draw.1.toNat % set.length) 0, s.draw.2)

/-- ANE_CONST's set (00_scope.md R8, 47_undocumented_unusual.md R415). A 6502 is a 6510 without the port, and only the
8502 differs here (decision D1). -/
def aneConsts (b : Board) : List Byte :=
  match b.variant with
  | .mos6502 | .mos6510 => [0xEE, 0xEF, 0xFE, 0xFF]
  | .mos8502 => if b.fast then [0xEE] else [0x8C, 0xCC, 0xEE, 0x0C, 0x8E]

/-- LXA_CONST's set (00_scope.md R8, 47_undocumented_unusual.md R416; decision D1 for the 6502). -/
def lxaConsts (b : Board) : List Byte :=
  match b.variant with
  | .mos6502 | .mos6510 => [0x00, 0xEE, 0xEF, 0xFE, 0xFF]
  | .mos8502 => [0x00]

/-- `(A & K) | VAL`, K the part of a drawn byte outside VAL (47_undocumented_unusual.md R415, R416). -/
def orMasked (a val k : Byte) : Byte := (a &&& (k &&& ~~~val)) ||| val

/-- LXA's usual value (47_undocumented_unusual.md R416). -/
def State.lxaUsual (s : State) (v : Byte) : Byte × State :=
  let c := s.drawFrom (lxaConsts s.board)
  let k := c.2.draw
  (orMasked s.a c.1 k.1 &&& v, k.2)

/-- The envelope of every reported behaviour of LXA: any byte with no bit outside the operand
(47_undocumented_unusual.md R416). -/
def State.lxaCleared (s : State) (v : Byte) : Byte × State := (s.draw.1 &&& v, s.draw.2)

/-- ARR with D = 0: C and V by the parameter ARR_FLAGS (47_undocumented_unusual.md R413; decision D17). -/
def arrBinary (v : Byte) (s : State) : State :=
  let t := s.a &&& v
  let r := (ror t s.p.c).1
  let p := s.p.withNZ r
  (s.setA r).setP (match s.board.arrFlags with
    | .plainRor => { p with c := t.getLsbD 0 }
    | .adder => { p with c := r.getLsbD 6, v := r.getLsbD 6 ^^ r.getLsbD 5 })

/-- ARR with D = 1: A, N, V, Z and C are drawn (47_undocumented_unusual.md R413, ARR_DECIMAL; log 15). -/
def arrDecimal (s : State) : Result :=
  let a := s.draw
  let f := a.2.draw
  .next ((f.2.setA a.1).setP { s.p with
    n := f.1.getLsbD 7, v := f.1.getLsbD 6, z := f.1.getLsbD 1, c := f.1.getLsbD 0 })

/-- $0B `ANC #$nn` (R411). -/
def execAncImm0B (v : Byte) (s : State) : Result :=
  let t := s.a &&& v
  .next (((s.setA t).setNZ t).setCarry (t.getLsbD 7))

/-- $2B `ANC #$nn` (R411). -/
def execAncImm2B (v : Byte) (s : State) : Result :=
  let t := s.a &&& v
  .next (((s.setA t).setNZ t).setCarry (t.getLsbD 7))

/-- $4B `ASR #$nn` (R412). -/
def execAsrImm (v : Byte) (s : State) : Result :=
  let q := lsr (s.a &&& v) s.p.c
  .next (((s.setA q.1).setNZ q.1).setCarry q.2)

/-- $6B `ARR #$nn` (R413). -/
def execArrImm (v : Byte) (s : State) : Result := if s.p.d then arrDecimal s else .next (arrBinary v s)

/-- $8B `ANE #$nn` (R415). The constant is drawn from the part's set, the mask from the bits outside it (log 13). -/
def execAneImm (v : Byte) (s : State) : Result :=
  let c := s.drawFrom (aneConsts s.board)
  let k := c.2.draw
  let r := orMasked s.a c.1 k.1 &&& s.x &&& v
  .next ((k.2.setA r).setNZ r)

/-- $93 `SHA ($nn),Y` (R421). -/
def execShaIzy (ptr : Byte) (s : State) : Result :=
  let b := pointerIzy ptr s
  .next (storeHigh b.1 s.y (s.a &&& s.x) b.2)

/-- $9B `SHS $nnnn,Y` (R424). S is written first, then stored. -/
def execShsAby (addr : Addr) (s : State) : Result := .next (storeHigh addr s.y (s.a &&& s.x) (s.setSp (s.a &&& s.x)))

/-- $9C `SHY $nnnn,X` (R423). -/
def execShyAbx (addr : Addr) (s : State) : Result := .next (storeHigh addr s.x s.y s)

/-- $9E `SHX $nnnn,Y` (R422). -/
def execShxAby (addr : Addr) (s : State) : Result := .next (storeHigh addr s.y s.x s)

/-- $9F `SHA $nnnn,Y` (R421). -/
def execShaAby (addr : Addr) (s : State) : Result := .next (storeHigh addr s.y (s.a &&& s.x) s)

/-- $AB `LXA #$nn` (R416). By a draw either the usual formula or any byte inside the operand (log 14). -/
def execLxaImm (v : Byte) (s : State) : Result :=
  let u := s.drawBool
  let r := if u.1 then u.2.lxaUsual v else u.2.lxaCleared v
  .next ((putAX r.2 r.1).setNZ r.1)

/-- $BB `LAS $nnnn,Y` (R425). -/
def execLasAby (addr : Addr) (s : State) : Result :=
  let r := readMem (.aby addr) s
  let t := r.1 &&& s.sp
  .next ((putAX (r.2.setSp t) t).setNZ t)

/-- $CB `SBX #$nn` (R414). -/
def execSbxImm (v : Byte) (s : State) : Result :=
  let q := compare (s.a &&& s.x) v s.p
  .next ((s.setX q.1).setP q.2)

end Sys2Proof.Machine
end

