-- ==== Sys2Proof/Machine/Dispatch.lean ====
section
/-! DEFINITION. The dispatch: each constructor of `Instr` to its meaning. -/

namespace Sys2Proof.Machine

def exec (i : Instr) (s : State) : Host.Outcome State Fault Refusal :=
  match i with
  | .brk => Sys2Proof.Machine.execBrk s
  | .oraIzx ptr => Sys2Proof.Machine.execOraIzx ptr s
  | .jam02 => Sys2Proof.Machine.execJam02 s
  | .sloIzx ptr => Sys2Proof.Machine.execSloIzx ptr s
  | .nopZp04 d => Sys2Proof.Machine.execNopZp04 d s
  | .oraZp d => Sys2Proof.Machine.execOraZp d s
  | .aslZp d => Sys2Proof.Machine.execAslZp d s
  | .sloZp d => Sys2Proof.Machine.execSloZp d s
  | .php => Sys2Proof.Machine.execPhp s
  | .oraImm v => Sys2Proof.Machine.execOraImm v s
  | .aslAcc => Sys2Proof.Machine.execAslAcc s
  | .ancImm0B v => Sys2Proof.Machine.execAncImm0B v s
  | .nopAbs addr => Sys2Proof.Machine.execNopAbs addr s
  | .oraAbs addr => Sys2Proof.Machine.execOraAbs addr s
  | .aslAbs addr => Sys2Proof.Machine.execAslAbs addr s
  | .sloAbs addr => Sys2Proof.Machine.execSloAbs addr s
  | .bplRel off => Sys2Proof.Machine.execBplRel off s
  | .oraIzy ptr => Sys2Proof.Machine.execOraIzy ptr s
  | .jam12 => Sys2Proof.Machine.execJam12 s
  | .sloIzy ptr => Sys2Proof.Machine.execSloIzy ptr s
  | .nopZpx14 d => Sys2Proof.Machine.execNopZpx14 d s
  | .oraZpx d => Sys2Proof.Machine.execOraZpx d s
  | .aslZpx d => Sys2Proof.Machine.execAslZpx d s
  | .sloZpx d => Sys2Proof.Machine.execSloZpx d s
  | .clc => Sys2Proof.Machine.execClc s
  | .oraAby addr => Sys2Proof.Machine.execOraAby addr s
  | .nop1A => Sys2Proof.Machine.execNop1A s
  | .sloAby addr => Sys2Proof.Machine.execSloAby addr s
  | .nopAbx1C addr => Sys2Proof.Machine.execNopAbx1C addr s
  | .oraAbx addr => Sys2Proof.Machine.execOraAbx addr s
  | .aslAbx addr => Sys2Proof.Machine.execAslAbx addr s
  | .sloAbx addr => Sys2Proof.Machine.execSloAbx addr s
  | .jsrAbs addr => Sys2Proof.Machine.execJsrAbs addr s
  | .andIzx ptr => Sys2Proof.Machine.execAndIzx ptr s
  | .jam22 => Sys2Proof.Machine.execJam22 s
  | .rlaIzx ptr => Sys2Proof.Machine.execRlaIzx ptr s
  | .bitZp d => Sys2Proof.Machine.execBitZp d s
  | .andZp d => Sys2Proof.Machine.execAndZp d s
  | .rolZp d => Sys2Proof.Machine.execRolZp d s
  | .rlaZp d => Sys2Proof.Machine.execRlaZp d s
  | .plp => Sys2Proof.Machine.execPlp s
  | .andImm v => Sys2Proof.Machine.execAndImm v s
  | .rolAcc => Sys2Proof.Machine.execRolAcc s
  | .ancImm2B v => Sys2Proof.Machine.execAncImm2B v s
  | .bitAbs addr => Sys2Proof.Machine.execBitAbs addr s
  | .andAbs addr => Sys2Proof.Machine.execAndAbs addr s
  | .rolAbs addr => Sys2Proof.Machine.execRolAbs addr s
  | .rlaAbs addr => Sys2Proof.Machine.execRlaAbs addr s
  | .bmiRel off => Sys2Proof.Machine.execBmiRel off s
  | .andIzy ptr => Sys2Proof.Machine.execAndIzy ptr s
  | .jam32 => Sys2Proof.Machine.execJam32 s
  | .rlaIzy ptr => Sys2Proof.Machine.execRlaIzy ptr s
  | .nopZpx34 d => Sys2Proof.Machine.execNopZpx34 d s
  | .andZpx d => Sys2Proof.Machine.execAndZpx d s
  | .rolZpx d => Sys2Proof.Machine.execRolZpx d s
  | .rlaZpx d => Sys2Proof.Machine.execRlaZpx d s
  | .sec => Sys2Proof.Machine.execSec s
  | .andAby addr => Sys2Proof.Machine.execAndAby addr s
  | .nop3A => Sys2Proof.Machine.execNop3A s
  | .rlaAby addr => Sys2Proof.Machine.execRlaAby addr s
  | .nopAbx3C addr => Sys2Proof.Machine.execNopAbx3C addr s
  | .andAbx addr => Sys2Proof.Machine.execAndAbx addr s
  | .rolAbx addr => Sys2Proof.Machine.execRolAbx addr s
  | .rlaAbx addr => Sys2Proof.Machine.execRlaAbx addr s
  | .rti => Sys2Proof.Machine.execRti s
  | .eorIzx ptr => Sys2Proof.Machine.execEorIzx ptr s
  | .jam42 => Sys2Proof.Machine.execJam42 s
  | .sreIzx ptr => Sys2Proof.Machine.execSreIzx ptr s
  | .nopZp44 d => Sys2Proof.Machine.execNopZp44 d s
  | .eorZp d => Sys2Proof.Machine.execEorZp d s
  | .lsrZp d => Sys2Proof.Machine.execLsrZp d s
  | .sreZp d => Sys2Proof.Machine.execSreZp d s
  | .pha => Sys2Proof.Machine.execPha s
  | .eorImm v => Sys2Proof.Machine.execEorImm v s
  | .lsrAcc => Sys2Proof.Machine.execLsrAcc s
  | .asrImm v => Sys2Proof.Machine.execAsrImm v s
  | .jmpAbs addr => Sys2Proof.Machine.execJmpAbs addr s
  | .eorAbs addr => Sys2Proof.Machine.execEorAbs addr s
  | .lsrAbs addr => Sys2Proof.Machine.execLsrAbs addr s
  | .sreAbs addr => Sys2Proof.Machine.execSreAbs addr s
  | .bvcRel off => Sys2Proof.Machine.execBvcRel off s
  | .eorIzy ptr => Sys2Proof.Machine.execEorIzy ptr s
  | .jam52 => Sys2Proof.Machine.execJam52 s
  | .sreIzy ptr => Sys2Proof.Machine.execSreIzy ptr s
  | .nopZpx54 d => Sys2Proof.Machine.execNopZpx54 d s
  | .eorZpx d => Sys2Proof.Machine.execEorZpx d s
  | .lsrZpx d => Sys2Proof.Machine.execLsrZpx d s
  | .sreZpx d => Sys2Proof.Machine.execSreZpx d s
  | .cli => Sys2Proof.Machine.execCli s
  | .eorAby addr => Sys2Proof.Machine.execEorAby addr s
  | .nop5A => Sys2Proof.Machine.execNop5A s
  | .sreAby addr => Sys2Proof.Machine.execSreAby addr s
  | .nopAbx5C addr => Sys2Proof.Machine.execNopAbx5C addr s
  | .eorAbx addr => Sys2Proof.Machine.execEorAbx addr s
  | .lsrAbx addr => Sys2Proof.Machine.execLsrAbx addr s
  | .sreAbx addr => Sys2Proof.Machine.execSreAbx addr s
  | .rts => Sys2Proof.Machine.execRts s
  | .adcIzx ptr => Sys2Proof.Machine.execAdcIzx ptr s
  | .jam62 => Sys2Proof.Machine.execJam62 s
  | .rraIzx ptr => Sys2Proof.Machine.execRraIzx ptr s
  | .nopZp64 d => Sys2Proof.Machine.execNopZp64 d s
  | .adcZp d => Sys2Proof.Machine.execAdcZp d s
  | .rorZp d => Sys2Proof.Machine.execRorZp d s
  | .rraZp d => Sys2Proof.Machine.execRraZp d s
  | .pla => Sys2Proof.Machine.execPla s
  | .adcImm v => Sys2Proof.Machine.execAdcImm v s
  | .rorAcc => Sys2Proof.Machine.execRorAcc s
  | .arrImm v => Sys2Proof.Machine.execArrImm v s
  | .jmpInd addr => Sys2Proof.Machine.execJmpInd addr s
  | .adcAbs addr => Sys2Proof.Machine.execAdcAbs addr s
  | .rorAbs addr => Sys2Proof.Machine.execRorAbs addr s
  | .rraAbs addr => Sys2Proof.Machine.execRraAbs addr s
  | .bvsRel off => Sys2Proof.Machine.execBvsRel off s
  | .adcIzy ptr => Sys2Proof.Machine.execAdcIzy ptr s
  | .jam72 => Sys2Proof.Machine.execJam72 s
  | .rraIzy ptr => Sys2Proof.Machine.execRraIzy ptr s
  | .nopZpx74 d => Sys2Proof.Machine.execNopZpx74 d s
  | .adcZpx d => Sys2Proof.Machine.execAdcZpx d s
  | .rorZpx d => Sys2Proof.Machine.execRorZpx d s
  | .rraZpx d => Sys2Proof.Machine.execRraZpx d s
  | .sei => Sys2Proof.Machine.execSei s
  | .adcAby addr => Sys2Proof.Machine.execAdcAby addr s
  | .nop7A => Sys2Proof.Machine.execNop7A s
  | .rraAby addr => Sys2Proof.Machine.execRraAby addr s
  | .nopAbx7C addr => Sys2Proof.Machine.execNopAbx7C addr s
  | .adcAbx addr => Sys2Proof.Machine.execAdcAbx addr s
  | .rorAbx addr => Sys2Proof.Machine.execRorAbx addr s
  | .rraAbx addr => Sys2Proof.Machine.execRraAbx addr s
  | .nopImm80 v => Sys2Proof.Machine.execNopImm80 v s
  | .staIzx ptr => Sys2Proof.Machine.execStaIzx ptr s
  | .nopImm82 v => Sys2Proof.Machine.execNopImm82 v s
  | .saxIzx ptr => Sys2Proof.Machine.execSaxIzx ptr s
  | .styZp d => Sys2Proof.Machine.execStyZp d s
  | .staZp d => Sys2Proof.Machine.execStaZp d s
  | .stxZp d => Sys2Proof.Machine.execStxZp d s
  | .saxZp d => Sys2Proof.Machine.execSaxZp d s
  | .dey => Sys2Proof.Machine.execDey s
  | .nopImm89 v => Sys2Proof.Machine.execNopImm89 v s
  | .txa => Sys2Proof.Machine.execTxa s
  | .aneImm v => Sys2Proof.Machine.execAneImm v s
  | .styAbs addr => Sys2Proof.Machine.execStyAbs addr s
  | .staAbs addr => Sys2Proof.Machine.execStaAbs addr s
  | .stxAbs addr => Sys2Proof.Machine.execStxAbs addr s
  | .saxAbs addr => Sys2Proof.Machine.execSaxAbs addr s
  | .bccRel off => Sys2Proof.Machine.execBccRel off s
  | .staIzy ptr => Sys2Proof.Machine.execStaIzy ptr s
  | .jam92 => Sys2Proof.Machine.execJam92 s
  | .shaIzy ptr => Sys2Proof.Machine.execShaIzy ptr s
  | .styZpx d => Sys2Proof.Machine.execStyZpx d s
  | .staZpx d => Sys2Proof.Machine.execStaZpx d s
  | .stxZpy d => Sys2Proof.Machine.execStxZpy d s
  | .saxZpy d => Sys2Proof.Machine.execSaxZpy d s
  | .tya => Sys2Proof.Machine.execTya s
  | .staAby addr => Sys2Proof.Machine.execStaAby addr s
  | .txs => Sys2Proof.Machine.execTxs s
  | .shsAby addr => Sys2Proof.Machine.execShsAby addr s
  | .shyAbx addr => Sys2Proof.Machine.execShyAbx addr s
  | .staAbx addr => Sys2Proof.Machine.execStaAbx addr s
  | .shxAby addr => Sys2Proof.Machine.execShxAby addr s
  | .shaAby addr => Sys2Proof.Machine.execShaAby addr s
  | .ldyImm v => Sys2Proof.Machine.execLdyImm v s
  | .ldaIzx ptr => Sys2Proof.Machine.execLdaIzx ptr s
  | .ldxImm v => Sys2Proof.Machine.execLdxImm v s
  | .laxIzx ptr => Sys2Proof.Machine.execLaxIzx ptr s
  | .ldyZp d => Sys2Proof.Machine.execLdyZp d s
  | .ldaZp d => Sys2Proof.Machine.execLdaZp d s
  | .ldxZp d => Sys2Proof.Machine.execLdxZp d s
  | .laxZp d => Sys2Proof.Machine.execLaxZp d s
  | .tay => Sys2Proof.Machine.execTay s
  | .ldaImm v => Sys2Proof.Machine.execLdaImm v s
  | .tax => Sys2Proof.Machine.execTax s
  | .lxaImm v => Sys2Proof.Machine.execLxaImm v s
  | .ldyAbs addr => Sys2Proof.Machine.execLdyAbs addr s
  | .ldaAbs addr => Sys2Proof.Machine.execLdaAbs addr s
  | .ldxAbs addr => Sys2Proof.Machine.execLdxAbs addr s
  | .laxAbs addr => Sys2Proof.Machine.execLaxAbs addr s
  | .bcsRel off => Sys2Proof.Machine.execBcsRel off s
  | .ldaIzy ptr => Sys2Proof.Machine.execLdaIzy ptr s
  | .jamB2 => Sys2Proof.Machine.execJamB2 s
  | .laxIzy ptr => Sys2Proof.Machine.execLaxIzy ptr s
  | .ldyZpx d => Sys2Proof.Machine.execLdyZpx d s
  | .ldaZpx d => Sys2Proof.Machine.execLdaZpx d s
  | .ldxZpy d => Sys2Proof.Machine.execLdxZpy d s
  | .laxZpy d => Sys2Proof.Machine.execLaxZpy d s
  | .clv => Sys2Proof.Machine.execClv s
  | .ldaAby addr => Sys2Proof.Machine.execLdaAby addr s
  | .tsx => Sys2Proof.Machine.execTsx s
  | .lasAby addr => Sys2Proof.Machine.execLasAby addr s
  | .ldyAbx addr => Sys2Proof.Machine.execLdyAbx addr s
  | .ldaAbx addr => Sys2Proof.Machine.execLdaAbx addr s
  | .ldxAby addr => Sys2Proof.Machine.execLdxAby addr s
  | .laxAby addr => Sys2Proof.Machine.execLaxAby addr s
  | .cpyImm v => Sys2Proof.Machine.execCpyImm v s
  | .cmpIzx ptr => Sys2Proof.Machine.execCmpIzx ptr s
  | .nopImmC2 v => Sys2Proof.Machine.execNopImmC2 v s
  | .dcpIzx ptr => Sys2Proof.Machine.execDcpIzx ptr s
  | .cpyZp d => Sys2Proof.Machine.execCpyZp d s
  | .cmpZp d => Sys2Proof.Machine.execCmpZp d s
  | .decZp d => Sys2Proof.Machine.execDecZp d s
  | .dcpZp d => Sys2Proof.Machine.execDcpZp d s
  | .iny => Sys2Proof.Machine.execIny s
  | .cmpImm v => Sys2Proof.Machine.execCmpImm v s
  | .dex => Sys2Proof.Machine.execDex s
  | .sbxImm v => Sys2Proof.Machine.execSbxImm v s
  | .cpyAbs addr => Sys2Proof.Machine.execCpyAbs addr s
  | .cmpAbs addr => Sys2Proof.Machine.execCmpAbs addr s
  | .decAbs addr => Sys2Proof.Machine.execDecAbs addr s
  | .dcpAbs addr => Sys2Proof.Machine.execDcpAbs addr s
  | .bneRel off => Sys2Proof.Machine.execBneRel off s
  | .cmpIzy ptr => Sys2Proof.Machine.execCmpIzy ptr s
  | .jamD2 => Sys2Proof.Machine.execJamD2 s
  | .dcpIzy ptr => Sys2Proof.Machine.execDcpIzy ptr s
  | .nopZpxD4 d => Sys2Proof.Machine.execNopZpxD4 d s
  | .cmpZpx d => Sys2Proof.Machine.execCmpZpx d s
  | .decZpx d => Sys2Proof.Machine.execDecZpx d s
  | .dcpZpx d => Sys2Proof.Machine.execDcpZpx d s
  | .cld => Sys2Proof.Machine.execCld s
  | .cmpAby addr => Sys2Proof.Machine.execCmpAby addr s
  | .nopDA => Sys2Proof.Machine.execNopDA s
  | .dcpAby addr => Sys2Proof.Machine.execDcpAby addr s
  | .nopAbxDC addr => Sys2Proof.Machine.execNopAbxDC addr s
  | .cmpAbx addr => Sys2Proof.Machine.execCmpAbx addr s
  | .decAbx addr => Sys2Proof.Machine.execDecAbx addr s
  | .dcpAbx addr => Sys2Proof.Machine.execDcpAbx addr s
  | .cpxImm v => Sys2Proof.Machine.execCpxImm v s
  | .sbcIzx ptr => Sys2Proof.Machine.execSbcIzx ptr s
  | .nopImmE2 v => Sys2Proof.Machine.execNopImmE2 v s
  | .isbIzx ptr => Sys2Proof.Machine.execIsbIzx ptr s
  | .cpxZp d => Sys2Proof.Machine.execCpxZp d s
  | .sbcZp d => Sys2Proof.Machine.execSbcZp d s
  | .incZp d => Sys2Proof.Machine.execIncZp d s
  | .isbZp d => Sys2Proof.Machine.execIsbZp d s
  | .inx => Sys2Proof.Machine.execInx s
  | .sbcImm v => Sys2Proof.Machine.execSbcImm v s
  | .nop => Sys2Proof.Machine.execNop s
  | .sbcImmEB v => Sys2Proof.Machine.execSbcImmEB v s
  | .cpxAbs addr => Sys2Proof.Machine.execCpxAbs addr s
  | .sbcAbs addr => Sys2Proof.Machine.execSbcAbs addr s
  | .incAbs addr => Sys2Proof.Machine.execIncAbs addr s
  | .isbAbs addr => Sys2Proof.Machine.execIsbAbs addr s
  | .beqRel off => Sys2Proof.Machine.execBeqRel off s
  | .sbcIzy ptr => Sys2Proof.Machine.execSbcIzy ptr s
  | .jamF2 => Sys2Proof.Machine.execJamF2 s
  | .isbIzy ptr => Sys2Proof.Machine.execIsbIzy ptr s
  | .nopZpxF4 d => Sys2Proof.Machine.execNopZpxF4 d s
  | .sbcZpx d => Sys2Proof.Machine.execSbcZpx d s
  | .incZpx d => Sys2Proof.Machine.execIncZpx d s
  | .isbZpx d => Sys2Proof.Machine.execIsbZpx d s
  | .sed => Sys2Proof.Machine.execSed s
  | .sbcAby addr => Sys2Proof.Machine.execSbcAby addr s
  | .nopFA => Sys2Proof.Machine.execNopFA s
  | .isbAby addr => Sys2Proof.Machine.execIsbAby addr s
  | .nopAbxFC addr => Sys2Proof.Machine.execNopAbxFC addr s
  | .sbcAbx addr => Sys2Proof.Machine.execSbcAbx addr s
  | .incAbx addr => Sys2Proof.Machine.execIncAbx addr s
  | .isbAbx addr => Sys2Proof.Machine.execIsbAbx addr s

end Sys2Proof.Machine
end

