-- ==== Sys2Proof/Machine/Inputs.lean ====
section
/-! DEFINITION. What the environment can do to the machine between two steps (93_implementation_defined.md U14,
60_exceptions.md R510 to R512). A claim about a run says which of them happen; no step calls
any but `pullReset`, for a -RESET that goes low inside it. -/

namespace Sys2Proof.Machine

/-- The devices assert (`true`) or release -IRQ (60_exceptions.md R510). -/
def State.setIrqLine (s : State) (asserted : Bool) : State := s.setInputs { s.inputs with irqLine := asserted }

/-- -NMI is pulled low (`true`) or let go: the high-to-low transition latches an NMI, holding the line low does
not (60_exceptions.md R511). -/
def State.setNmiLine (s : State) (low : Bool) : State :=
  let s1 := s.setInputs { s.inputs with nmiLine := low }
  if low && !s.inputs.nmiLine then s1.setNmiPending true else s1

/-- -NMI, now high, is pulled low in the course of the coming step (60_exceptions.md R525). -/
def State.pullNmiDuringStep (s : State) : State :=
  if s.inputs.nmiLine then s
  else s.setInputs { s.inputs with nmiLine := true, nmiArriving := true }

/-- -RESET is pulled low: every port line becomes an input at once (60_exceptions.md R512, 10_state.md R46). -/
def State.pullReset (s : State) : State :=
  (s.setInputs { s.inputs with resetPin := .held }).setDdr 0

/-- -RESET is pulled low in the course of the coming step, after that many of its bus cycles (60_exceptions.md R530).
A jammed processor has no bus cycles: there it is low at once. -/
def State.pullResetDuringStep (s : State) (cycles : Nat) : State :=
  if s.jammed then s.pullReset else s.setInputs { s.inputs with resetArriving := some cycles }

/-- -RESET is let go: the reset sequence is next (60_exceptions.md R512, R530). -/
def State.releaseReset (s : State) : State := s.setInputs { s.inputs with resetPin := .released }

/-- The outside changes PERIPH_IN, which stands then (10_state.md R43). -/
def State.setPeriphIn (s : State) (v : Byte) : State := s.setInputs { s.inputs with periphIn := v, periphNext := [] }

/-- PERIPH_IN as a function of time: its level in each of the bus cycles after the next one, whatever steps they
belong to (00_scope.md R8). -/
def State.schedulePeriphIn (s : State) (levels : List Byte) : State :=
  s.setInputs { s.inputs with periphNext := levels }

/-- A cartridge drives -GAME and -EXROM (20_memory.md R80). -/
def State.setCartridge (s : State) (game exrom : Bool) : State :=
  s.setInputs { s.inputs with game := game, exrom := exrom }

end Sys2Proof.Machine
end

