-- ==== Sys2Proof/Machine/Fetch.lean ====
section
/-! DEFINITION. What happens at an instruction boundary (60_exceptions.md R520, R521), the fetch of an
instruction's bytes (00_scope.md R15, 30_encoding.md R100), and what ends a step. -/

namespace Sys2Proof.Machine

/-- What a step does at its instruction boundary. -/
inductive Event where
  /-- -RESET has been let go: the reset sequence (60_exceptions.md R530) -/
  | reset
  /-- nothing architectural: -RESET is low (R512) or the processor is jammed (R520) -/
  | stuck
  /-- a latched NMI edge is taken (R520) -/
  | nmi
  /-- -IRQ is taken (R520) -/
  | irq
  /-- an instruction is fetched and executed (00_scope.md R15) -/
  | instruction
deriving DecidableEq, Repr

/-- The choice at a boundary: RESET first, then NMI, then IRQ (60_exceptions.md R520, R521; decisions D3, D5; log
19). P.I is read as it stands. -/
def State.event (s : State) : Event :=
  match s.inputs.resetPin with
  | .released => .reset
  | .held => .stuck
  | .inactive =>
    if s.jammed then .stuck
    else if s.nmiPending then .nmi
    else if s.inputs.irqLine && !s.p.i then .irq
    else .instruction

/-- Fetches one instruction: the opcode and its operand bytes, each by a read cycle at PC, which moves on
(10_state.md R24, R25). JSR alone fetches its last byte in its own last cycle, three cycles later, after its pushes:
here that byte is looked at, as it answers in that cycle, without a bus cycle, and PC stays on it (44_control_flow.md
R316; log 23). -/
def State.fetchInstr (s : State) : Instr × State :=
  let op := s.fetchByte
  match operandBytes op.1 with
  | 0 => (decodeOpcode op.1 0 0, op.2)
  | 1 =>
    let l := op.2.fetchByte
    (decodeOpcode op.1 l.1 0, l.2)
  | _ =>
    let l := op.2.fetchByte
    let h := if op.1 = 0x20 then l.2.answerAt (l.2.bus.length + 3) l.2.pc else l.2.fetchByte
    (decodeOpcode op.1 l.1 h.1, h.2)

/-- The end of a step that ran: an NMI edge that fell inside it is pending at the next boundary (60_exceptions.md
R511, R520), and the time of its bus cycles has passed (00_scope.md R8). -/
def settle : Result → Result
  | .next s => .next s.settleNmi.elapse
  | .fault r => .fault r
  | .refused r => .refused r

/-- The write cycles of a list of accesses done over. -/
def State.replay (s : State) : List BusAccess → State
  | [] => s
  | .read _ _ :: rest => s.replay rest
  | .write a v :: rest => (s.accept a v).replay rest

/-- A step that would end in `t` and into whose course -RESET falls after `k` bus cycles. If it is over by then it
has its effect. Else it is not completed: what it had written stays written, A, X, Y are as before it, and so
are the flags unless it had already pulled them (60_exceptions.md R530; log 20). -/
def State.cutShort (s t : State) (k : Nat) (pulled : Flags) : State :=
  let u := if t.bus.length ≤ k then t
    else (((s.replay (t.bus.take k)).setDraws t.draws).setBus (t.bus.take k)).setP pulled
  (u.setInputs { u.inputs with resetArriving := none }).pullReset

/-- The flags an unfinished instruction has already changed after `k` bus cycles: RTI pulls P in its cycle 4, before
PC (45_stack_flags_system.md R350). Every other instruction sets flags in its last cycle. -/
def earlyFlags (i : Instr) (s t : State) (k : Nat) : Flags := if i = .rti ∧ 4 ≤ k then t.p else s.p

/-- The end of a step that began in `s`: complete, or cut short by -RESET (60_exceptions.md R530). -/
def finish (s : State) (flags : State → Nat → Flags) (r : Result) : Result :=
  match s.inputs.resetArriving, r with
  | none, r => settle r
  | some k, .next t => settle (.next (s.cutShort t k (flags t k)))
  | some _, r => r

/-- Bytes put into RAM from an address on (log 6: a program is loaded from outside the machine). -/
def loadBytes (m : Memory) (a : Addr) : List Byte → Memory
  | [] => m
  | v :: rest => loadBytes (m.write a.toNat v) (a + 1) rest

/-- The three bytes from an address on are RAM. -/
def State.ramAt (s : State) (a : Addr) : Bool :=
  s.target a == .ram && s.target (a + 1) == .ram && s.target (a + 2) == .ram

/-- Where a loaded instruction goes: at PC if RAM answers there, else at $0200 (log 6). -/
def State.loadAddr (s : State) : Addr := if s.ramAt s.pc then s.pc else 0x0200

/-- No jam and no event keeps the next step from fetching. -/
def State.readyToFetch (s : State) : State :=
  ((s.setJammed false).setNmiPending false).setInputs
    { s.inputs with irqLine := false, nmiArriving := false, resetPin := .inactive, resetArriving := none }

end Sys2Proof.Machine
end

