-- ==== Sys2Proof/Machine/Step.lean ====
section
/-! DEFINITION. One step: an instruction, an interrupt sequence or the reset sequence (00_scope.md R15,
60_exceptions.md R520), and the host's placement of an instruction where the next step fetches. -/

namespace Sys2Proof.Machine

/-- One step from one instruction boundary to the next. `bus` holds this step's accesses alone (log 28). -/
def step (s : State) : Host.Outcome State Fault Refusal :=
  let s0 := s.setBus []
  match s0.event with
  | .reset => finish s0 (fun _ _ => s0.p) (.next s0.resetSequence)
  | .stuck => .next s0
  | .nmi => finish s0 (fun _ _ => s0.p) (.next ((s0.setNmiPending false).interruptSequence nmiVector))
  | .irq => finish s0 (fun _ _ => s0.p) (.next (s0.interruptSequence s0.board.irqVector))
  | .instruction => finish s0 (earlyFlags s0.fetchInstr.1 s0) (exec s0.fetchInstr.1 s0.fetchInstr.2)

/-- The state with an instruction, its bits numbered as spec/opcode_table.json numbers them, stored where the next
step fetches it (log 6). -/
def State.withFetchWord (s : State) (nbits w : Nat) : State :=
  let s1 := s.readyToFetch
  (s1.setPc s1.loadAddr).setMem (loadBytes s1.mem s1.loadAddr (wordBytes nbits w))

end Sys2Proof.Machine
end

