-- ==== Sys2Proof/Machine/Launch.lean ====
section
/-! DEFINITION. Running a program on the machine: its launch premises by name, what the environment does between steps,
and how a run ends (70_reset_and_hazards.md R554; decision D19; log 33). No step uses them: they are the terms in
which a claim about a program's run is stated. -/

namespace Sys2Proof.Machine

/-- A program as its launch names it (70_reset_and_hazards.md R554). -/
structure Program where
  /-- the load address -/
  load : Addr
  /-- the bytes loaded there -/
  image : List Byte
  /-- the entry address -/
  entry : Addr
  /-- the caller's return address, which is where the run ends -/
  back : Addr
  /-- the vectors the program owns, each by the address of its low byte -/
  vectors : List Addr
deriving DecidableEq, Repr

/-- The bytes stand in memory from an address on, modulo 65536. -/
def holdsBytes (m : Memory) (a : Addr) : List Byte → Bool
  | [] => true
  | v :: rest => m.read a.toNat == v && holdsBytes m (a + 1) rest

/-- Premise (1): the program's bytes are in memory at its load address (R554). -/
def Program.loaded (prog : Program) (s : State) : Bool := holdsBytes s.mem prog.load prog.image

/-- Premise (3): the caller's return address minus 1 lies on the stack at `$0100 + S + 1` and `+ 2`, low byte first;
S is any value (R554). -/
def Program.callerOnStack (prog : Program) (s : State) : Bool :=
  s.mem.read (w16 0x01 (s.sp + 1)).toNat == lo (prog.back - 1) &&
    s.mem.read (w16 0x01 (s.sp + 2)).toNat == hi (prog.back - 1)

/-- Premise (5): on the Commodore 64 map the port has DDR = $2F and PRL = $37 (R554, 10_state.md R47). -/
def State.portLaunched (s : State) : Bool :=
  !(s.hasPort && s.board.platform == .c64) || s.ddr == 0x2F && s.prl == 0x37

/-- The launch premises (1) to (5), and that END_PC is the caller's return address (R554). P.D is 0; A, X, Y, S, the
other flags and, premise (6), -IRQ and -NMI are free. A processor that is launched is not jammed. -/
def Program.launched (prog : Program) (s : State) : Bool :=
  prog.loaded s && s.pc == prog.entry && prog.callerOnStack s && !s.p.d && s.portLaunched &&
    s.board.endPc == some prog.back && !s.jammed

/-- What premise (6) lets a claim assume once the program has executed SEI: I is 1, and the platform raises no NMI
(R554). -/
def State.undisturbed (s : State) : Bool := s.p.i && !s.nmiPending && !s.inputs.nmiArriving

/-- A machine with a program launched on it: premises (1) to (5) brought about, everything else as it was (R554). The
premises hold of it unless the program lies on the stack slots of its own return address. -/
def State.launch (s : State) (prog : Program) : State :=
  let caller := [lo (prog.back - 1), hi (prog.back - 1)]
  let m := loadBytes (loadBytes s.mem (w16 0x01 (s.sp + 1)) (caller.take 1)) (w16 0x01 (s.sp + 2)) (caller.drop 1)
  let onC64 := s.hasPort && s.board.platform == .c64
  { s with
    mem := loadBytes m prog.load prog.image, pc := prog.entry, p := { s.p with d := false }, jammed := false,
    ddr := if onC64 then 0x2F else s.ddr, prl := if onC64 then 0x37 else s.prl,
    board := { s.board with endPc := some prog.back } }

/-- A run has ended: the processor is jammed, or PC has reached END_PC at an instruction boundary (R554, decision D19;
log 33). -/
def State.ended (s : State) : Bool := s.jammed || s.board.endPc == some s.pc

/-- The step due at `s` is a BRK that goes through a vector the program does not own: its sixth bus cycle reads that
vector (R554, 45_stack_flags_system.md R355). DESIGN CHOICE: a BRK that -RESET cuts off once that read is made counts as
gone through the vector, though PC is never loaded; one cut off before it does not. The spec says neither (log 33). -/
def Program.breaksAway (prog : Program) (s : State) : Bool :=
  match (s.setBus []).event, (s.setBus []).fetchInstr.1, step s with
  | .instruction, .brk, .next t =>
    match t.bus.drop 5 with
    | .read vec _ :: _ => !prog.vectors.contains vec
    | _ => false
  | _, _, _ => false

/-- How a run ends: `returned` is the end the program is meant to reach, the other two are failures (R554). -/
inductive RunEnd where
  /-- PC has reached END_PC, by the RTS that pulls the caller's return address -/
  | returned
  /-- the processor is jammed -/
  | jammed
  /-- a BRK goes through a vector the program does not own -/
  | brokeAway
deriving DecidableEq, Repr

/-- The end of the run at an instruction boundary, if it has come (R554). DESIGN CHOICE: where two fall together the
jam goes before the return, and the return before the BRK (log 33). -/
def Program.runEnd (prog : Program) (s : State) : Option RunEnd :=
  if s.jammed then some .jammed
  else if s.board.endPc == some s.pc then some .returned
  else if prog.breaksAway s then some .brokeAway
  else none

/-- What the environment can do at an instruction boundary (93_implementation_defined.md U14). -/
inductive Stimulus where
  | irqLine (asserted : Bool)
  | nmiLine (low : Bool)
  | nmiDuringStep
  | pullReset
  | resetDuringStep (cycles : Nat)
  | releaseReset
  | periphIn (level : Byte)
  | schedulePeriphIn (levels : List Byte)
  | cartridge (game exrom : Bool)
deriving DecidableEq, Repr

/-- What each of them does to the machine (Machine/Inputs.lean). -/
def State.stimulate (s : State) : Stimulus → State
  | .irqLine asserted => s.setIrqLine asserted
  | .nmiLine low => s.setNmiLine low
  | .nmiDuringStep => s.pullNmiDuringStep
  | .pullReset => s.pullReset
  | .resetDuringStep cycles => s.pullResetDuringStep cycles
  | .releaseReset => s.releaseReset
  | .periphIn level => s.setPeriphIn level
  | .schedulePeriphIn levels => s.schedulePeriphIn levels
  | .cartridge game exrom => s.setCartridge game exrom

/-- The n-th instruction boundary of a run, after what the environment does there: this is where it is decided whether
the run has ended. Where it has not, a step leads to the next boundary; a run that has ended stays (R554). -/
def Program.run (prog : Program) (environment : Nat → List Stimulus) (s : State) : Nat → State
  | 0 => (environment 0).foldl State.stimulate s
  | n + 1 =>
    let now := prog.run environment s n
    match prog.runEnd now, step now with
    | none, .next t => (environment (n + 1)).foldl State.stimulate t
    | _, _ => now

/-- The run ends at some boundary, in this way (R554). -/
def Program.endsBy (prog : Program) (environment : Nat → List Stimulus) (s : State) (how : RunEnd) : Prop :=
  ∃ n, prog.runEnd (prog.run environment s n) = some how

/-- The run ends at no boundary, so that it never reaches END_PC: the third failing outcome (R554). -/
def Program.endless (prog : Program) (environment : Nat → List Stimulus) (s : State) : Prop :=
  ∀ n, prog.runEnd (prog.run environment s n) = none

end Sys2Proof.Machine
end

