-- ==== Sys2Proof/Machine/Timing.lean ====
section
/-! DEFINITION. Cycle counts (40_addressing_modes.md R165, 70_reset_and_hazards.md R572). No step uses them: a cycle
is one bus access, so they say how many accesses an instruction's step makes. -/

namespace Sys2Proof.Machine

/-- The access classes (40_addressing_modes.md R140). -/
inductive AccessClass where
  | read | write | modify
deriving DecidableEq, Repr

/-- The access class of a mnemonic with a memory operand; every other mnemonic counts as read (R140; SHS writes,
90_conflicts.md C3). -/
def accessClass : Mnemonic → AccessClass
  | .sta | .stx | .sty | .sax | .sha | .shx | .shy | .shs => .write
  | .asl | .lsr | .rol | .ror | .inc | .dec | .slo | .sre | .rla | .rra | .isb | .dcp => .modify
  | _ => .read

/-- The cycles of a memory operand's mode in each class, without a page crossing (R165). -/
def memCycles (k : AccessClass) : MemMode → Nat
  | .zp _ => if k = .modify then 5 else 3
  | .zpx _ | .zpy _ | .abs _ => if k = .modify then 6 else 4
  | .abx _ | .aby _ =>
    match k with
    | .read => 4
    | .write => 5
    | .modify => 7
  | .izx _ => if k = .modify then 8 else 6
  | .izy _ =>
    match k with
    | .read => 5
    | .write => 6
    | .modify => 8

/-- The cycles of an instruction without the extra ones; none for a jam, whose count the spec does not give
(R165, 70_reset_and_hazards.md R572). Nor does it give the count of `$82 $C2 $E2` where they jam: DESIGN CHOICE, the two
of the NOP (log 12). -/
def cycles (i : Instr) : Option Nat :=
  match i.mnemonic, i.operand with
  | .jam, _ => none
  | .pha, _ | .php, _ => some 3
  | .pla, _ | .plp, _ => some 4
  | .rts, _ | .rti, _ => some 6
  | .brk, _ => some 7
  | .jsr, _ => some 6
  | .jmp, .source _ => some 3
  | .jmp, _ => some 5
  | m, .source (.mem mode) => some (memCycles (accessClass m) mode)
  | _, _ => some 2

/-- The condition of a branch (44_control_flow.md R320 to R327). -/
def branchTaken : Mnemonic → Flags → Bool
  | .bpl, p => !p.n
  | .bmi, p => p.n
  | .bvc, p => !p.v
  | .bvs, p => p.v
  | .bcc, p => !p.c
  | .bcs, p => p.c
  | .bne, p => !p.z
  | .beq, p => p.z
  | _, _ => false

/-- The extra cycle of a read across a page (R147, R151), in the state after the instruction's fetch. -/
def crossingCycles (k : AccessClass) (m : MemMode) (s : State) : Nat :=
  match k, m with
  | .read, .abx addr => (crosses addr s.x).toNat
  | .read, .aby addr => (crosses addr s.y).toNat
  | .read, .izy ptr => (crosses (pointerIzy ptr s).1 s.y).toNat
  | _, _ => 0

/-- The extra cycles of an instruction, in the state after its fetch: a page crossed by a read, a taken branch, a
branch to another page (R165, 44_control_flow.md R312). -/
def extraCycles (i : Instr) (s : State) : Nat :=
  match i.operand with
  | .source (.mem m) => crossingCycles (accessClass i.mnemonic) m s
  | .relative off =>
    if branchTaken i.mnemonic s.p then (if hi (s.pc + offset off) = hi s.pc then 1 else 2) else 0
  | _ => 0

end Sys2Proof.Machine
end

