-- ==== Sys2Proof/Safety.lean ====
section
/-! DEFINITION. The terms in which claims speak of the machine: the invariant of the state, what a step
leaves alone, and what a read gives. No step uses them. -/

namespace Sys2Proof.Machine

/-- The colour RAM is a canonical memory of nybbles at $D800 to $DBFF (20_memory.md R83). -/
def nybbles (m : Memory) : Bool :=
  m.wf && m.all fun c => decide (0xD800 ≤ c.1) && decide (c.1 < 0xDC00) && decide (c.2.toNat < 16)

/-- The invariant of the state: both memories in canonical form, and no bit of a port register set where the part
has no line (10_state.md R41, R42; decisions D2, D9). -/
def State.inv (s : State) : Bool :=
  s.mem.wf && nybbles s.colorRam && (s.ddr &&& ~~~(portMask s.board.variant)) == 0
    && (s.prl &&& ~~~(portMask s.board.variant)) == 0

/-- The machine of the spec's own examples: a plain 6502 with 64 KiB of RAM, so that every address is RAM
(00_scope.md R8; decisions D2, D4). -/
def State.allRam (s : State) : Prop := s.board.variant = .mos6502 ∧ s.board.platform = .flat

/-- What no instruction touches: the parameters and the external inputs, and the jam and the NMI latch but for the
instructions that say so. -/
def keepsRest (s t : State) : Prop :=
  t.jammed = s.jammed ∧ t.nmiPending = s.nmiPending ∧ t.inputs = s.inputs ∧ t.board = s.board

/-- Every byte of RAM and of colour RAM reads as before, and so do the port registers. -/
def keepsMemory (s t : State) : Prop :=
  (∀ b, t.mem.read b = s.mem.read b) ∧ (∀ b, t.colorRam.read b = s.colorRam.read b) ∧
    t.ddr = s.ddr ∧ t.prl = s.prl

/-- Every byte outside the given addresses reads as before, and so do the port registers unless $0000 or $0001
is among them. -/
def keepsMemoryBut (stored : List Addr) (s t : State) : Prop :=
  (∀ b : Nat, b ∉ stored.map BitVec.toNat →
    t.mem.read b = s.mem.read b ∧ t.colorRam.read b = s.colorRam.read b) ∧
  (0 ∉ stored → t.ddr = s.ddr) ∧ (1 ∉ stored → t.prl = s.prl)

/-- RAM, colour RAM and the port are as the stores in the list, first one first, leave them: each is what
`State.accept` does with an address and a byte (10_state.md R42, 20_memory.md R82). -/
def holdsStores (stores : List (Addr × Byte)) (s t : State) : Prop :=
  let u := stores.foldl (fun w c => w.accept c.1 c.2) s
  t.mem = u.mem ∧ t.colorRam = u.colorRam ∧ t.ddr = u.ddr ∧ t.prl = u.prl

/-- A byte read at an address in state `s`, memory then being `m`: RAM's where RAM answers, the ROM's where one of the
Commodore 64's own ROMs does (20_memory.md R81). What the port, an external ROM or nothing at all answers is not
said. -/
def givesByte (s : State) (m : Memory) (addr : Addr) (v : Byte) : Prop :=
  (s.target addr = .ram → v = m.read addr.toNat) ∧
  (s.target addr ∈ [Target.basicRom, .kernalRom, .charRom] → v = (s.answer addr).1)

/-- A, X, Y, S as before. -/
def keepsRegisters (s t : State) : Prop := t.a = s.a ∧ t.x = s.x ∧ t.y = s.y ∧ t.sp = s.sp

end Sys2Proof.Machine
end

