-- ==== Sys2Proof/Certificates/Slice0/Obligations.lean ====
section
/-! DEFINITION. The statements for the provers. In every statement about `exec i s`, `s` is the state after the
instruction's bytes have been fetched: PC is the address after them, but for JSR, whose PC is still at its third
byte (notes/assumptions/23.md). Each says which next state is reached, so none is true of a machine that
stops. -/

open Sys2Proof Sys2Proof.Machine

/-! ## Encoding -/

/-- Every instruction is well-formed, and decoding its encoding, whatever follows it, gives it back (30_encoding.md
R100, R101). -/
def Obligations.DecodeOfEncodeIsIdentity : Prop :=
  ∀ (i : Instr) (rest : List Byte), i.wellFormed = true ∧ decode (encode i ++ rest) = .ok (i, rest)

/-- Every byte list that decodes is the encoding of what it decodes to: no two lists mean one instruction. -/
def Obligations.EncodeOfDecodeIsIdentity : Prop :=
  ∀ (bytes rest : List Byte) (i : Instr), decode bytes = .ok (i, rest) → encode i ++ rest = bytes

/-- All 256 opcode values are defined, and the opcode byte alone determines the operation, the mode and the length,
which is that of the mode (30_encoding.md R100, R111). -/
def Obligations.EveryOpcodeDecodes : Prop :=
  ∀ op l h l' h' : Byte, ∃ i i' rest rest',
    decode [op, l, h] = .ok (i, rest) ∧ decode [op, l', h'] = .ok (i', rest') ∧
      (encode i).head? = some op ∧ i.mnemonic = i'.mnemonic ∧ i.operand.mode = i'.operand.mode ∧
      (encode i).length = i.operand.mode.bytes ∧ rest.length + i.operand.mode.bytes = 3

/-- Words written out from the opcode matrix, one or more for each family, decode to what they stand for. -/
def Obligations.SampleWordsDecode : Prop :=
  decode [0xBD, 0xFD, 0xDC] = .ok (.ldaAbx 0xDCFD, []) ∧ decode [0x91, 0x2B] = .ok (.staIzy 0x2B, []) ∧
  decode [0xAA] = .ok (.tax, []) ∧ decode [0x29, 0xB7] = .ok (.andImm 0xB7, []) ∧
  decode [0x2C, 0xA9, 0x38] = .ok (.bitAbs 0x38A9, []) ∧ decode [0x69, 0x7A] = .ok (.adcImm 0x7A, []) ∧
  decode [0x4E, 0x19, 0xD0] = .ok (.lsrAbs 0xD019, []) ∧ decode [0x6A] = .ok (.rorAcc, []) ∧
  decode [0x6C, 0xFF, 0x01] = .ok (.jmpInd 0x01FF, []) ∧ decode [0x10, 0x91] = .ok (.bplRel 0x91, []) ∧
  decode [0x40] = .ok (.rti, []) ∧ decode [0x00] = .ok (.brk, []) ∧
  decode [0xDB, 0x80, 0x20] = .ok (.dcpAby 0x2080, []) ∧ decode [0xF2] = .ok (.jamF2, []) ∧
  decode [0x93, 0x20] = .ok (.shaIzy 0x20, []) ∧ decode [0xCB, 0x10] = .ok (.sbxImm 0x10, [])

/-! ## Memory, the on-chip port and the platform -/

/-- A write cycle to RAM is read back by a read cycle there, and leaves every other byte, the port and every
register alone (20_memory.md R70). -/
def Obligations.RamReturnsLastWrite : Prop :=
  ∀ (s : State) (addr : Addr) (v : Byte), s.mem.wf = true → s.target addr = .ram →
    ((s.write addr v).read addr).1 = v ∧
      (∀ b : Nat, b ≠ addr.toNat → (s.write addr v).mem.read b = s.mem.read b) ∧
      (s.write addr v).colorRam = s.colorRam ∧ (s.write addr v).ddr = s.ddr ∧ (s.write addr v).prl = s.prl ∧
      keepsRegisters s (s.write addr v) ∧ keepsRest s (s.write addr v) ∧
      (s.write addr v).pc = s.pc ∧ (s.write addr v).p = s.p

/-- On a part with a port, a write at $0000 sets DDR and one at $0001 sets the latch PRL, on the implemented lines,
and the level of an output line is its latch, that of an input line the outside's (10_state.md R42; that RAM beneath
is not written is decision D10) (log 27). -/
def Obligations.PortWriteSetsDirectionAndLatch : Prop :=
  ∀ (s : State) (v : Byte) (k : Nat), s.hasPort = true → (portMask s.board.variant).getLsbD k = true →
    (s.write 0 v).ddr.getLsbD k = v.getLsbD k ∧ (s.write 0 v).prl = s.prl ∧ (s.write 0 v).mem = s.mem ∧
    (s.write 1 v).prl.getLsbD k = v.getLsbD k ∧ (s.write 1 v).ddr = s.ddr ∧ (s.write 1 v).mem = s.mem ∧
    (∀ cycle, (s.lineLevels cycle).getLsbD k =
      if s.ddr.getLsbD k then s.prl.getLsbD k else (s.lineInputs cycle).getLsbD k)

/-- A read at $0000 gives DDR and one at $0001 gives, line by line, the latch of an output and the outside's level
of an input in that bus cycle, on the implemented lines; reads change no register, no memory and no port register (10_state.md R43).
The lines of which the Commodore 64 says nothing as inputs are left out (decision D9) (log 10). -/
def Obligations.PortReadGivesDirectionAndLevels : Prop :=
  ∀ (s : State) (k : Nat), s.hasPort = true → (portMask s.board.variant).getLsbD k = true →
    (s.read 0).1.getLsbD k = s.ddr.getLsbD k ∧
    (s.floatingLines.getLsbD k = false → (s.read 1).1.getLsbD k =
      if s.ddr.getLsbD k then s.prl.getLsbD k else (s.lineInputs s.bus.length).getLsbD k) ∧
    (∀ addr ∈ [(0 : Addr), 1], keepsMemory s (s.read addr).2 ∧ keepsRegisters s (s.read addr).2 ∧
      keepsRest s (s.read addr).2 ∧ (s.read addr).2.pc = s.pc ∧ (s.read addr).2.p = s.p)

/-- What the configuration table comes to in all 32 configurations. Without a cartridge BASIC is visible if LORAM and
HIRAM are 1, the Kernal if HIRAM is, the I/O area or the character ROM if either is. With EXROM 0 ROML is visible if
LORAM and HIRAM are 1, and with GAME 0 as well ROMH stands in BASIC's place if HIRAM is 1, and where LORAM alone is 1
CHAREN chooses between the I/O area and RAM. With EXROM 1 and GAME 0 only $0000-$0FFF is RAM. In the I/O area each range
reaches the registers of its owner, the VIC-II's again every $40 addresses, the SID's every $20 and a CIA's every 16
(20_memory.md R80, R81, R83).
The two expansion windows, of which R83 gives no mirroring, count 256 registers each (log 9).
The column of LORAM = HIRAM = GAME = EXROM = 0 is conflict C18 and IO/RAM conflict C19 as the spec resolves them (log
26). -/
def Obligations.BankingFollowsTable : Prop :=
  ∀ (s : State) (addr : Addr) (cycle : Nat), s.board.platform = .c64 →
    (s.hasPort = true → addr ≠ 0 ∧ addr ≠ 1) →
    let loram := (s.lineLevels cycle).getLsbD 0
    let hiram := (s.lineLevels cycle).getLsbD 1
    let charen := (s.lineLevels cycle).getLsbD 2
    let io :=
      if addr.toNat < 0xD400 then Target.device .vic (addr.toNat % 0x40)
      else if addr.toNat < 0xD800 then .device .sid (addr.toNat % 0x20)
      else if addr.toNat < 0xDC00 then .colorRam
      else if addr.toNat < 0xDD00 then .device .cia1 (addr.toNat % 16)
      else if addr.toNat < 0xDE00 then .device .cia2 (addr.toNat % 16)
      else if addr.toNat < 0xDF00 then .device .expansion1 (addr.toNat % 256)
      else .device .expansion2 (addr.toNat % 256)
    (addr.toNat < 0x1000 → s.target addr = .ram) ∧
    (s.inputs.game = true → s.inputs.exrom = true → 0x1000 ≤ addr.toNat → s.target addr =
      if addr.toNat < 0xA000 then .ram
      else if addr.toNat < 0xC000 then (if loram && hiram then .basicRom else .ram)
      else if addr.toNat < 0xD000 then .ram
      else if addr.toNat < 0xE000 then (if loram || hiram then (if charen then io else .charRom) else .ram)
      else if hiram then .kernalRom else .ram) ∧
    (s.inputs.game = true → s.inputs.exrom = false → 0x1000 ≤ addr.toNat → s.target addr =
      if addr.toNat < 0x8000 then .ram
      else if addr.toNat < 0xA000 then (if loram && hiram then .romL else .ram)
      else if addr.toNat < 0xC000 then (if loram && hiram then .basicRom else .ram)
      else if addr.toNat < 0xD000 then .ram
      else if addr.toNat < 0xE000 then (if loram || hiram then (if charen then io else .charRom) else .ram)
      else if hiram then .kernalRom else .ram) ∧
    (s.inputs.game = false → s.inputs.exrom = false → 0x1000 ≤ addr.toNat → s.target addr =
      if addr.toNat < 0x8000 then .ram
      else if addr.toNat < 0xA000 then (if loram && hiram then .romL else .ram)
      else if addr.toNat < 0xC000 then (if hiram then .romH else .ram)
      else if addr.toNat < 0xD000 then .ram
      else if addr.toNat < 0xE000 then
        (if hiram then (if charen then io else .charRom) else if loram && charen then io else .ram)
      else if hiram then .kernalRom else .ram) ∧
    (s.inputs.game = false → s.inputs.exrom = true → 0x1000 ≤ addr.toNat → s.target addr =
      if addr.toNat < 0x8000 then .openSpace
      else if addr.toNat < 0xA000 then .romL
      else if addr.toNat < 0xD000 then .openSpace
      else if addr.toNat < 0xE000 then io
      else .romH)

/-- A write to a ROM area reaches the RAM beneath while a read there still gives what it gave, but in the Ultimax
configuration the RAM beneath is not written; the colour RAM keeps the low nybble; the I/O area's other registers
leave RAM alone (20_memory.md R82, R83, decision D8) (log 26). -/
def Obligations.RomWritesGoThrough : Prop :=
  ∀ (s : State) (addr : Addr) (v : Byte),
    (s.target addr ∈ [Target.basicRom, .kernalRom, .charRom, .romL, .romH] →
      (s.inputs.game = true ∨ s.inputs.exrom = false →
        (s.write addr v).mem = s.mem.write addr.toNat v ∧
          ((s.write addr v).answer addr).1 = (s.answer addr).1) ∧
      (s.inputs.game = false → s.inputs.exrom = true → (s.write addr v).mem = s.mem)) ∧
    (s.target addr = .colorRam → nybbles s.colorRam = true → (s.write addr v).mem = s.mem ∧
      ((s.write addr v).answer addr).1 &&& 0x0F = v &&& 0x0F) ∧
    ((∃ owner register, s.target addr = .device owner register) ∨ s.target addr = .openSpace →
      (s.write addr v).mem = s.mem ∧ (s.write addr v).colorRam = s.colorRam)

/-! ## Addressing modes: effective addresses and bus cycles -/

/-- What a read-class operand reads, cycle by cycle, on the machine where every address is RAM: zero-page addresses
and pointers wrap inside page 0, indexed addresses wrap at $FFFF, and a page crossing reads the address with the
unfixed high byte first (40_addressing_modes.md R144 to R147, R150, R151). The dummy read of `(zp,X)` and the wrap
at $FFFF are log 22 and log 25. -/
def Obligations.ReadOperandCycles : Prop :=
  ∀ (s : State), s.allRam →
    let rd := fun addr : Addr => s.mem.read addr.toNat
    let cyc := fun addr : Addr => BusAccess.read addr (rd addr)
    let indexedRead := fun (before : List BusAccess) (base : Addr) (index : Byte) (q : Byte × State) =>
      let wrong := w16 (hi base) (lo base + index)
      let ea := base + index.setWidth 16
      q.1 = rd ea ∧ q.2.bus = s.bus ++ before ++
        (if 255 < (lo base).toNat + index.toNat then [cyc wrong, cyc ea] else [cyc ea])
    (∀ d, (readMem (.zp d) s).1 = rd (w16 0 d) ∧ (readMem (.zp d) s).2.bus = s.bus ++ [cyc (w16 0 d)]) ∧
    (∀ d, (readMem (.zpx d) s).1 = rd (w16 0 (d + s.x)) ∧
      (readMem (.zpx d) s).2.bus = s.bus ++ [cyc (w16 0 d), cyc (w16 0 (d + s.x))]) ∧
    (∀ d, (readMem (.zpy d) s).1 = rd (w16 0 (d + s.y)) ∧
      (readMem (.zpy d) s).2.bus = s.bus ++ [cyc (w16 0 d), cyc (w16 0 (d + s.y))]) ∧
    (∀ addr, (readMem (.abs addr) s).1 = rd addr ∧ (readMem (.abs addr) s).2.bus = s.bus ++ [cyc addr]) ∧
    (∀ base, indexedRead [] base s.x (readMem (.abx base) s)) ∧
    (∀ base, indexedRead [] base s.y (readMem (.aby base) s)) ∧
    (∀ ptr, let pl := w16 0 (ptr + s.x)
      let ph := w16 0 (ptr + s.x + 1)
      let ea := w16 (rd ph) (rd pl)
      (readMem (.izx ptr) s).1 = rd ea ∧
        (readMem (.izx ptr) s).2.bus = s.bus ++ [cyc (w16 0 ptr), cyc pl, cyc ph, cyc ea]) ∧
    (∀ ptr, let pl := w16 0 ptr
      let ph := w16 0 (ptr + 1)
      indexedRead [cyc pl, cyc ph] (w16 (rd ph) (rd pl)) s.y (readMem (.izy ptr) s))

/-- Where a write-class operand is stored and what it does cycle by cycle on the machine where every address is RAM:
as a read, but the indexed modes always read the unfixed address first (40_addressing_modes.md R144 to R146, R148,
R150, R152). The dummy read of `(zp,X)` and the wrap at $FFFF are log 22 and log 25. -/
def Obligations.WriteOperandCycles : Prop :=
  ∀ (s : State) (v : Byte), s.allRam →
    let rd := fun addr : Addr => s.mem.read addr.toNat
    let cyc := fun addr : Addr => BusAccess.read addr (rd addr)
    let stores := fun (before : List BusAccess) (ea : Addr) (t : State) =>
      t.bus = s.bus ++ before ++ [.write ea v] ∧ t.mem = s.mem.write ea.toNat v
    let wrong := fun (base : Addr) (index : Byte) => w16 (hi base) (lo base + index)
    (∀ d, stores [] (w16 0 d) (writeMem (.zp d) v s)) ∧
    (∀ d, stores [cyc (w16 0 d)] (w16 0 (d + s.x)) (writeMem (.zpx d) v s)) ∧
    (∀ d, stores [cyc (w16 0 d)] (w16 0 (d + s.y)) (writeMem (.zpy d) v s)) ∧
    (∀ addr, stores [] addr (writeMem (.abs addr) v s)) ∧
    (∀ base, stores [cyc (wrong base s.x)] (base + s.x.setWidth 16) (writeMem (.abx base) v s)) ∧
    (∀ base, stores [cyc (wrong base s.y)] (base + s.y.setWidth 16) (writeMem (.aby base) v s)) ∧
    (∀ ptr, let pl := w16 0 (ptr + s.x)
      let ph := w16 0 (ptr + s.x + 1)
      stores [cyc (w16 0 ptr), cyc pl, cyc ph] (w16 (rd ph) (rd pl)) (writeMem (.izx ptr) v s)) ∧
    (∀ ptr, let pl := w16 0 ptr
      let ph := w16 0 (ptr + 1)
      let base := w16 (rd ph) (rd pl)
      stores [cyc pl, cyc ph, cyc (wrong base s.y)] (base + s.y.setWidth 16) (writeMem (.izy ptr) v s))

/-- A read-modify-write operand ends in three cycles at its effective address: it is read, written back unmodified,
and written modified. Before them come the cycles of a store (40_addressing_modes.md R160; R144 to R146, R149, R150,
R153). -/
def Obligations.ModifyOperandCycles : Prop :=
  ∀ (s : State) (m : MemMode) (f : Byte → Byte),
    let e := storeAddress m s
    let b := (e.2.read e.1).1
    (modifyMem m f s).1 = b ∧
    (modifyMem m f s).2.bus = e.2.bus ++ [.read e.1 b, .write e.1 b, .write e.1 (f b)] ∧
    holdsStores [(e.1, b), (e.1, f b)] s (modifyMem m f s).2 ∧
    keepsMemoryBut [e.1] s (modifyMem m f s).2 ∧
    (s.target e.1 = .ram → s.mem.wf = true →
      b = s.mem.read e.1.toNat ∧ (modifyMem m f s).2.mem.read e.1.toNat = f b)

/-! ## Arithmetic functions -/

/-- `ADC(s)` with D = 0: A and C are the nine-bit sum, Z and N describe A, and V says that the signed sum does not
fit eight bits; D and I stay (42_logic_arithmetic.md R250). The rule marks the binary mode as general knowledge. -/
def Obligations.BinaryAdcIsTheSum : Prop :=
  ∀ (a v : Byte) (p : Flags), p.d = false →
    let r := adc a v p
    r.1.toNat + 256 * r.2.c.toNat = a.toNat + v.toNat + p.c.toNat ∧
    r.2.z = decide (r.1 = 0) ∧ r.2.n = decide (128 ≤ r.1.toNat) ∧
    (r.2.v = true ↔ r.1.toInt ≠ a.toInt + v.toInt + p.c.toNat) ∧ r.2.d = p.d ∧ r.2.i = p.i

/-- `ADC(s)` with D = 1: Z is the binary sum's, N and V are taken after the low digit's fixup and before the high
one's, C and A after both; on decimal digits A and C are the decimal sum (42_logic_arithmetic.md R250). -/
def Obligations.DecimalAdcAddsDigits : Prop :=
  ∀ (a v : Byte) (p : Flags), p.d = true →
    let r := adc a v p
    let dec := fun b : Byte => 10 * (b.toNat / 16) + b.toNat % 16
    let low := a.toNat % 16 + v.toNat % 16 + p.c.toNat
    let mid := a.toNat / 16 + v.toNat / 16 + (if 9 < low then 1 else 0)
    let high := if 9 < mid then mid + 6 else mid
    r.2.z = decide ((a.toNat + v.toNat + p.c.toNat) % 256 = 0) ∧
    r.2.n = decide (8 ≤ mid % 16) ∧
    r.2.v = decide ((8 ≤ mid % 16) ≠ (128 ≤ a.toNat) ∧ (128 ≤ a.toNat) = (128 ≤ v.toNat)) ∧
    r.2.c = decide (15 < high) ∧
    r.1.toNat = (16 * high + (if 9 < low then low + 6 else low) % 16) % 256 ∧
    r.2.d = p.d ∧ r.2.i = p.i ∧
    (a.toNat / 16 < 10 → a.toNat % 16 < 10 → v.toNat / 16 < 10 → v.toNat % 16 < 10 →
      dec r.1 + 100 * r.2.c.toNat = dec a + dec v + p.c.toNat ∧
        r.1.toNat / 16 < 10 ∧ r.1.toNat % 16 < 10)

/-- `SBC(s)`: the flags are those of the binary difference whatever D is; with D = 0 A is that difference, and with
D = 1, for every A, operand and C, the two nybble differences, each less 6 where it borrows, which on decimal digits
are the decimal difference (42_logic_arithmetic.md R252). The rule marks the binary flag formulas as general
knowledge. -/
def Obligations.SbcSubtractsWithBinaryFlags : Prop :=
  ∀ (a v : Byte) (p : Flags),
    let r := sbc a v p
    let t : Int := a.toNat - v.toNat - (1 - p.c.toNat)
    let dec := fun b : Byte => (10 * (b.toNat / 16) + b.toNat % 16 : Int)
    let low : Int := (a.toNat % 16 : Nat) - (v.toNat % 16 : Nat) - (1 - p.c.toNat)
    let high : Int := (a.toNat / 16 : Nat) - (v.toNat / 16 : Nat) - (if low < 0 then 1 else 0)
    r.2.c = decide (0 ≤ t) ∧ r.2.z = decide (t % 256 = 0) ∧ r.2.n = decide (128 ≤ t % 256) ∧
    (r.2.v = true ↔ (BitVec.ofInt 8 t).toInt ≠ a.toInt - v.toInt - (1 - p.c.toNat)) ∧
    r.2.d = p.d ∧ r.2.i = p.i ∧
    (p.d = false → (r.1.toNat : Int) = t % 256) ∧
    (p.d = true → (r.1.toNat : Int) =
      (16 * (if high < 0 then high - 6 else high) + (if low < 0 then low - 6 else low) % 16) % 256) ∧
    (p.d = true → a.toNat / 16 < 10 → a.toNat % 16 < 10 → v.toNat / 16 < 10 → v.toNat % 16 < 10 →
      dec r.1 = (dec a - dec v - (1 - p.c.toNat)) % 100)

/-- The four functions of the shifts and rotates, with the carry each gives out (43_shift_incdec.md
R280). -/
def Obligations.ShiftFunctions : Prop :=
  ∀ (m : Byte) (c : Bool),
    (asl m c).1.toNat = 2 * m.toNat % 256 ∧ (asl m c).2 = decide (128 ≤ m.toNat) ∧
    (lsr m c).1.toNat = m.toNat / 2 ∧ (lsr m c).2 = decide (m.toNat % 2 = 1) ∧
    (rol m c).1.toNat = (2 * m.toNat + c.toNat) % 256 ∧ (rol m c).2 = decide (128 ≤ m.toNat) ∧
    (ror m c).1.toNat = m.toNat / 2 + 128 * c.toNat ∧ (ror m c).2 = decide (m.toNat % 2 = 1)

/-! ## Instructions -/

/-- LDA, LDX, LDY, LAX: the operand goes into the register or registers, N and Z follow it, nothing else changes
(41_load_store_transfer.md R201 to R203, 46_undocumented_stable.md R376). The rules mark function and flags as
general knowledge. -/
def Obligations.LoadsTakeTheOperand : Prop :=
  ∀ (i : Instr) (s : State), i.mnemonic ∈ [Mnemonic.lda, .ldx, .ldy, .lax] →
    ∃ o t, i.operand = .source o ∧ exec i s = .next t ∧
      let v := (readOperand o s).1
      t.a = (if i.mnemonic = .lda ∨ i.mnemonic = .lax then v else s.a) ∧
      t.x = (if i.mnemonic = .ldx ∨ i.mnemonic = .lax then v else s.x) ∧
      t.y = (if i.mnemonic = .ldy then v else s.y) ∧
      t.p = { s.p with n := v.getLsbD 7, z := v == 0 } ∧ t.sp = s.sp ∧ t.pc = s.pc ∧
      keepsMemory s t ∧ keepsRest s t ∧ t.bus = (readOperand o s).2.bus

/-- STA, STX, STY, SAX: the register (for SAX, A AND X) goes to the operand's address; no flag and no register
changes, and no other byte (41_load_store_transfer.md R204 to R206, 46_undocumented_stable.md R375). R206 marks
STY's function as general knowledge. -/
def Obligations.StoresWriteTheRegister : Prop :=
  ∀ (i : Instr) (s : State), i.mnemonic ∈ [Mnemonic.sta, .stx, .sty, .sax] →
    ∃ m t, i.operand = .source (.mem m) ∧ exec i s = .next t ∧
      let ea := (storeAddress m s).1
      let v := if i.mnemonic = .sta then s.a else if i.mnemonic = .stx then s.x
        else if i.mnemonic = .sty then s.y else s.a &&& s.x
      keepsRegisters s t ∧ t.p = s.p ∧ t.pc = s.pc ∧ keepsRest s t ∧
      holdsStores [(ea, v)] s t ∧ keepsMemoryBut [ea] s t ∧
      (s.target ea = .ram → s.mem.wf = true → t.mem.read ea.toNat = v) ∧
      t.bus = (storeAddress m s).2.bus ++ [.write ea v]

/-- TAX, TAY, TXA, TYA, TSX, TXS, one byte and two cycles each: the transfer, with N and Z from the value moved but
for TXS (41_load_store_transfer.md R207 to R212). The rules mark function and flags as general knowledge. -/
def Obligations.TransfersMoveRegisters : Prop :=
  ∀ (i : Instr) (op : Byte) (s : State),
    (i, op) ∈ [(Instr.tax, (0xAA : Byte)), (.tay, 0xA8), (.txa, 0x8A), (.tya, 0x98), (.tsx, 0xBA), (.txs, 0x9A)] →
    encode i = [op] ∧ decode [op] = .ok (i, []) ∧ ∃ t, exec i s = .next t ∧
      t.x = (if i = .tax then s.a else if i = .tsx then s.sp else s.x) ∧
      t.y = (if i = .tay then s.a else s.y) ∧
      t.a = (if i = .txa then s.x else if i = .tya then s.y else s.a) ∧
      t.sp = (if i = .txs then s.x else s.sp) ∧
      t.p = (if i = .txs then s.p
        else
          let v := if i = .tsx then s.sp else if i = .txa then s.x else if i = .tya then s.y else s.a
          { s.p with n := v.getLsbD 7, z := v == 0 }) ∧
      t.pc = s.pc ∧ keepsMemory s t ∧ keepsRest s t ∧
      t.bus = s.bus ++ [.read s.pc (s.answer s.pc).1]

/-- AND, ORA, EOR: the operation of A and the operand goes into A, N and Z follow it, nothing else changes
(42_logic_arithmetic.md R240 to R242). The rules mark function and flags as general knowledge. -/
def Obligations.LogicCombinesA : Prop :=
  ∀ (i : Instr) (s : State), i.mnemonic ∈ [Mnemonic.and, .ora, .eor] →
    ∃ o t, i.operand = .source o ∧ exec i s = .next t ∧
      let v := (readOperand o s).1
      let r := if i.mnemonic = .and then s.a &&& v else if i.mnemonic = .ora then s.a ||| v else s.a ^^^ v
      t.a = r ∧ t.p = { s.p with n := r.getLsbD 7, z := r == 0 } ∧
      t.x = s.x ∧ t.y = s.y ∧ t.sp = s.sp ∧ t.pc = s.pc ∧ keepsMemory s t ∧ keepsRest s t ∧
      t.bus = (readOperand o s).2.bus

/-- BIT: N and V are bits 7 and 6 of the operand, Z says that A AND the operand is zero, nothing else changes
(42_logic_arithmetic.md R243). The rules mark function and flags as general knowledge. -/
def Obligations.BitTestsTheOperand : Prop :=
  ∀ (i : Instr) (s : State), i.mnemonic = .bit →
    ∃ o t, i.operand = .source o ∧ exec i s = .next t ∧
      let v := (readOperand o s).1
      t.p = { s.p with n := v.getLsbD 7, v := v.getLsbD 6, z := s.a &&& v == 0 } ∧
      keepsRegisters s t ∧ t.pc = s.pc ∧ keepsMemory s t ∧ keepsRest s t ∧ t.bus = (readOperand o s).2.bus

/-- ADC and SBC (also $EB): A and the flags N, V, Z, C are those of the functions `adc` and `sbc`; D, I and all else
stay (42_logic_arithmetic.md R251, R253, 46_undocumented_stable.md R388). The rules mark the binary mode as general
knowledge. -/
def Obligations.AdcAndSbcApplyTheirFunctions : Prop :=
  ∀ (i : Instr) (s : State), i.mnemonic ∈ [Mnemonic.adc, .sbc] →
    ∃ o t, i.operand = .source o ∧ exec i s = .next t ∧
      let v := (readOperand o s).1
      let r := if i.mnemonic = .adc then adc s.a v s.p else sbc s.a v s.p
      t.a = r.1 ∧ t.p = r.2 ∧ t.p.d = s.p.d ∧ t.p.i = s.p.i ∧
      t.x = s.x ∧ t.y = s.y ∧ t.sp = s.sp ∧ t.pc = s.pc ∧ keepsMemory s t ∧ keepsRest s t ∧
      t.bus = (readOperand o s).2.bus

/-- CMP, CPX, CPY: N, Z, C are those of the difference of the register and the operand, C saying that there is no
borrow; V, D, I and everything else stay (42_logic_arithmetic.md R254 to R257). The rules mark function and flags as
general knowledge. -/
def Obligations.ComparesSetFlagsAlone : Prop :=
  ∀ (i : Instr) (s : State), i.mnemonic ∈ [Mnemonic.cmp, .cpx, .cpy] →
    ∃ o t, i.operand = .source o ∧ exec i s = .next t ∧
      let v := (readOperand o s).1
      let r := if i.mnemonic = .cmp then s.a else if i.mnemonic = .cpx then s.x else s.y
      t.p = { s.p with n := (r - v).getLsbD 7, z := decide (r = v), c := decide (v.toNat ≤ r.toNat) } ∧
      keepsRegisters s t ∧ t.pc = s.pc ∧ keepsMemory s t ∧ keepsRest s t ∧ t.bus = (readOperand o s).2.bus

/-- ASL, LSR, ROL, ROR of memory: the byte at the operand's address is shifted in place, C is the bit shifted out, N
and Z follow the result; no register and no other byte changes (43_shift_incdec.md R281 to R284). The rules mark
function and flags as general knowledge. -/
def Obligations.MemoryShifts : Prop :=
  ∀ (i : Instr) (s : State) (m : MemMode), i.mnemonic ∈ [Mnemonic.asl, .lsr, .rol, .ror] →
    i.operand = .source (.mem m) →
    let e := storeAddress m s
    let b := (e.2.read e.1).1
    let r := if i.mnemonic = .asl then asl b s.p.c else if i.mnemonic = .lsr then lsr b s.p.c
      else if i.mnemonic = .rol then rol b s.p.c else ror b s.p.c
    ∃ t, exec i s = .next t ∧ t.p = { s.p with n := r.1.getLsbD 7, z := r.1 == 0, c := r.2 } ∧
      keepsRegisters s t ∧ t.pc = s.pc ∧ keepsRest s t ∧
      holdsStores [(e.1, b), (e.1, r.1)] s t ∧ keepsMemoryBut [e.1] s t ∧
      t.bus = e.2.bus ++ [.read e.1 b, .write e.1 b, .write e.1 r.1]

/-- ASL, LSR, ROL, ROR of the accumulator: A is shifted, C is the bit shifted out, N and Z follow the result,
nothing else changes (43_shift_incdec.md R280 to R284). The rules mark function and flags as general knowledge. -/
def Obligations.AccumulatorShifts : Prop :=
  ∀ (i : Instr) (s : State), i ∈ [Instr.aslAcc, .lsrAcc, .rolAcc, .rorAcc] →
    let r := if i = .aslAcc then asl s.a s.p.c else if i = .lsrAcc then lsr s.a s.p.c
      else if i = .rolAcc then rol s.a s.p.c else ror s.a s.p.c
    ∃ t, exec i s = .next t ∧ t.a = r.1 ∧ t.p = { s.p with n := r.1.getLsbD 7, z := r.1 == 0, c := r.2 } ∧
      t.x = s.x ∧ t.y = s.y ∧ t.sp = s.sp ∧ t.pc = s.pc ∧ keepsMemory s t ∧ keepsRest s t ∧
      t.bus = s.bus ++ [.read s.pc (s.answer s.pc).1]

/-- INC and DEC of memory: the byte at the operand's address is counted in place modulo 256, N and Z follow the
result; C, every register and every other byte stay (43_shift_incdec.md R285, R286). The rules mark function and
flags as general knowledge. -/
def Obligations.MemoryCounts : Prop :=
  ∀ (i : Instr) (s : State), i.mnemonic ∈ [Mnemonic.inc, .dec] →
    ∃ m t, i.operand = .source (.mem m) ∧ exec i s = .next t ∧
      let e := storeAddress m s
      let b := (e.2.read e.1).1
      let r := if i.mnemonic = .inc then b + 1 else b - 1
      t.p = { s.p with n := r.getLsbD 7, z := r == 0 } ∧ keepsRegisters s t ∧ t.pc = s.pc ∧ keepsRest s t ∧
      holdsStores [(e.1, b), (e.1, r)] s t ∧ keepsMemoryBut [e.1] s t ∧
      t.bus = e.2.bus ++ [.read e.1 b, .write e.1 b, .write e.1 r]

/-- INX, INY, DEX, DEY, one byte and two cycles each: the register is counted modulo 256, N and Z follow it, nothing
else changes (43_shift_incdec.md R287 to R290). The rules mark function and flags as general knowledge. -/
def Obligations.IndexCounts : Prop :=
  ∀ (i : Instr) (op : Byte) (s : State),
    (i, op) ∈ [(Instr.inx, (0xE8 : Byte)), (.iny, 0xC8), (.dex, 0xCA), (.dey, 0x88)] →
    let r := if i = .inx then s.x + 1 else if i = .iny then s.y + 1 else if i = .dex then s.x - 1 else s.y - 1
    encode i = [op] ∧ decode [op] = .ok (i, []) ∧ ∃ t, exec i s = .next t ∧
      t.x = (if i = .inx ∨ i = .dex then r else s.x) ∧ t.y = (if i = .iny ∨ i = .dey then r else s.y) ∧
      t.p = { s.p with n := r.getLsbD 7, z := r == 0 } ∧
      t.a = s.a ∧ t.sp = s.sp ∧ t.pc = s.pc ∧ keepsMemory s t ∧ keepsRest s t ∧
      t.bus = s.bus ++ [.read s.pc (s.answer s.pc).1]

/-- JMP, opcodes $4C and $6C: PC becomes the operand, or the word stored at the operand, whose high byte comes from
the same page as its low byte; nothing else changes (44_control_flow.md R311, R314). -/
def Obligations.JumpsLoadPc : Prop :=
  ∀ (addr : Addr) (s : State),
    let second := w16 (hi addr) (lo addr + 1)
    let l := s.read addr
    let h := l.2.read second
    encode (.jmpAbs addr) = [0x4C, lo addr, hi addr] ∧ encode (.jmpInd addr) = [0x6C, lo addr, hi addr] ∧
    (∃ t, exec (.jmpAbs addr) s = .next t ∧ t.pc = addr ∧ keepsRegisters s t ∧ t.p = s.p ∧
      keepsMemory s t ∧ keepsRest s t ∧ t.bus = s.bus) ∧
    (∃ t, exec (.jmpInd addr) s = .next t ∧ t.pc = w16 h.1 l.1 ∧ keepsRegisters s t ∧ t.p = s.p ∧
      keepsMemory s t ∧ keepsRest s t ∧ t.bus = s.bus ++ [.read addr l.1, .read second h.1]) ∧
    (s.target addr = .ram → s.target second = .ram →
      w16 h.1 l.1 = w16 (s.mem.read second.toNat) (s.mem.read addr.toNat))

/-- JSR: the address of its own third byte, where PC stands, is pushed high byte first, and PC becomes the operand,
unless the pushes overwrote that third byte, which is then read as pushed; no flag and no other register changes
(44_control_flow.md R316) (log 23). -/
def Obligations.JsrPushesAndJumps : Prop :=
  ∀ (addr : Addr) (s : State),
    let top := w16 0x01 s.sp
    let below := w16 0x01 (s.sp - 1)
    let h := if s.pc = below then lo s.pc else if s.pc = top then hi s.pc else hi addr
    encode (.jsrAbs addr) = [0x20, lo addr, hi addr] ∧ ∃ t, exec (.jsrAbs addr) s = .next t ∧
      t.pc = w16 h (lo addr) ∧
      (s.pc ≠ top → s.pc ≠ below → t.pc = addr) ∧
      t.sp = s.sp - 2 ∧ t.a = s.a ∧ t.x = s.x ∧ t.y = s.y ∧ t.p = s.p ∧ keepsRest s t ∧
      t.mem = (s.mem.write top.toNat (hi s.pc)).write below.toNat (lo s.pc) ∧
      keepsMemoryBut [top, below] s t ∧
      t.bus = s.bus ++ [.read top (s.mem.read top.toNat), .write top (hi s.pc), .write below (lo s.pc),
        .read s.pc h]

/-- The eight branches, an opcode and an offset byte each: PC becomes the next instruction's address plus the signed
offset, modulo 65536, if the branch's flag has its value, after one dummy read, or two when the target is in another
page; otherwise nothing happens. No flag, no other register and no memory changes (44_control_flow.md R312, R320 to
R327). The rules R320 to R327 mark the eight conditions as general knowledge; the wrap at $FFFF is log 25. -/
def Obligations.BranchesTestOneFlag : Prop :=
  ∀ (i : Instr) (op : Byte) (taken : Bool) (s : State),
    (i.mnemonic, op, taken) ∈ [(Mnemonic.bpl, (0x10 : Byte), !s.p.n), (.bmi, 0x30, s.p.n), (.bvc, 0x50, !s.p.v),
      (.bvs, 0x70, s.p.v), (.bcc, 0x90, !s.p.c), (.bcs, 0xB0, s.p.c), (.bne, 0xD0, !s.p.z),
      (.beq, 0xF0, s.p.z)] →
    ∃ off t, i.operand = .relative off ∧ encode i = [op, off] ∧ exec i s = .next t ∧
      let target := s.pc + off.signExtend 16
      t.pc = (if taken then target else s.pc) ∧
      keepsRegisters s t ∧ t.p = s.p ∧ keepsMemory s t ∧ keepsRest s t ∧
      ∃ v w, t.bus = s.bus ++ (if taken then
        (if hi target = hi s.pc then [.read s.pc v]
          else [.read s.pc v, .read (w16 (hi s.pc) (lo target)) w]) else [])

/-- PHA and PHP, one byte and three cycles each: A, or P with bits 5 and 4 as 1, is written at $0100 + S and S goes
down by one; no flag and no other register changes (45_stack_flags_system.md R341, R342). R342 marks bit 5 of the
pushed P as general knowledge (log 24). -/
def Obligations.PushesWriteTheStack : Prop :=
  ∀ (i : Instr) (op : Byte) (s : State), (i, op) ∈ [(Instr.pha, (0x48 : Byte)), (.php, 0x08)] →
    let top := w16 0x01 s.sp
    encode i = [op] ∧ decode [op] = .ok (i, []) ∧ ∃ v t, exec i s = .next t ∧
      (i = .pha → v = s.a) ∧
      (i = .php → v.getLsbD 7 = s.p.n ∧ v.getLsbD 6 = s.p.v ∧ v.getLsbD 5 = true ∧ v.getLsbD 4 = true ∧
        v.getLsbD 3 = s.p.d ∧ v.getLsbD 2 = s.p.i ∧ v.getLsbD 1 = s.p.z ∧ v.getLsbD 0 = s.p.c) ∧
      t.mem = s.mem.write top.toNat v ∧ keepsMemoryBut [top] s t ∧
      t.sp = s.sp - 1 ∧ t.a = s.a ∧ t.x = s.x ∧ t.y = s.y ∧ t.p = s.p ∧ t.pc = s.pc ∧ keepsRest s t ∧
      t.bus = s.bus ++ [.read s.pc (s.answer s.pc).1, .write top v]

/-- PLA and PLP, one byte and four cycles each: after a dummy read of the old stack top S goes up by one and the
byte at $0100 + S goes into A, with N and Z, or into the six flags of P, bits 5 and 4 ignored; nothing else changes
(45_stack_flags_system.md R343, R344, R345). R343 marks the flags of PLA as general knowledge; that PLP ignores bits 5
and 4 is decision D7 (log 24). -/
def Obligations.PullsReadTheStack : Prop :=
  ∀ (i : Instr) (op : Byte) (s : State), (i, op) ∈ [(Instr.pla, (0x68 : Byte)), (.plp, 0x28)] →
    let top := w16 0x01 s.sp
    let next := w16 0x01 (s.sp + 1)
    let v := s.mem.read next.toNat
    encode i = [op] ∧ decode [op] = .ok (i, []) ∧ ∃ t, exec i s = .next t ∧
      t.a = (if i = .pla then v else s.a) ∧
      t.p = (if i = .pla then { s.p with n := v.getLsbD 7, z := v == 0 }
        else { n := v.getLsbD 7, v := v.getLsbD 6, d := v.getLsbD 3, i := v.getLsbD 2, z := v.getLsbD 1,
               c := v.getLsbD 0 }) ∧
      t.sp = s.sp + 1 ∧ t.x = s.x ∧ t.y = s.y ∧ t.pc = s.pc ∧ keepsMemory s t ∧ keepsRest s t ∧
      t.bus = s.bus ++ [.read s.pc (s.answer s.pc).1, .read top (s.mem.read top.toNat), .read next v]

/-- RTS, one byte and six cycles: PC becomes the word above the stack top plus 1, modulo 65536, S goes up by two; no
flag and no other register changes (45_stack_flags_system.md R351). Where that word is what a program's launch put
there and END_PC its caller, the run has ended (70_reset_and_hazards.md R554). The wrap at $FFFF is log 25, the end of a
run log 33. -/
def Obligations.RtsReturnsPastTheCall : Prop :=
  ∀ s : State,
    let at' := fun k : Byte => w16 0x01 (s.sp + k)
    let rd := fun k : Byte => s.mem.read (at' k).toNat
    let back := w16 (rd 2) (rd 1)
    encode .rts = [0x60] ∧ decode [0x60] = .ok (.rts, []) ∧ ∃ t, exec .rts s = .next t ∧
      t.pc = back + 1 ∧ t.sp = s.sp + 2 ∧ t.a = s.a ∧ t.x = s.x ∧ t.y = s.y ∧ t.p = s.p ∧
      keepsMemory s t ∧ keepsRest s t ∧
      (∃ v w, t.bus = s.bus ++ [.read s.pc v, .read (at' 0) (rd 0), .read (at' 1) (rd 1), .read (at' 2) (rd 2),
        .read back w]) ∧
      ∀ prog : Program, prog.callerOnStack s = true → s.board.endPc = some prog.back →
        t.pc = prog.back ∧ t.ended = true ∧ (s.jammed = false → prog.runEnd t = some .returned)

/-- RTI, one byte and six cycles: the six flags, bits 5 and 4 ignored, and PC come from the three bytes above the
stack top, S goes up by three; nothing else changes (45_stack_flags_system.md R350, 60_exceptions.md R531). That the
two bits are ignored is decision D7 (log 24). -/
def Obligations.RtiRestoresFlagsAndPc : Prop :=
  ∀ s : State,
    let at' := fun k : Byte => w16 0x01 (s.sp + k)
    let rd := fun k : Byte => s.mem.read (at' k).toNat
    encode .rti = [0x40] ∧ decode [0x40] = .ok (.rti, []) ∧ ∃ t, exec .rti s = .next t ∧
      t.pc = w16 (rd 3) (rd 2) ∧ t.sp = s.sp + 3 ∧ t.a = s.a ∧ t.x = s.x ∧ t.y = s.y ∧
      t.p = { n := (rd 1).getLsbD 7, v := (rd 1).getLsbD 6, d := (rd 1).getLsbD 3, i := (rd 1).getLsbD 2,
              z := (rd 1).getLsbD 1, c := (rd 1).getLsbD 0 } ∧
      keepsMemory s t ∧ keepsRest s t ∧
      ∃ v, t.bus = s.bus ++ [.read s.pc v, .read (at' 0) (rd 0), .read (at' 1) (rd 1), .read (at' 2) (rd 2),
        .read (at' 3) (rd 3)]

/-- BRK, opcode $00: the byte after the opcode is read and skipped, the address after it and P with B = 1 are
pushed, I becomes 1, D and the other flags stay, and PC comes from $FFFE/$FFFF, or, if an NMI edge falls inside the
instruction, perhaps from $FFFA/$FFFB, and that edge is then used up (45_stack_flags_system.md R355,
60_exceptions.md R525). The vector's bytes are those of RAM or of a ROM of the Commodore 64, whichever answers there.
R355 marks I as general knowledge; which vector is taken is a draw (log 18); bit 5 of the pushed P is log 24. -/
def Obligations.BrkEntersThroughItsVector : Prop :=
  ∀ s : State,
    let back := s.pc + 1
    let at' := fun k : Byte => w16 0x01 (s.sp - k)
    encode .brk = [0x00] ∧ decode [0x00] = .ok (.brk, []) ∧
    ∃ t pushed vec l h skipped, exec .brk s = .next t ∧
      pushed = s.p.pack true ∧ pushed.getLsbD 4 = true ∧
      (vec = 0xFFFE ∧ t.inputs = s.inputs ∨
        vec = 0xFFFA ∧ s.inputs.nmiArriving = true ∧ t.inputs = { s.inputs with nmiArriving := false }) ∧
      t.pc = w16 h l ∧ t.sp = s.sp - 3 ∧ t.a = s.a ∧ t.x = s.x ∧ t.y = s.y ∧ t.p = { s.p with i := true } ∧
      t.jammed = s.jammed ∧ t.nmiPending = s.nmiPending ∧ t.board = s.board ∧
      t.mem = ((s.mem.write (at' 0).toNat (hi back)).write (at' 1).toNat (lo back)).write (at' 2).toNat pushed ∧
      keepsMemoryBut [at' 0, at' 1, at' 2] s t ∧
      t.bus = s.bus ++ [.read s.pc skipped, .write (at' 0) (hi back), .write (at' 1) (lo back),
        .write (at' 2) pushed, .read vec l, .read (vec + 1) h] ∧
      givesByte s t.mem vec l ∧ givesByte s t.mem (vec + 1) h

/-- CLC, SEC, CLI, SEI, CLV, CLD, SED, one byte and two cycles each: the named flag gets its value, nothing else
changes (45_stack_flags_system.md R360 to R366). The rules mark function and flags as general knowledge. -/
def Obligations.FlagInstructionsSetOneFlag : Prop :=
  ∀ (i : Instr) (op : Byte) (p : Flags) (s : State),
    (i, op, p) ∈ [(Instr.clc, (0x18 : Byte), { s.p with c := false }), (.sec, 0x38, { s.p with c := true }),
      (.cli, 0x58, { s.p with i := false }), (.sei, 0x78, { s.p with i := true }),
      (.clv, 0xB8, { s.p with v := false }), (.cld, 0xD8, { s.p with d := false }),
      (.sed, 0xF8, { s.p with d := true })] →
    encode i = [op] ∧ decode [op] = .ok (i, []) ∧ ∃ t, exec i s = .next t ∧ t.p = p ∧
      keepsRegisters s t ∧ t.pc = s.pc ∧ keepsMemory s t ∧ keepsRest s t ∧
      t.bus = s.bus ++ [.read s.pc (s.answer s.pc).1]

/-- The NOPs, but for the three that may jam: nothing changes, and the reads of their mode are made
(45_stack_flags_system.md R367, 46_undocumented_stable.md R390 to R394). R367 marks the function as general
knowledge. -/
def Obligations.NopsOnlyRead : Prop :=
  ∀ (i : Instr) (s : State), i.mnemonic = .nop → (∀ v, i ≠ .nopImm82 v ∧ i ≠ .nopImmC2 v ∧ i ≠ .nopImmE2 v) →
    ∃ t, exec i s = .next t ∧ keepsRegisters s t ∧ t.p = s.p ∧ t.pc = s.pc ∧ keepsMemory s t ∧ keepsRest s t ∧
      (i.operand = .implied → t.bus = s.bus ++ [.read s.pc (s.answer s.pc).1]) ∧
      (∀ o, i.operand = .source o → t.bus = (readOperand o s).2.bus)

/-- $82, $C2, $E2: nothing changes but that the processor may be jammed afterwards (46_undocumented_stable.md R396).
Which of the two is a free value (log 12). That in the jam too PC stands behind the operand and the bus shows the two
fetches and no more is the model's choice: R395 says that PC and the cycles before locking up are not in the source
(log 12, as open as log 11). -/
def Obligations.RareJamsOrNothing : Prop :=
  ∀ (i : Instr) (s : State) (v : Byte), i ∈ [Instr.nopImm82 v, .nopImmC2 v, .nopImmE2 v] →
    ∃ t, exec i s = .next t ∧ keepsRegisters s t ∧ t.p = s.p ∧ t.pc = s.pc ∧ keepsMemory s t ∧
      (t.jammed = true ∨ t.jammed = s.jammed) ∧ t.nmiPending = s.nmiPending ∧ t.inputs = s.inputs ∧
      t.board = s.board ∧ t.bus = s.bus

/-- The twelve JAM opcodes jam the processor and change nothing else (46_undocumented_stable.md R395) (log 11). -/
def Obligations.JamOpcodesJam : Prop :=
  ∀ (op : Byte), op ∈ [0x02, 0x12, 0x22, 0x32, 0x42, 0x52, 0x62, 0x72, 0x92, 0xB2, 0xD2, (0xF2 : Byte)] →
    ∃ i, decode [op] = .ok (i, []) ∧ i.mnemonic = .jam ∧ encode i = [op] ∧
      ∀ s, ∃ t, exec i s = .next t ∧ t.jammed = true ∧ keepsRegisters s t ∧ t.p = s.p ∧ keepsMemory s t ∧
        t.nmiPending = s.nmiPending ∧ t.inputs = s.inputs ∧ t.board = s.board

/-- SLO, RLA, SRE: the byte at the operand's address is shifted in place with C the bit shifted out, then A is
combined with the byte written, and N and Z follow A (46_undocumented_stable.md R371 to R373). The rules mark
function and flags as general knowledge. -/
def Obligations.ShiftThenLogic : Prop :=
  ∀ (i : Instr) (s : State), i.mnemonic ∈ [Mnemonic.slo, .rla, .sre] →
    ∃ m t, i.operand = .source (.mem m) ∧ exec i s = .next t ∧
      let e := storeAddress m s
      let b := (e.2.read e.1).1
      let r := if i.mnemonic = .slo then asl b s.p.c else if i.mnemonic = .rla then rol b s.p.c else lsr b s.p.c
      let a := if i.mnemonic = .slo then s.a ||| r.1 else if i.mnemonic = .rla then s.a &&& r.1 else s.a ^^^ r.1
      t.a = a ∧ t.p = { s.p with n := a.getLsbD 7, z := a == 0, c := r.2 } ∧
      t.x = s.x ∧ t.y = s.y ∧ t.sp = s.sp ∧ t.pc = s.pc ∧ keepsRest s t ∧
      holdsStores [(e.1, b), (e.1, r.1)] s t ∧ keepsMemoryBut [e.1] s t ∧
      t.bus = e.2.bus ++ [.read e.1 b, .write e.1 b, .write e.1 r.1]

/-- RRA, ISB, DCP: the byte at the operand's address is rotated right, counted up or counted down in place, and then
added to A with the C rotated out, subtracted from A with the incoming C, or compared with A
(46_undocumented_stable.md R374, R377, R378). -/
def Obligations.ModifyThenArithmetic : Prop :=
  ∀ (i : Instr) (s : State), i.mnemonic ∈ [Mnemonic.rra, .isb, .dcp] →
    ∃ m t, i.operand = .source (.mem m) ∧ exec i s = .next t ∧
      let e := storeAddress m s
      let b := (e.2.read e.1).1
      let r := if i.mnemonic = .rra then (ror b s.p.c).1 else if i.mnemonic = .isb then b + 1 else b - 1
      (i.mnemonic = .rra → t.a = (adc s.a r { s.p with c := b.getLsbD 0 }).1 ∧
        t.p = (adc s.a r { s.p with c := b.getLsbD 0 }).2) ∧
      (i.mnemonic = .isb → t.a = (sbc s.a r s.p).1 ∧ t.p = (sbc s.a r s.p).2) ∧
      (i.mnemonic = .dcp → t.a = s.a ∧ t.p =
        { s.p with n := (s.a - r).getLsbD 7, z := decide (s.a = r), c := decide (r.toNat ≤ s.a.toNat) }) ∧
      t.p.d = s.p.d ∧ t.p.i = s.p.i ∧
      t.x = s.x ∧ t.y = s.y ∧ t.sp = s.sp ∧ t.pc = s.pc ∧ keepsRest s t ∧
      holdsStores [(e.1, b), (e.1, r)] s t ∧ keepsMemoryBut [e.1] s t ∧
      t.bus = e.2.bus ++ [.read e.1 b, .write e.1 b, .write e.1 r]

/-- ASR, opcode $4B: A is A AND the operand shifted right, C the bit shifted out, N 0 and Z as A is; V, D, I and
everything else stay (47_undocumented_unusual.md R412). -/
def Obligations.AsrShiftsTheAnd : Prop :=
  ∀ (s : State) (v : Byte),
    let u := s.a &&& v
    encode (.asrImm v) = [0x4B, v] ∧ decode [0x4B, v] = .ok (.asrImm v, []) ∧
    ∃ t, exec (.asrImm v) s = .next t ∧ t.a.toNat = u.toNat / 2 ∧
      t.p = { s.p with n := false, z := decide (u.toNat < 2), c := u.getLsbD 0 } ∧
      t.x = s.x ∧ t.y = s.y ∧ t.sp = s.sp ∧ t.pc = s.pc ∧ keepsMemory s t ∧ keepsRest s t ∧ t.bus = s.bus

/-- ANC, SBX: A AND the operand with C its bit 7; X as A AND X minus the operand with the flags of that comparison. V,
D, I and everything else stay (47_undocumented_unusual.md R411, R414). R411 marks the carry of ANC as general knowledge
(log 30). -/
def Obligations.ImmediateCombinations : Prop :=
  ∀ (i : Instr) (s : State) (v : Byte), i ∈ [Instr.ancImm0B v, .ancImm2B v, .sbxImm v] →
    let u := s.a &&& v
    let w := s.a &&& s.x
    ∃ t, exec i s = .next t ∧
      (i ∈ [Instr.ancImm0B v, .ancImm2B v] → t.a = u ∧ t.x = s.x ∧
        t.p = { s.p with n := u.getLsbD 7, z := u == 0, c := u.getLsbD 7 }) ∧
      (i = .sbxImm v → t.x = w - v ∧ t.a = s.a ∧
        t.p = { s.p with n := (w - v).getLsbD 7, z := decide (w = v), c := decide (v.toNat ≤ w.toNat) }) ∧
      t.y = s.y ∧ t.sp = s.sp ∧ t.pc = s.pc ∧ keepsMemory s t ∧ keepsRest s t ∧ t.bus = s.bus

/-- ARR with D = 0: A is A AND the operand rotated right through C, N and Z follow it, and C and V are those of the
parameter ARR_FLAGS; with D = 1 A, N, V, Z, C are free values. D, I and everything else stay
(47_undocumented_unusual.md R413) (log 15). -/
def Obligations.ArrRotatesTheAnd : Prop :=
  ∀ (s : State) (v : Byte), ∃ t, exec (.arrImm v) s = .next t ∧
    (s.p.d = false →
      let u := s.a &&& v
      t.a.toNat = u.toNat / 2 + 128 * s.p.c.toNat ∧ t.p.n = s.p.c ∧ t.p.z = decide (t.a = 0) ∧
      (s.board.arrFlags = .plainRor → t.p.c = u.getLsbD 0 ∧ t.p.v = s.p.v) ∧
      (s.board.arrFlags = .adder →
        t.p.c = t.a.getLsbD 6 ∧ t.p.v = (t.a.getLsbD 6 ^^ t.a.getLsbD 5))) ∧
    t.p.d = s.p.d ∧ t.p.i = s.p.i ∧ t.x = s.x ∧ t.y = s.y ∧ t.sp = s.sp ∧ t.pc = s.pc ∧
    keepsMemory s t ∧ keepsRest s t ∧ t.bus = s.bus

/-- ANE: for some constant of the part's set and some mask outside it, A is (A AND mask OR constant) AND X AND the
operand, N and Z follow A, nothing else changes; where X AND the operand is 0 so is A (47_undocumented_unusual.md
R415). Constant and mask are free values (log 13). -/
def Obligations.AneWithinItsConstants : Prop :=
  ∀ (s : State) (v : Byte), ∃ t k mask, exec (.aneImm v) s = .next t ∧ mask &&& k = 0 ∧
    (s.board.variant ≠ .mos8502 → k ∈ [0xEE, 0xEF, 0xFE, (0xFF : Byte)]) ∧
    (s.board.variant = .mos8502 → k ∈ [0x8C, 0xCC, 0xEE, 0x0C, (0x8E : Byte)]) ∧
    (s.board.variant = .mos8502 → s.board.fast = true → k = 0xEE) ∧
    t.a = ((s.a &&& mask) ||| k) &&& s.x &&& v ∧
    (s.x &&& v = 0 → t.a = 0) ∧
    t.p = { s.p with n := t.a.getLsbD 7, z := t.a == 0 } ∧
    t.x = s.x ∧ t.y = s.y ∧ t.sp = s.sp ∧ t.pc = s.pc ∧ keepsMemory s t ∧ keepsRest s t ∧ t.bus = s.bus

/-- LXA: A and X take the same byte, which has no bit outside the operand, and N and Z follow it; nothing else
changes (47_undocumented_unusual.md R416). The byte is a free value within that envelope (log 14). -/
def Obligations.LxaWithinTheOperand : Prop :=
  ∀ (s : State) (v : Byte), ∃ t, exec (.lxaImm v) s = .next t ∧ t.x = t.a ∧ t.a &&& ~~~v = 0 ∧
    t.p = { s.p with n := t.a.getLsbD 7, z := t.a == 0 } ∧
    t.y = s.y ∧ t.sp = s.sp ∧ t.pc = s.pc ∧ keepsMemory s t ∧ keepsRest s t ∧ t.bus = s.bus

/-- SHA, SHX, SHY, SHS: the register (for SHA and SHS, A AND X) AND the base address's high byte plus 1 is stored at
the indexed address, or, when the index crosses a page, at the address whose high byte is the value stored; SHS also
puts A AND X into S. Before the store the address with its high byte not yet fixed is read, whether or not a page is
crossed. No flag and no other register changes (47_undocumented_unusual.md R420 to R424). That H + 1 wraps is an
inference of R420; -RDY is left out (log 17). -/
def Obligations.ShaFamilyStores : Prop :=
  ∀ (i : Instr) (s : State) (base : Addr) (index reg : Byte) (ptr : Byte) (addr : Addr),
    (i, base, index, reg) ∈ [(Instr.shaAby addr, addr, s.y, s.a &&& s.x), (.shxAby addr, addr, s.y, s.x),
      (.shyAbx addr, addr, s.x, s.y), (.shsAby addr, addr, s.y, s.a &&& s.x),
      (.shaIzy ptr, (pointerIzy ptr s).1, s.y, s.a &&& s.x)] →
    let d := reg &&& (hi base + 1)
    let ea := if 255 < (lo base).toNat + index.toNat then w16 d (lo base + index) else base + index.setWidth 16
    let before := if i = .shaIzy ptr then (pointerIzy ptr s).2 else s
    let unfixed := w16 (hi base) (lo base + index)
    ∃ t, exec i s = .next t ∧ t.a = s.a ∧ t.x = s.x ∧ t.y = s.y ∧ t.p = s.p ∧ t.pc = s.pc ∧
      t.sp = (if i = .shsAby addr then s.a &&& s.x else s.sp) ∧ keepsRest s t ∧
      holdsStores [(ea, d)] s t ∧ keepsMemoryBut [ea] s t ∧
      (s.target ea = .ram → s.mem.wf = true → t.mem.read ea.toNat = d) ∧
      t.bus = before.bus ++ [.read unfixed (before.answer unfixed).1, .write ea d]

/-- LAS: A, X and S take the operand AND S, N and Z follow it, nothing else changes (47_undocumented_unusual.md
R425, from general knowledge as that rule says) (log 16). -/
def Obligations.LasLoadsThreeRegisters : Prop :=
  ∀ (s : State) (addr : Addr),
    let r := readMem (.aby addr) s
    let v := r.1 &&& s.sp
    ∃ t, exec (.lasAby addr) s = .next t ∧ t.a = v ∧ t.x = v ∧ t.sp = v ∧ t.y = s.y ∧
      t.p = { s.p with n := v.getLsbD 7, z := v == 0 } ∧ t.pc = s.pc ∧ keepsMemory s t ∧ keepsRest s t ∧
      t.bus = r.2.bus

/-- Every instruction leaves each flag alone but for the mnemonics that the spec's table of flag writers names for
it (10_state.md R33). -/
def Obligations.OnlyFlagWritersWriteFlags : Prop :=
  ∀ (i : Instr) (s : State), ∃ t, exec i s = .next t ∧
    (i.mnemonic ∈ [Mnemonic.sta, .stx, .sty, .txs, .pha, .php, .jmp, .jsr, .rts, .bpl, .bmi, .bvc, .bvs, .bcc,
      .bcs, .bne, .beq, .nop, .jam, .sax, .sha, .shx, .shy, .shs] → t.p = s.p) ∧
    (i.mnemonic ∉ [Mnemonic.cld, .sed, .plp, .rti] → t.p.d = s.p.d) ∧
    (i.mnemonic ∉ [Mnemonic.cli, .sei, .plp, .rti, .brk] → t.p.i = s.p.i) ∧
    (i.mnemonic ∉ [Mnemonic.adc, .sbc, .rra, .isb, .arr, .bit, .clv, .plp, .rti] → t.p.v = s.p.v) ∧
    (i.mnemonic ∉ [Mnemonic.asl, .lsr, .rol, .ror, .slo, .rla, .sre, .asr, .anc, .adc, .sbc, .rra, .isb, .arr,
      .cmp, .cpx, .cpy, .dcp, .sbx, .clc, .sec, .plp, .rti] → t.p.c = s.p.c) ∧
    (i.mnemonic ∈ [Mnemonic.clc, .sec, .cld, .sed, .cli, .sei, .clv, .brk] →
      t.p.n = s.p.n ∧ t.p.z = s.p.z)

/-! ## Steps, interrupts and reset -/

/-- Where an instruction is due (-RESET not pulled and not to be pulled inside the step, no jam, no NMI latched,
-IRQ released or masked) and the bytes at PC, each as it answers in the bus cycle that fetches it, are known and decode
to an instruction, the step is `exec` of it: the bytes have been read over the bus, PC has moved past them, but for
JSR's third byte, and at the end an NMI edge that fell inside the step is latched and PERIPH_IN has moved on by the
step's cycles (00_scope.md R8, R15, 60_exceptions.md R520) (log 19, log 23). How many cycles a step takes that jams is
the model's choice (log 11, and log 12 for $82, $C2 and $E2). -/
def Obligations.StepRunsDecodedInstruction : Prop :=
  ∀ (s : State) (bytes : List Byte) (i : Instr),
    s.inputs.resetPin = .inactive → s.inputs.resetArriving = none → s.jammed = false → s.nmiPending = false →
    (s.inputs.irqLine = false ∨ s.p.i = true) → decode bytes = .ok (i, []) →
    (∀ k, (h : k < bytes.length) →
      s.answerAt (if i.mnemonic = .jsr ∧ k = 2 then 5 else k) (s.pc + BitVec.ofNat 16 k) = (bytes[k], s)) →
    let n := if i.mnemonic = .jsr then 2 else bytes.length
    let fetched := (bytes.take n).zipIdx.map fun c => BusAccess.read (s.pc + BitVec.ofNat 16 c.2) c.1
    step s = settle (exec i ((s.setPc (s.pc + BitVec.ofNat 16 n)).setBus fetched))

/-- Every step of every state gives a next state: there is no fault of any kind. A step that jams the processor
pushes nothing and reads no vector (60_exceptions.md R500). That it makes no access but the reads of the instruction's
own bytes is the model's choice: what the bus does in a jam is not in the source (log 11, and log 12 for $82, $C2 and
$E2). No step changes the parameters, which are values for the whole run (00_scope.md R8). -/
def Obligations.EveryStepHasANextState : Prop :=
  ∀ s : State, ∃ t, step s = .next t ∧ t.board = s.board ∧
    (s.jammed = false → t.jammed = true → t.sp = s.sp ∧ t.mem = s.mem ∧ t.colorRam = s.colorRam ∧
      ∀ c ∈ t.bus, ∃ v, c = .read s.pc v ∨ c = .read (s.pc + 1) v)

/-- An NMI that is latched is taken before an IRQ and whatever I is; an IRQ is taken if -IRQ is asserted and I is 0.
Either entry reads twice at PC, pushes PC and P with B = 0, sets I, leaves D, the other flags, A, X and Y, and loads
PC from its vector, whose bytes are those of RAM or of a ROM of the Commodore 64, whichever answers there; PERIPH_IN
moves on by seven cycles (60_exceptions.md R520 to R523). The two reads at PC, B = 0, I and the IRQ vector are general
knowledge (log 29), bit 5 of the pushed P is log 24, the priority log 19. -/
def Obligations.InterruptEntry : Prop :=
  ∀ (s : State) (vec : Addr),
    s.inputs.resetPin = .inactive → s.inputs.resetArriving = none → s.jammed = false →
    (s.nmiPending = true ∧ vec = 0xFFFA ∨
      s.nmiPending = false ∧ s.inputs.irqLine = true ∧ s.p.i = false ∧ vec = s.board.irqVector) →
    let at' := fun k : Byte => w16 0x01 (s.sp - k)
    ∃ t pushed l h x y, step s = .next t ∧ pushed = s.p.pack false ∧ pushed.getLsbD 4 = false ∧
      pushed.getLsbD 5 = true ∧
      t.pc = w16 h l ∧ t.sp = s.sp - 3 ∧ t.a = s.a ∧ t.x = s.x ∧ t.y = s.y ∧ t.p = { s.p with i := true } ∧
      t.jammed = false ∧ t.nmiPending = s.inputs.nmiArriving ∧
      t.inputs = { s.inputs with nmiArriving := false }.elapse 7 ∧ t.board = s.board ∧
      t.mem = ((s.mem.write (at' 0).toNat (hi s.pc)).write (at' 1).toNat (lo s.pc)).write (at' 2).toNat pushed ∧
      keepsMemoryBut [at' 0, at' 1, at' 2] s t ∧
      t.bus = [.read s.pc x, .read s.pc y, .write (at' 0) (hi s.pc), .write (at' 1) (lo s.pc),
        .write (at' 2) pushed, .read vec l, .read (vec + 1) h] ∧
      givesByte s t.mem vec l ∧ givesByte s t.mem (vec + 1) h

/-- A jammed processor stays as it is whatever the interrupt lines do, and so does any processor while -RESET is
low; no access is made (46_undocumented_stable.md R395, 60_exceptions.md R512, R520) (log 11, log 20). -/
def Obligations.JammedOrHeldStateStays : Prop :=
  ∀ s : State, s.inputs.resetPin = .held ∨ s.inputs.resetPin = .inactive ∧ s.jammed = true →
    step s = .next (s.setBus [])

/-- The reset sequence: the jam and any NMI edge are forgotten, every port line is an input, PC is the word at the
reset vector, read from RAM or from a ROM of the Commodore 64, whichever answers there once the lines are inputs, and
A, X, Y, N, V, Z, C and memory stay (60_exceptions.md R530, 70_reset_and_hazards.md R553). S, I, D and PRL are free
values; PRL keeps to the implemented lines (log 20). That the bus shows nothing but the two vector reads is the model's
choice: R530 says that the reads before them are not in the source (log 31). -/
def Obligations.ResetSequenceEffects : Prop :=
  ∀ s : State, s.inputs.resetPin = .released → s.inputs.resetArriving = none →
    ∃ t l h, step s = .next t ∧ t.jammed = false ∧ t.nmiPending = false ∧ t.ddr = 0 ∧
      t.prl &&& ~~~(portMask s.board.variant) = 0 ∧
      t.pc = w16 h l ∧ t.bus = [.read s.board.resetVector l, .read (s.board.resetVector + 1) h] ∧
      t.a = s.a ∧ t.x = s.x ∧ t.y = s.y ∧ t.p.n = s.p.n ∧ t.p.v = s.p.v ∧ t.p.z = s.p.z ∧ t.p.c = s.p.c ∧
      (∀ b, t.mem.read b = s.mem.read b ∧ t.colorRam.read b = s.colorRam.read b) ∧
      t.inputs = { s.inputs with resetPin := .inactive, nmiArriving := false }.elapse 2 ∧ t.board = s.board ∧
      givesByte (s.setDdr 0) s.mem s.board.resetVector l ∧ givesByte (s.setDdr 0) s.mem (s.board.resetVector + 1) h

/-- An instruction into which -RESET falls after some of its bus cycles is not completed: those cycles have been
made, what they wrote stays written, A, X and Y are as before, and -RESET is low, which makes every port line an
input (60_exceptions.md R530, 10_state.md R46). The flags are as before, but that an RTI may have pulled them; PC
and S are of no account, the reset sequence sets them (log 20). How many cycles an instruction has that jams is the
model's choice (log 11, and log 12 for $82, $C2 and $E2). -/
def Obligations.UnfinishedInstructionKeepsItsWrites : Prop :=
  ∀ (s u : State) (k : Nat), (s.setBus []).event = .instruction → s.inputs.resetArriving = some k →
    let f := (s.setBus []).fetchInstr
    exec f.1 f.2 = .next u → k < u.bus.length →
    ∃ t w, step s = .next t ∧ t.bus = u.bus.take k ∧ t.a = s.a ∧ t.x = s.x ∧ t.y = s.y ∧
      (t.p = s.p ∨ f.1 = .rti ∧ t.p = u.p) ∧ t.jammed = false ∧ t.board = s.board ∧
      t.inputs.resetPin = .held ∧ t.inputs.resetArriving = none ∧ t.ddr = 0 ∧
      holdsStores ((u.bus.take k).filterMap fun c => match c with | .write a v => some (a, v) | _ => none) s w ∧
      t.mem = w.mem ∧ t.colorRam = w.colorRam ∧ t.prl = w.prl

/-- The state after reset: no jam, no NMI pending, every port line an input, PC the word at the reset vector
(10_state.md R46, R52). PC is the word a memory with nothing listed gives there (log 6). That the reset vector is $FFFC
and the IRQ vector $FFFE is decision D18, general knowledge (log 29). -/
def Obligations.ResetStateValues : Prop :=
  State.reset.jammed = false ∧ State.reset.nmiPending = false ∧ State.reset.ddr = 0 ∧
    State.reset.pc = w16 (State.reset.mem.read 0xFFFD) (State.reset.mem.read 0xFFFC) ∧
    State.reset.board.resetVector = 0xFFFC ∧ State.reset.board.irqVector = 0xFFFE

/-- The state after reset meets the invariant. -/
def Obligations.ResetMeetsInvariant : Prop := State.reset.inv = true

/-- Every step keeps the invariant: the memories stay in canonical form, the colour RAM holds nybbles at its own
addresses, and no bit of DDR or PRL is set where the part has no line (10_state.md R41, R42, 20_memory.md R83). The
canonical form is the model's own. -/
def Obligations.EveryStepKeepsInvariant : Prop :=
  ∀ s t : State, s.inv = true → step s = .next t → t.inv = true

/-- A step that runs an instruction makes as many accesses as the tables give the instruction cycles, extra cycles
for page crossings and taken branches included (40_addressing_modes.md R165, 70_reset_and_hazards.md R572). That $82,
$C2 and $E2 make their two accesses when they jam too is the model's choice: 46_undocumented_stable.md R395 says that
the cycles before locking up are not in the source, and R396 reads no operand there (log 12). The wrap of a branch
target at $FFFF is log 25. -/
def Obligations.AccessesMatchCycleTable : Prop :=
  ∀ (s : State) (n : Nat), (s.setBus []).event = .instruction → s.inputs.resetArriving = none →
    let f := (s.setBus []).fetchInstr
    cycles f.1 = some n →
    ∃ t, step s = .next t ∧ t.bus.length = n + extraCycles f.1 f.2

/-- An RTI undoes an interrupt entry or a BRK, and an RTS goes on after the JSR, in every state in between that has the
S of the entry and in which the bytes that the entry pushed read as it left them: S and, for the RTI, all six flags are
those from before, and PC is that from before, for the BRK the address after its second byte and for the JSR the
address after its last one (60_exceptions.md R531, 44_control_flow.md R316, 45_stack_flags_system.md R351). -/
def Obligations.ReturnsUndoEntries : Prop :=
  ∀ (s v : State) (vec addr : Addr), s.mem.wf = true →
    let stands := fun (u : State) (n : Nat) => v.sp = u.sp ∧ ∀ k : Byte, 0 < k.toNat → k.toNat ≤ n →
      v.mem.read (w16 0x01 (u.sp + k)).toNat = u.mem.read (w16 0x01 (u.sp + k)).toNat
    (stands (s.interruptSequence vec) 3 → ∃ t, exec .rti v = .next t ∧ t.pc = s.pc ∧ t.sp = s.sp ∧ t.p = s.p) ∧
    (∃ u, exec .brk s = .next u ∧
      (stands u 3 → ∃ t, exec .rti v = .next t ∧ t.pc = s.pc + 1 ∧ t.sp = s.sp ∧ t.p = s.p)) ∧
    (∃ u, exec (.jsrAbs addr) s = .next u ∧
      (stands u 2 → ∃ t, exec .rts v = .next t ∧ t.pc = s.pc + 1 ∧ t.sp = s.sp ∧ t.p = v.p))
end

