-- ==== Sys2Proof/Laws/Memory.lean ====
section
/-! SUPPORT. What reading and writing a memory do: a write is read back, every other address reads as before, and
the canonical form is kept. -/

namespace Sys2Proof.Machine

theorem Memory.startsAbove_mono {a b : Nat} {m : Memory} (hab : a ≤ b) (h : Memory.startsAbove b m = true) :
    Memory.startsAbove a m = true := by
  cases m with
  | nil => rfl
  | cons c rest => simp [Memory.startsAbove] at h ⊢; omega

/-- The parts of the canonical form of a memory with a first cell. -/
theorem Memory.wf_cons {a : Nat} {v : Byte} {m : Memory} :
    Memory.wf ((a, v) :: m) = true ↔
      a < 65536 ∧ v ≠ Memory.unlisted ∧ Memory.startsAbove a m = true ∧ Memory.wf m = true := by
  simp [Memory.wf, and_assoc]

/-- An address at or below everything listed is not listed. -/
theorem Memory.read_below {a b : Nat} {m : Memory} (hba : b ≤ a) (hs : Memory.startsAbove a m = true)
    (hw : Memory.wf m = true) : Memory.read m b = Memory.unlisted := by
  induction m generalizing a with
  | nil => rfl
  | cons c rest ih =>
    obtain ⟨k, w⟩ := c
    obtain ⟨-, -, hs', hw'⟩ := Memory.wf_cons.mp hw
    have hk : a < k := by simpa [Memory.startsAbove] using hs
    have hbk : b ≠ k := by omega
    simp only [Memory.read, if_neg hbk]
    exact ih (a := k) (by omega) hs' hw'

theorem Memory.read_consCell_self {a : Nat} {v : Byte} {m : Memory} (hs : Memory.startsAbove a m = true)
    (hw : Memory.wf m = true) : (Memory.consCell a v m).read a = v := by
  unfold Memory.consCell
  split
  · next h => rw [h]; exact Memory.read_below (Nat.le_refl a) hs hw
  · simp [Memory.read]

theorem Memory.read_consCell_other {a b : Nat} {v : Byte} {m : Memory} (h : b ≠ a) :
    (Memory.consCell a v m).read b = m.read b := by
  unfold Memory.consCell
  split
  · rfl
  · simp [Memory.read, h]

theorem Memory.consCell_wf {a : Nat} {v : Byte} {m : Memory} (ha : a < 65536)
    (hs : Memory.startsAbove a m = true) (hw : Memory.wf m = true) :
    (Memory.consCell a v m).wf = true := by
  unfold Memory.consCell
  split
  · exact hw
  · next h => exact Memory.wf_cons.mpr ⟨ha, h, hs, hw⟩

theorem Memory.startsAbove_consCell {a b : Nat} {v : Byte} {m : Memory} (h : a < b)
    (hs : Memory.startsAbove b m = true) : Memory.startsAbove a (Memory.consCell b v m) = true := by
  unfold Memory.consCell
  split
  · exact Memory.startsAbove_mono (Nat.le_of_lt h) hs
  · simpa [Memory.startsAbove] using h

theorem Memory.startsAbove_write {a b : Nat} {v : Byte} {m : Memory} (h : a < b)
    (hs : Memory.startsAbove a m = true) (hw : Memory.wf m = true) :
    Memory.startsAbove a (m.write b v) = true := by
  cases m with
  | nil => exact Memory.startsAbove_consCell h rfl
  | cons c rest =>
    obtain ⟨k, w⟩ := c
    have hk : a < k := by simpa [Memory.startsAbove] using hs
    obtain ⟨-, -, hs', -⟩ := Memory.wf_cons.mp hw
    unfold Memory.write
    split
    · next hbk => exact Memory.startsAbove_consCell h (by simpa [Memory.startsAbove] using hbk)
    · split
      · next hbk => subst hbk; exact Memory.startsAbove_consCell h hs'
      · simpa [Memory.startsAbove] using hk

/-- A write keeps the canonical form. -/
theorem Memory.write_wf {a : Nat} {v : Byte} {m : Memory} (ha : a < 65536) (hw : Memory.wf m = true) :
    (m.write a v).wf = true := by
  induction m with
  | nil => exact Memory.consCell_wf ha rfl rfl
  | cons c rest ih =>
    obtain ⟨k, w⟩ := c
    obtain ⟨hk, hv, hs, hw'⟩ := Memory.wf_cons.mp hw
    unfold Memory.write
    split
    · next h => exact Memory.consCell_wf ha (by simpa [Memory.startsAbove] using h) hw
    · split
      · next h => subst h; exact Memory.consCell_wf ha hs hw'
      · next h1 h2 =>
          exact Memory.wf_cons.mpr ⟨hk, hv, Memory.startsAbove_write (by omega) hs hw', ih hw'⟩

/-- A write leaves every other address alone. -/
theorem Memory.read_write_other {a b : Nat} {v : Byte} {m : Memory} (h : b ≠ a) :
    (m.write a v).read b = m.read b := by
  induction m with
  | nil => exact Memory.read_consCell_other h
  | cons c rest ih =>
    obtain ⟨k, w⟩ := c
    unfold Memory.write
    split
    · exact Memory.read_consCell_other h
    · split
      · next hk => subst hk; rw [Memory.read_consCell_other h]; simp [Memory.read, h]
      · simp only [Memory.read, ih]

/-- A read after a write to the same address gives the byte written. -/
theorem Memory.read_write_self {a : Nat} {v : Byte} {m : Memory} (hw : Memory.wf m = true) :
    (m.write a v).read a = v := by
  induction m with
  | nil => exact Memory.read_consCell_self rfl rfl
  | cons c rest ih =>
    obtain ⟨k, w⟩ := c
    obtain ⟨-, -, hs, hw'⟩ := Memory.wf_cons.mp hw
    unfold Memory.write
    split
    · next h => exact Memory.read_consCell_self (by simpa [Memory.startsAbove] using h) hw
    · split
      · next h => subst h; exact Memory.read_consCell_self hs hw'
      · next h => simp only [Memory.read, if_neg h]; exact ih hw'

/-- A cell of a memory after a write is the one written or was there. -/
theorem Memory.mem_write {a : Nat} {v : Byte} {m : Memory} {c : Host.Cell} (h : c ∈ m.write a v) :
    c = (a, v) ∨ c ∈ m := by
  induction m with
  | nil =>
    simp only [Memory.write, Memory.consCell] at h
    split at h <;> simp_all
  | cons d rest ih =>
    obtain ⟨k, w⟩ := d
    simp only [Memory.write, Memory.consCell] at h
    split at h
    · split at h <;> simp_all
    · split at h
      · split at h
        · exact .inr (List.mem_cons_of_mem _ h)
        · rcases List.mem_cons.mp h with h | h
          · exact .inl h
          · exact .inr (List.mem_cons_of_mem _ h)
      · rcases List.mem_cons.mp h with h | h
        · simp [h]
        · rcases ih h with h | h
          · exact .inl h
          · exact .inr (List.mem_cons_of_mem _ h)

/-- Loading bytes keeps the canonical form. -/
theorem loadBytes_wf {m : Memory} {a : Addr} {vs : List Byte} (hw : m.wf = true) :
    (loadBytes m a vs).wf = true := by
  induction vs generalizing m a with
  | nil => exact hw
  | cons v rest ih => exact ih (Memory.write_wf a.isLt hw)

end Sys2Proof.Machine
end

