-- ==== Sys2Proof/Laws/State.lean ====
section
/-! SUPPORT. One lemma per field per update of State, true by rfl, so that no proof unfolds a record update. -/

namespace Sys2Proof.Machine

@[simp] theorem State.setA_a (s : State) (v : Byte) : (s.setA v).a = v := rfl
@[simp] theorem State.setA_x (s : State) (v : Byte) : (s.setA v).x = s.x := rfl
@[simp] theorem State.setA_y (s : State) (v : Byte) : (s.setA v).y = s.y := rfl
@[simp] theorem State.setA_sp (s : State) (v : Byte) : (s.setA v).sp = s.sp := rfl
@[simp] theorem State.setA_pc (s : State) (v : Byte) : (s.setA v).pc = s.pc := rfl
@[simp] theorem State.setA_p (s : State) (v : Byte) : (s.setA v).p = s.p := rfl
@[simp] theorem State.setA_ddr (s : State) (v : Byte) : (s.setA v).ddr = s.ddr := rfl
@[simp] theorem State.setA_prl (s : State) (v : Byte) : (s.setA v).prl = s.prl := rfl
@[simp] theorem State.setA_mem (s : State) (v : Byte) : (s.setA v).mem = s.mem := rfl
@[simp] theorem State.setA_colorRam (s : State) (v : Byte) : (s.setA v).colorRam = s.colorRam := rfl
@[simp] theorem State.setA_jammed (s : State) (v : Byte) : (s.setA v).jammed = s.jammed := rfl
@[simp] theorem State.setA_nmiPending (s : State) (v : Byte) : (s.setA v).nmiPending = s.nmiPending := rfl
@[simp] theorem State.setA_inputs (s : State) (v : Byte) : (s.setA v).inputs = s.inputs := rfl
@[simp] theorem State.setA_board (s : State) (v : Byte) : (s.setA v).board = s.board := rfl
@[simp] theorem State.setA_draws (s : State) (v : Byte) : (s.setA v).draws = s.draws := rfl
@[simp] theorem State.setA_bus (s : State) (v : Byte) : (s.setA v).bus = s.bus := rfl

@[simp] theorem State.setX_a (s : State) (v : Byte) : (s.setX v).a = s.a := rfl
@[simp] theorem State.setX_x (s : State) (v : Byte) : (s.setX v).x = v := rfl
@[simp] theorem State.setX_y (s : State) (v : Byte) : (s.setX v).y = s.y := rfl
@[simp] theorem State.setX_sp (s : State) (v : Byte) : (s.setX v).sp = s.sp := rfl
@[simp] theorem State.setX_pc (s : State) (v : Byte) : (s.setX v).pc = s.pc := rfl
@[simp] theorem State.setX_p (s : State) (v : Byte) : (s.setX v).p = s.p := rfl
@[simp] theorem State.setX_ddr (s : State) (v : Byte) : (s.setX v).ddr = s.ddr := rfl
@[simp] theorem State.setX_prl (s : State) (v : Byte) : (s.setX v).prl = s.prl := rfl
@[simp] theorem State.setX_mem (s : State) (v : Byte) : (s.setX v).mem = s.mem := rfl
@[simp] theorem State.setX_colorRam (s : State) (v : Byte) : (s.setX v).colorRam = s.colorRam := rfl
@[simp] theorem State.setX_jammed (s : State) (v : Byte) : (s.setX v).jammed = s.jammed := rfl
@[simp] theorem State.setX_nmiPending (s : State) (v : Byte) : (s.setX v).nmiPending = s.nmiPending := rfl
@[simp] theorem State.setX_inputs (s : State) (v : Byte) : (s.setX v).inputs = s.inputs := rfl
@[simp] theorem State.setX_board (s : State) (v : Byte) : (s.setX v).board = s.board := rfl
@[simp] theorem State.setX_draws (s : State) (v : Byte) : (s.setX v).draws = s.draws := rfl
@[simp] theorem State.setX_bus (s : State) (v : Byte) : (s.setX v).bus = s.bus := rfl

@[simp] theorem State.setY_a (s : State) (v : Byte) : (s.setY v).a = s.a := rfl
@[simp] theorem State.setY_x (s : State) (v : Byte) : (s.setY v).x = s.x := rfl
@[simp] theorem State.setY_y (s : State) (v : Byte) : (s.setY v).y = v := rfl
@[simp] theorem State.setY_sp (s : State) (v : Byte) : (s.setY v).sp = s.sp := rfl
@[simp] theorem State.setY_pc (s : State) (v : Byte) : (s.setY v).pc = s.pc := rfl
@[simp] theorem State.setY_p (s : State) (v : Byte) : (s.setY v).p = s.p := rfl
@[simp] theorem State.setY_ddr (s : State) (v : Byte) : (s.setY v).ddr = s.ddr := rfl
@[simp] theorem State.setY_prl (s : State) (v : Byte) : (s.setY v).prl = s.prl := rfl
@[simp] theorem State.setY_mem (s : State) (v : Byte) : (s.setY v).mem = s.mem := rfl
@[simp] theorem State.setY_colorRam (s : State) (v : Byte) : (s.setY v).colorRam = s.colorRam := rfl
@[simp] theorem State.setY_jammed (s : State) (v : Byte) : (s.setY v).jammed = s.jammed := rfl
@[simp] theorem State.setY_nmiPending (s : State) (v : Byte) : (s.setY v).nmiPending = s.nmiPending := rfl
@[simp] theorem State.setY_inputs (s : State) (v : Byte) : (s.setY v).inputs = s.inputs := rfl
@[simp] theorem State.setY_board (s : State) (v : Byte) : (s.setY v).board = s.board := rfl
@[simp] theorem State.setY_draws (s : State) (v : Byte) : (s.setY v).draws = s.draws := rfl
@[simp] theorem State.setY_bus (s : State) (v : Byte) : (s.setY v).bus = s.bus := rfl

@[simp] theorem State.setSp_a (s : State) (v : Byte) : (s.setSp v).a = s.a := rfl
@[simp] theorem State.setSp_x (s : State) (v : Byte) : (s.setSp v).x = s.x := rfl
@[simp] theorem State.setSp_y (s : State) (v : Byte) : (s.setSp v).y = s.y := rfl
@[simp] theorem State.setSp_sp (s : State) (v : Byte) : (s.setSp v).sp = v := rfl
@[simp] theorem State.setSp_pc (s : State) (v : Byte) : (s.setSp v).pc = s.pc := rfl
@[simp] theorem State.setSp_p (s : State) (v : Byte) : (s.setSp v).p = s.p := rfl
@[simp] theorem State.setSp_ddr (s : State) (v : Byte) : (s.setSp v).ddr = s.ddr := rfl
@[simp] theorem State.setSp_prl (s : State) (v : Byte) : (s.setSp v).prl = s.prl := rfl
@[simp] theorem State.setSp_mem (s : State) (v : Byte) : (s.setSp v).mem = s.mem := rfl
@[simp] theorem State.setSp_colorRam (s : State) (v : Byte) : (s.setSp v).colorRam = s.colorRam := rfl
@[simp] theorem State.setSp_jammed (s : State) (v : Byte) : (s.setSp v).jammed = s.jammed := rfl
@[simp] theorem State.setSp_nmiPending (s : State) (v : Byte) : (s.setSp v).nmiPending = s.nmiPending := rfl
@[simp] theorem State.setSp_inputs (s : State) (v : Byte) : (s.setSp v).inputs = s.inputs := rfl
@[simp] theorem State.setSp_board (s : State) (v : Byte) : (s.setSp v).board = s.board := rfl
@[simp] theorem State.setSp_draws (s : State) (v : Byte) : (s.setSp v).draws = s.draws := rfl
@[simp] theorem State.setSp_bus (s : State) (v : Byte) : (s.setSp v).bus = s.bus := rfl

@[simp] theorem State.setPc_a (s : State) (v : Addr) : (s.setPc v).a = s.a := rfl
@[simp] theorem State.setPc_x (s : State) (v : Addr) : (s.setPc v).x = s.x := rfl
@[simp] theorem State.setPc_y (s : State) (v : Addr) : (s.setPc v).y = s.y := rfl
@[simp] theorem State.setPc_sp (s : State) (v : Addr) : (s.setPc v).sp = s.sp := rfl
@[simp] theorem State.setPc_pc (s : State) (v : Addr) : (s.setPc v).pc = v := rfl
@[simp] theorem State.setPc_p (s : State) (v : Addr) : (s.setPc v).p = s.p := rfl
@[simp] theorem State.setPc_ddr (s : State) (v : Addr) : (s.setPc v).ddr = s.ddr := rfl
@[simp] theorem State.setPc_prl (s : State) (v : Addr) : (s.setPc v).prl = s.prl := rfl
@[simp] theorem State.setPc_mem (s : State) (v : Addr) : (s.setPc v).mem = s.mem := rfl
@[simp] theorem State.setPc_colorRam (s : State) (v : Addr) : (s.setPc v).colorRam = s.colorRam := rfl
@[simp] theorem State.setPc_jammed (s : State) (v : Addr) : (s.setPc v).jammed = s.jammed := rfl
@[simp] theorem State.setPc_nmiPending (s : State) (v : Addr) : (s.setPc v).nmiPending = s.nmiPending := rfl
@[simp] theorem State.setPc_inputs (s : State) (v : Addr) : (s.setPc v).inputs = s.inputs := rfl
@[simp] theorem State.setPc_board (s : State) (v : Addr) : (s.setPc v).board = s.board := rfl
@[simp] theorem State.setPc_draws (s : State) (v : Addr) : (s.setPc v).draws = s.draws := rfl
@[simp] theorem State.setPc_bus (s : State) (v : Addr) : (s.setPc v).bus = s.bus := rfl

@[simp] theorem State.setP_a (s : State) (v : Flags) : (s.setP v).a = s.a := rfl
@[simp] theorem State.setP_x (s : State) (v : Flags) : (s.setP v).x = s.x := rfl
@[simp] theorem State.setP_y (s : State) (v : Flags) : (s.setP v).y = s.y := rfl
@[simp] theorem State.setP_sp (s : State) (v : Flags) : (s.setP v).sp = s.sp := rfl
@[simp] theorem State.setP_pc (s : State) (v : Flags) : (s.setP v).pc = s.pc := rfl
@[simp] theorem State.setP_p (s : State) (v : Flags) : (s.setP v).p = v := rfl
@[simp] theorem State.setP_ddr (s : State) (v : Flags) : (s.setP v).ddr = s.ddr := rfl
@[simp] theorem State.setP_prl (s : State) (v : Flags) : (s.setP v).prl = s.prl := rfl
@[simp] theorem State.setP_mem (s : State) (v : Flags) : (s.setP v).mem = s.mem := rfl
@[simp] theorem State.setP_colorRam (s : State) (v : Flags) : (s.setP v).colorRam = s.colorRam := rfl
@[simp] theorem State.setP_jammed (s : State) (v : Flags) : (s.setP v).jammed = s.jammed := rfl
@[simp] theorem State.setP_nmiPending (s : State) (v : Flags) : (s.setP v).nmiPending = s.nmiPending := rfl
@[simp] theorem State.setP_inputs (s : State) (v : Flags) : (s.setP v).inputs = s.inputs := rfl
@[simp] theorem State.setP_board (s : State) (v : Flags) : (s.setP v).board = s.board := rfl
@[simp] theorem State.setP_draws (s : State) (v : Flags) : (s.setP v).draws = s.draws := rfl
@[simp] theorem State.setP_bus (s : State) (v : Flags) : (s.setP v).bus = s.bus := rfl

@[simp] theorem State.setDdr_a (s : State) (v : Byte) : (s.setDdr v).a = s.a := rfl
@[simp] theorem State.setDdr_x (s : State) (v : Byte) : (s.setDdr v).x = s.x := rfl
@[simp] theorem State.setDdr_y (s : State) (v : Byte) : (s.setDdr v).y = s.y := rfl
@[simp] theorem State.setDdr_sp (s : State) (v : Byte) : (s.setDdr v).sp = s.sp := rfl
@[simp] theorem State.setDdr_pc (s : State) (v : Byte) : (s.setDdr v).pc = s.pc := rfl
@[simp] theorem State.setDdr_p (s : State) (v : Byte) : (s.setDdr v).p = s.p := rfl
@[simp] theorem State.setDdr_ddr (s : State) (v : Byte) : (s.setDdr v).ddr = v := rfl
@[simp] theorem State.setDdr_prl (s : State) (v : Byte) : (s.setDdr v).prl = s.prl := rfl
@[simp] theorem State.setDdr_mem (s : State) (v : Byte) : (s.setDdr v).mem = s.mem := rfl
@[simp] theorem State.setDdr_colorRam (s : State) (v : Byte) : (s.setDdr v).colorRam = s.colorRam := rfl
@[simp] theorem State.setDdr_jammed (s : State) (v : Byte) : (s.setDdr v).jammed = s.jammed := rfl
@[simp] theorem State.setDdr_nmiPending (s : State) (v : Byte) : (s.setDdr v).nmiPending = s.nmiPending := rfl
@[simp] theorem State.setDdr_inputs (s : State) (v : Byte) : (s.setDdr v).inputs = s.inputs := rfl
@[simp] theorem State.setDdr_board (s : State) (v : Byte) : (s.setDdr v).board = s.board := rfl
@[simp] theorem State.setDdr_draws (s : State) (v : Byte) : (s.setDdr v).draws = s.draws := rfl
@[simp] theorem State.setDdr_bus (s : State) (v : Byte) : (s.setDdr v).bus = s.bus := rfl

@[simp] theorem State.setPrl_a (s : State) (v : Byte) : (s.setPrl v).a = s.a := rfl
@[simp] theorem State.setPrl_x (s : State) (v : Byte) : (s.setPrl v).x = s.x := rfl
@[simp] theorem State.setPrl_y (s : State) (v : Byte) : (s.setPrl v).y = s.y := rfl
@[simp] theorem State.setPrl_sp (s : State) (v : Byte) : (s.setPrl v).sp = s.sp := rfl
@[simp] theorem State.setPrl_pc (s : State) (v : Byte) : (s.setPrl v).pc = s.pc := rfl
@[simp] theorem State.setPrl_p (s : State) (v : Byte) : (s.setPrl v).p = s.p := rfl
@[simp] theorem State.setPrl_ddr (s : State) (v : Byte) : (s.setPrl v).ddr = s.ddr := rfl
@[simp] theorem State.setPrl_prl (s : State) (v : Byte) : (s.setPrl v).prl = v := rfl
@[simp] theorem State.setPrl_mem (s : State) (v : Byte) : (s.setPrl v).mem = s.mem := rfl
@[simp] theorem State.setPrl_colorRam (s : State) (v : Byte) : (s.setPrl v).colorRam = s.colorRam := rfl
@[simp] theorem State.setPrl_jammed (s : State) (v : Byte) : (s.setPrl v).jammed = s.jammed := rfl
@[simp] theorem State.setPrl_nmiPending (s : State) (v : Byte) : (s.setPrl v).nmiPending = s.nmiPending := rfl
@[simp] theorem State.setPrl_inputs (s : State) (v : Byte) : (s.setPrl v).inputs = s.inputs := rfl
@[simp] theorem State.setPrl_board (s : State) (v : Byte) : (s.setPrl v).board = s.board := rfl
@[simp] theorem State.setPrl_draws (s : State) (v : Byte) : (s.setPrl v).draws = s.draws := rfl
@[simp] theorem State.setPrl_bus (s : State) (v : Byte) : (s.setPrl v).bus = s.bus := rfl

@[simp] theorem State.setMem_a (s : State) (v : Memory) : (s.setMem v).a = s.a := rfl
@[simp] theorem State.setMem_x (s : State) (v : Memory) : (s.setMem v).x = s.x := rfl
@[simp] theorem State.setMem_y (s : State) (v : Memory) : (s.setMem v).y = s.y := rfl
@[simp] theorem State.setMem_sp (s : State) (v : Memory) : (s.setMem v).sp = s.sp := rfl
@[simp] theorem State.setMem_pc (s : State) (v : Memory) : (s.setMem v).pc = s.pc := rfl
@[simp] theorem State.setMem_p (s : State) (v : Memory) : (s.setMem v).p = s.p := rfl
@[simp] theorem State.setMem_ddr (s : State) (v : Memory) : (s.setMem v).ddr = s.ddr := rfl
@[simp] theorem State.setMem_prl (s : State) (v : Memory) : (s.setMem v).prl = s.prl := rfl
@[simp] theorem State.setMem_mem (s : State) (v : Memory) : (s.setMem v).mem = v := rfl
@[simp] theorem State.setMem_colorRam (s : State) (v : Memory) : (s.setMem v).colorRam = s.colorRam := rfl
@[simp] theorem State.setMem_jammed (s : State) (v : Memory) : (s.setMem v).jammed = s.jammed := rfl
@[simp] theorem State.setMem_nmiPending (s : State) (v : Memory) : (s.setMem v).nmiPending = s.nmiPending := rfl
@[simp] theorem State.setMem_inputs (s : State) (v : Memory) : (s.setMem v).inputs = s.inputs := rfl
@[simp] theorem State.setMem_board (s : State) (v : Memory) : (s.setMem v).board = s.board := rfl
@[simp] theorem State.setMem_draws (s : State) (v : Memory) : (s.setMem v).draws = s.draws := rfl
@[simp] theorem State.setMem_bus (s : State) (v : Memory) : (s.setMem v).bus = s.bus := rfl

@[simp] theorem State.setColorRam_a (s : State) (v : Memory) : (s.setColorRam v).a = s.a := rfl
@[simp] theorem State.setColorRam_x (s : State) (v : Memory) : (s.setColorRam v).x = s.x := rfl
@[simp] theorem State.setColorRam_y (s : State) (v : Memory) : (s.setColorRam v).y = s.y := rfl
@[simp] theorem State.setColorRam_sp (s : State) (v : Memory) : (s.setColorRam v).sp = s.sp := rfl
@[simp] theorem State.setColorRam_pc (s : State) (v : Memory) : (s.setColorRam v).pc = s.pc := rfl
@[simp] theorem State.setColorRam_p (s : State) (v : Memory) : (s.setColorRam v).p = s.p := rfl
@[simp] theorem State.setColorRam_ddr (s : State) (v : Memory) : (s.setColorRam v).ddr = s.ddr := rfl
@[simp] theorem State.setColorRam_prl (s : State) (v : Memory) : (s.setColorRam v).prl = s.prl := rfl
@[simp] theorem State.setColorRam_mem (s : State) (v : Memory) : (s.setColorRam v).mem = s.mem := rfl
@[simp] theorem State.setColorRam_colorRam (s : State) (v : Memory) : (s.setColorRam v).colorRam = v := rfl
@[simp] theorem State.setColorRam_jammed (s : State) (v : Memory) : (s.setColorRam v).jammed = s.jammed := rfl
@[simp] theorem State.setColorRam_nmiPending (s : State) (v : Memory) : (s.setColorRam v).nmiPending = s.nmiPending := rfl
@[simp] theorem State.setColorRam_inputs (s : State) (v : Memory) : (s.setColorRam v).inputs = s.inputs := rfl
@[simp] theorem State.setColorRam_board (s : State) (v : Memory) : (s.setColorRam v).board = s.board := rfl
@[simp] theorem State.setColorRam_draws (s : State) (v : Memory) : (s.setColorRam v).draws = s.draws := rfl
@[simp] theorem State.setColorRam_bus (s : State) (v : Memory) : (s.setColorRam v).bus = s.bus := rfl

@[simp] theorem State.setJammed_a (s : State) (v : Bool) : (s.setJammed v).a = s.a := rfl
@[simp] theorem State.setJammed_x (s : State) (v : Bool) : (s.setJammed v).x = s.x := rfl
@[simp] theorem State.setJammed_y (s : State) (v : Bool) : (s.setJammed v).y = s.y := rfl
@[simp] theorem State.setJammed_sp (s : State) (v : Bool) : (s.setJammed v).sp = s.sp := rfl
@[simp] theorem State.setJammed_pc (s : State) (v : Bool) : (s.setJammed v).pc = s.pc := rfl
@[simp] theorem State.setJammed_p (s : State) (v : Bool) : (s.setJammed v).p = s.p := rfl
@[simp] theorem State.setJammed_ddr (s : State) (v : Bool) : (s.setJammed v).ddr = s.ddr := rfl
@[simp] theorem State.setJammed_prl (s : State) (v : Bool) : (s.setJammed v).prl = s.prl := rfl
@[simp] theorem State.setJammed_mem (s : State) (v : Bool) : (s.setJammed v).mem = s.mem := rfl
@[simp] theorem State.setJammed_colorRam (s : State) (v : Bool) : (s.setJammed v).colorRam = s.colorRam := rfl
@[simp] theorem State.setJammed_jammed (s : State) (v : Bool) : (s.setJammed v).jammed = v := rfl
@[simp] theorem State.setJammed_nmiPending (s : State) (v : Bool) : (s.setJammed v).nmiPending = s.nmiPending := rfl
@[simp] theorem State.setJammed_inputs (s : State) (v : Bool) : (s.setJammed v).inputs = s.inputs := rfl
@[simp] theorem State.setJammed_board (s : State) (v : Bool) : (s.setJammed v).board = s.board := rfl
@[simp] theorem State.setJammed_draws (s : State) (v : Bool) : (s.setJammed v).draws = s.draws := rfl
@[simp] theorem State.setJammed_bus (s : State) (v : Bool) : (s.setJammed v).bus = s.bus := rfl

@[simp] theorem State.setNmiPending_a (s : State) (v : Bool) : (s.setNmiPending v).a = s.a := rfl
@[simp] theorem State.setNmiPending_x (s : State) (v : Bool) : (s.setNmiPending v).x = s.x := rfl
@[simp] theorem State.setNmiPending_y (s : State) (v : Bool) : (s.setNmiPending v).y = s.y := rfl
@[simp] theorem State.setNmiPending_sp (s : State) (v : Bool) : (s.setNmiPending v).sp = s.sp := rfl
@[simp] theorem State.setNmiPending_pc (s : State) (v : Bool) : (s.setNmiPending v).pc = s.pc := rfl
@[simp] theorem State.setNmiPending_p (s : State) (v : Bool) : (s.setNmiPending v).p = s.p := rfl
@[simp] theorem State.setNmiPending_ddr (s : State) (v : Bool) : (s.setNmiPending v).ddr = s.ddr := rfl
@[simp] theorem State.setNmiPending_prl (s : State) (v : Bool) : (s.setNmiPending v).prl = s.prl := rfl
@[simp] theorem State.setNmiPending_mem (s : State) (v : Bool) : (s.setNmiPending v).mem = s.mem := rfl
@[simp] theorem State.setNmiPending_colorRam (s : State) (v : Bool) : (s.setNmiPending v).colorRam = s.colorRam := rfl
@[simp] theorem State.setNmiPending_jammed (s : State) (v : Bool) : (s.setNmiPending v).jammed = s.jammed := rfl
@[simp] theorem State.setNmiPending_nmiPending (s : State) (v : Bool) : (s.setNmiPending v).nmiPending = v := rfl
@[simp] theorem State.setNmiPending_inputs (s : State) (v : Bool) : (s.setNmiPending v).inputs = s.inputs := rfl
@[simp] theorem State.setNmiPending_board (s : State) (v : Bool) : (s.setNmiPending v).board = s.board := rfl
@[simp] theorem State.setNmiPending_draws (s : State) (v : Bool) : (s.setNmiPending v).draws = s.draws := rfl
@[simp] theorem State.setNmiPending_bus (s : State) (v : Bool) : (s.setNmiPending v).bus = s.bus := rfl

@[simp] theorem State.setInputs_a (s : State) (v : Inputs) : (s.setInputs v).a = s.a := rfl
@[simp] theorem State.setInputs_x (s : State) (v : Inputs) : (s.setInputs v).x = s.x := rfl
@[simp] theorem State.setInputs_y (s : State) (v : Inputs) : (s.setInputs v).y = s.y := rfl
@[simp] theorem State.setInputs_sp (s : State) (v : Inputs) : (s.setInputs v).sp = s.sp := rfl
@[simp] theorem State.setInputs_pc (s : State) (v : Inputs) : (s.setInputs v).pc = s.pc := rfl
@[simp] theorem State.setInputs_p (s : State) (v : Inputs) : (s.setInputs v).p = s.p := rfl
@[simp] theorem State.setInputs_ddr (s : State) (v : Inputs) : (s.setInputs v).ddr = s.ddr := rfl
@[simp] theorem State.setInputs_prl (s : State) (v : Inputs) : (s.setInputs v).prl = s.prl := rfl
@[simp] theorem State.setInputs_mem (s : State) (v : Inputs) : (s.setInputs v).mem = s.mem := rfl
@[simp] theorem State.setInputs_colorRam (s : State) (v : Inputs) : (s.setInputs v).colorRam = s.colorRam := rfl
@[simp] theorem State.setInputs_jammed (s : State) (v : Inputs) : (s.setInputs v).jammed = s.jammed := rfl
@[simp] theorem State.setInputs_nmiPending (s : State) (v : Inputs) : (s.setInputs v).nmiPending = s.nmiPending := rfl
@[simp] theorem State.setInputs_inputs (s : State) (v : Inputs) : (s.setInputs v).inputs = v := rfl
@[simp] theorem State.setInputs_board (s : State) (v : Inputs) : (s.setInputs v).board = s.board := rfl
@[simp] theorem State.setInputs_draws (s : State) (v : Inputs) : (s.setInputs v).draws = s.draws := rfl
@[simp] theorem State.setInputs_bus (s : State) (v : Inputs) : (s.setInputs v).bus = s.bus := rfl

@[simp] theorem State.setDraws_a (s : State) (v : Nat) : (s.setDraws v).a = s.a := rfl
@[simp] theorem State.setDraws_x (s : State) (v : Nat) : (s.setDraws v).x = s.x := rfl
@[simp] theorem State.setDraws_y (s : State) (v : Nat) : (s.setDraws v).y = s.y := rfl
@[simp] theorem State.setDraws_sp (s : State) (v : Nat) : (s.setDraws v).sp = s.sp := rfl
@[simp] theorem State.setDraws_pc (s : State) (v : Nat) : (s.setDraws v).pc = s.pc := rfl
@[simp] theorem State.setDraws_p (s : State) (v : Nat) : (s.setDraws v).p = s.p := rfl
@[simp] theorem State.setDraws_ddr (s : State) (v : Nat) : (s.setDraws v).ddr = s.ddr := rfl
@[simp] theorem State.setDraws_prl (s : State) (v : Nat) : (s.setDraws v).prl = s.prl := rfl
@[simp] theorem State.setDraws_mem (s : State) (v : Nat) : (s.setDraws v).mem = s.mem := rfl
@[simp] theorem State.setDraws_colorRam (s : State) (v : Nat) : (s.setDraws v).colorRam = s.colorRam := rfl
@[simp] theorem State.setDraws_jammed (s : State) (v : Nat) : (s.setDraws v).jammed = s.jammed := rfl
@[simp] theorem State.setDraws_nmiPending (s : State) (v : Nat) : (s.setDraws v).nmiPending = s.nmiPending := rfl
@[simp] theorem State.setDraws_inputs (s : State) (v : Nat) : (s.setDraws v).inputs = s.inputs := rfl
@[simp] theorem State.setDraws_board (s : State) (v : Nat) : (s.setDraws v).board = s.board := rfl
@[simp] theorem State.setDraws_draws (s : State) (v : Nat) : (s.setDraws v).draws = v := rfl
@[simp] theorem State.setDraws_bus (s : State) (v : Nat) : (s.setDraws v).bus = s.bus := rfl

@[simp] theorem State.setBus_a (s : State) (v : List BusAccess) : (s.setBus v).a = s.a := rfl
@[simp] theorem State.setBus_x (s : State) (v : List BusAccess) : (s.setBus v).x = s.x := rfl
@[simp] theorem State.setBus_y (s : State) (v : List BusAccess) : (s.setBus v).y = s.y := rfl
@[simp] theorem State.setBus_sp (s : State) (v : List BusAccess) : (s.setBus v).sp = s.sp := rfl
@[simp] theorem State.setBus_pc (s : State) (v : List BusAccess) : (s.setBus v).pc = s.pc := rfl
@[simp] theorem State.setBus_p (s : State) (v : List BusAccess) : (s.setBus v).p = s.p := rfl
@[simp] theorem State.setBus_ddr (s : State) (v : List BusAccess) : (s.setBus v).ddr = s.ddr := rfl
@[simp] theorem State.setBus_prl (s : State) (v : List BusAccess) : (s.setBus v).prl = s.prl := rfl
@[simp] theorem State.setBus_mem (s : State) (v : List BusAccess) : (s.setBus v).mem = s.mem := rfl
@[simp] theorem State.setBus_colorRam (s : State) (v : List BusAccess) : (s.setBus v).colorRam = s.colorRam := rfl
@[simp] theorem State.setBus_jammed (s : State) (v : List BusAccess) : (s.setBus v).jammed = s.jammed := rfl
@[simp] theorem State.setBus_nmiPending (s : State) (v : List BusAccess) : (s.setBus v).nmiPending = s.nmiPending := rfl
@[simp] theorem State.setBus_inputs (s : State) (v : List BusAccess) : (s.setBus v).inputs = s.inputs := rfl
@[simp] theorem State.setBus_board (s : State) (v : List BusAccess) : (s.setBus v).board = s.board := rfl
@[simp] theorem State.setBus_draws (s : State) (v : List BusAccess) : (s.setBus v).draws = s.draws := rfl
@[simp] theorem State.setBus_bus (s : State) (v : List BusAccess) : (s.setBus v).bus = v := rfl

end Sys2Proof.Machine
end

