-- ==== Sys2Proof/Laws/Ops.lean ====
section
/-! SUPPORT. For each shared operation, once, everything it leaves alone and what it changes, as simp lemmas about
the fields of the state it gives: later proofs cite these and unfold no operation. -/

namespace Sys2Proof.Machine

/-- A draw changes the counter alone. -/
@[simp] theorem State.draw_keeps (s : State) :
    (s.draw.2).a = s.a ∧ (s.draw.2).x = s.x ∧ (s.draw.2).y = s.y ∧ (s.draw.2).sp = s.sp ∧
    (s.draw.2).pc = s.pc ∧ (s.draw.2).p = s.p ∧ (s.draw.2).ddr = s.ddr ∧ (s.draw.2).prl = s.prl ∧
    (s.draw.2).mem = s.mem ∧ (s.draw.2).colorRam = s.colorRam ∧ (s.draw.2).jammed = s.jammed ∧
    (s.draw.2).nmiPending = s.nmiPending ∧ (s.draw.2).inputs = s.inputs ∧ (s.draw.2).board = s.board ∧
    s.draw.2.bus = s.bus := by simp [State.draw]

/-- A Boolean draw changes the counter alone. -/
@[simp] theorem State.drawBool_keeps (s : State) :
    (s.drawBool.2).a = s.a ∧ (s.drawBool.2).x = s.x ∧ (s.drawBool.2).y = s.y ∧ (s.drawBool.2).sp = s.sp ∧
    (s.drawBool.2).pc = s.pc ∧ (s.drawBool.2).p = s.p ∧ (s.drawBool.2).ddr = s.ddr ∧
    (s.drawBool.2).prl = s.prl ∧ (s.drawBool.2).mem = s.mem ∧ (s.drawBool.2).colorRam = s.colorRam ∧
    (s.drawBool.2).jammed = s.jammed ∧ (s.drawBool.2).nmiPending = s.nmiPending ∧
    (s.drawBool.2).inputs = s.inputs ∧ (s.drawBool.2).board = s.board ∧ s.drawBool.2.bus = s.bus := by simp [State.drawBool]

/-- A partly free byte changes the counter alone. -/
@[simp] theorem State.withFreeBits_keeps (s : State) (k m : Byte) :
    ((s.withFreeBits k m).2).a = s.a ∧ ((s.withFreeBits k m).2).x = s.x ∧ ((s.withFreeBits k m).2).y = s.y ∧
    ((s.withFreeBits k m).2).sp = s.sp ∧ ((s.withFreeBits k m).2).pc = s.pc ∧
    ((s.withFreeBits k m).2).p = s.p ∧ ((s.withFreeBits k m).2).ddr = s.ddr ∧
    ((s.withFreeBits k m).2).prl = s.prl ∧ ((s.withFreeBits k m).2).mem = s.mem ∧
    ((s.withFreeBits k m).2).colorRam = s.colorRam ∧ ((s.withFreeBits k m).2).jammed = s.jammed ∧
    ((s.withFreeBits k m).2).nmiPending = s.nmiPending ∧ ((s.withFreeBits k m).2).inputs = s.inputs ∧
    ((s.withFreeBits k m).2).board = s.board ∧ (s.withFreeBits k m).2.bus = s.bus := by
  unfold State.withFreeBits; split <;> simp

/-- An external ROM, present or not, changes the counter alone. -/
@[simp] theorem State.externalRom_keeps (s : State) (k : Nat) (m : Option (List Host.Cell)) (n : Nat) :
    ((s.externalRom k m n).2).a = s.a ∧ ((s.externalRom k m n).2).x = s.x ∧ ((s.externalRom k m n).2).y = s.y ∧
    ((s.externalRom k m n).2).sp = s.sp ∧ ((s.externalRom k m n).2).pc = s.pc ∧
    ((s.externalRom k m n).2).p = s.p ∧ ((s.externalRom k m n).2).ddr = s.ddr ∧
    ((s.externalRom k m n).2).prl = s.prl ∧ ((s.externalRom k m n).2).mem = s.mem ∧
    ((s.externalRom k m n).2).colorRam = s.colorRam ∧ ((s.externalRom k m n).2).jammed = s.jammed ∧
    ((s.externalRom k m n).2).nmiPending = s.nmiPending ∧ ((s.externalRom k m n).2).inputs = s.inputs ∧
    ((s.externalRom k m n).2).board = s.board ∧ (s.externalRom k m n).2.bus = s.bus := by
  unfold State.externalRom; split <;> simp

/-- What answers a read in any cycle changes the counter alone. -/
@[simp] theorem State.answerAt_keeps (s : State) (n : Nat) (addr : Addr) :
    ((s.answerAt n addr).2).a = s.a ∧ ((s.answerAt n addr).2).x = s.x ∧ ((s.answerAt n addr).2).y = s.y ∧
    ((s.answerAt n addr).2).sp = s.sp ∧ ((s.answerAt n addr).2).pc = s.pc ∧
    ((s.answerAt n addr).2).p = s.p ∧ ((s.answerAt n addr).2).ddr = s.ddr ∧
    ((s.answerAt n addr).2).prl = s.prl ∧ ((s.answerAt n addr).2).mem = s.mem ∧
    ((s.answerAt n addr).2).colorRam = s.colorRam ∧ ((s.answerAt n addr).2).jammed = s.jammed ∧
    ((s.answerAt n addr).2).nmiPending = s.nmiPending ∧ ((s.answerAt n addr).2).inputs = s.inputs ∧
    ((s.answerAt n addr).2).board = s.board ∧ (s.answerAt n addr).2.bus = s.bus := by
  unfold State.answerAt; split <;> simp

/-- What answers a read changes the counter alone. -/
@[simp] theorem State.answer_keeps (s : State) (addr : Addr) :
    ((s.answer addr).2).a = s.a ∧ ((s.answer addr).2).x = s.x ∧ ((s.answer addr).2).y = s.y ∧
    ((s.answer addr).2).sp = s.sp ∧ ((s.answer addr).2).pc = s.pc ∧ ((s.answer addr).2).p = s.p ∧
    ((s.answer addr).2).ddr = s.ddr ∧ ((s.answer addr).2).prl = s.prl ∧ ((s.answer addr).2).mem = s.mem ∧
    ((s.answer addr).2).colorRam = s.colorRam ∧ ((s.answer addr).2).jammed = s.jammed ∧
    ((s.answer addr).2).nmiPending = s.nmiPending ∧ ((s.answer addr).2).inputs = s.inputs ∧
    ((s.answer addr).2).board = s.board ∧ (s.answer addr).2.bus = s.bus := by simp [State.answer]

/-- A read cycle adds itself to the bus and changes the counter alone. -/
@[simp] theorem State.read_keeps (s : State) (addr : Addr) :
    ((s.read addr).2).a = s.a ∧ ((s.read addr).2).x = s.x ∧ ((s.read addr).2).y = s.y ∧
    ((s.read addr).2).sp = s.sp ∧ ((s.read addr).2).pc = s.pc ∧ ((s.read addr).2).p = s.p ∧
    ((s.read addr).2).ddr = s.ddr ∧ ((s.read addr).2).prl = s.prl ∧ ((s.read addr).2).mem = s.mem ∧
    ((s.read addr).2).colorRam = s.colorRam ∧ ((s.read addr).2).jammed = s.jammed ∧
    ((s.read addr).2).nmiPending = s.nmiPending ∧ ((s.read addr).2).inputs = s.inputs ∧
    ((s.read addr).2).board = s.board ∧ (s.read addr).2.bus = s.bus ++ [.read addr (s.answer addr).1] := by simp [State.read, State.log]

/-- A dummy read adds itself to the bus and changes the counter alone. -/
@[simp] theorem State.touch_keeps (s : State) (addr : Addr) :
    (s.touch addr).a = s.a ∧ (s.touch addr).x = s.x ∧ (s.touch addr).y = s.y ∧ (s.touch addr).sp = s.sp ∧
    (s.touch addr).pc = s.pc ∧ (s.touch addr).p = s.p ∧ (s.touch addr).ddr = s.ddr ∧
    (s.touch addr).prl = s.prl ∧ (s.touch addr).mem = s.mem ∧ (s.touch addr).colorRam = s.colorRam ∧
    (s.touch addr).jammed = s.jammed ∧ (s.touch addr).nmiPending = s.nmiPending ∧
    (s.touch addr).inputs = s.inputs ∧ (s.touch addr).board = s.board ∧
    (s.touch addr).bus = s.bus ++ [.read addr (s.answer addr).1] := by simp [State.touch]

/-- A fetch is a read at PC, which moves on. -/
@[simp] theorem State.fetchByte_keeps (s : State) :
    (s.fetchByte.2).a = s.a ∧ (s.fetchByte.2).x = s.x ∧ (s.fetchByte.2).y = s.y ∧ (s.fetchByte.2).sp = s.sp ∧
    (s.fetchByte.2).p = s.p ∧ (s.fetchByte.2).ddr = s.ddr ∧ (s.fetchByte.2).prl = s.prl ∧
    (s.fetchByte.2).mem = s.mem ∧ (s.fetchByte.2).colorRam = s.colorRam ∧ (s.fetchByte.2).jammed = s.jammed ∧
    (s.fetchByte.2).nmiPending = s.nmiPending ∧ (s.fetchByte.2).inputs = s.inputs ∧
    (s.fetchByte.2).board = s.board ∧ s.fetchByte.2.pc = s.pc + 1 ∧
    s.fetchByte.2.bus = s.bus ++ [.read s.pc (s.answer s.pc).1] := by simp [State.fetchByte]

/-- A bus entry changes the bus alone. -/
@[simp] theorem State.log_keeps (s : State) (c : BusAccess) :
    (s.log c).a = s.a ∧ (s.log c).x = s.x ∧ (s.log c).y = s.y ∧ (s.log c).sp = s.sp ∧ (s.log c).pc = s.pc ∧
    (s.log c).p = s.p ∧ (s.log c).ddr = s.ddr ∧ (s.log c).prl = s.prl ∧ (s.log c).mem = s.mem ∧
    (s.log c).colorRam = s.colorRam ∧ (s.log c).jammed = s.jammed ∧ (s.log c).nmiPending = s.nmiPending ∧
    (s.log c).inputs = s.inputs ∧ (s.log c).board = s.board ∧ (s.log c).bus = s.bus ++ [c] := by simp [State.log]

/-- A write reaches memory and the port alone. -/
@[simp] theorem State.accept_keeps (s : State) (addr : Addr) (v : Byte) :
    (s.accept addr v).a = s.a ∧ (s.accept addr v).x = s.x ∧ (s.accept addr v).y = s.y ∧
    (s.accept addr v).sp = s.sp ∧ (s.accept addr v).pc = s.pc ∧ (s.accept addr v).p = s.p ∧
    (s.accept addr v).jammed = s.jammed ∧ (s.accept addr v).nmiPending = s.nmiPending ∧
    (s.accept addr v).inputs = s.inputs ∧ (s.accept addr v).board = s.board ∧
    (s.accept addr v).draws = s.draws ∧ (s.accept addr v).bus = s.bus := by
  unfold State.accept; split <;> (try split) <;> simp

/-- A write cycle: the write, and itself on the bus. -/
@[simp] theorem State.write_keeps (s : State) (addr : Addr) (v : Byte) :
    (s.write addr v).a = s.a ∧ (s.write addr v).x = s.x ∧ (s.write addr v).y = s.y ∧
    (s.write addr v).sp = s.sp ∧ (s.write addr v).pc = s.pc ∧ (s.write addr v).p = s.p ∧
    (s.write addr v).jammed = s.jammed ∧ (s.write addr v).nmiPending = s.nmiPending ∧
    (s.write addr v).inputs = s.inputs ∧ (s.write addr v).board = s.board ∧
    (s.write addr v).ddr = (s.accept addr v).ddr ∧ (s.write addr v).prl = (s.accept addr v).prl ∧
    (s.write addr v).mem = (s.accept addr v).mem ∧ (s.write addr v).colorRam = (s.accept addr v).colorRam ∧
    (s.write addr v).bus = s.bus ++ [.write addr v] := by simp [State.write]

/-- A push: a write at the stack address, and S one lower. -/
@[simp] theorem State.push_keeps (s : State) (v : Byte) :
    (s.push v).a = s.a ∧ (s.push v).x = s.x ∧ (s.push v).y = s.y ∧ (s.push v).pc = s.pc ∧ (s.push v).p = s.p ∧
    (s.push v).jammed = s.jammed ∧ (s.push v).nmiPending = s.nmiPending ∧ (s.push v).inputs = s.inputs ∧
    (s.push v).board = s.board ∧ (s.push v).sp = s.sp - 1 ∧ (s.push v).ddr = (s.accept s.stackAddr v).ddr ∧
    (s.push v).prl = (s.accept s.stackAddr v).prl ∧ (s.push v).mem = (s.accept s.stackAddr v).mem ∧
    (s.push v).colorRam = (s.accept s.stackAddr v).colorRam ∧ (s.push v).bus = s.bus ++ [.write s.stackAddr v] := by simp [State.push]

/-- A pull changes S and the counter. -/
@[simp] theorem State.pull_keeps (s : State) :
    (s.pull.2).a = s.a ∧ (s.pull.2).x = s.x ∧ (s.pull.2).y = s.y ∧ (s.pull.2).pc = s.pc ∧ (s.pull.2).p = s.p ∧
    (s.pull.2).ddr = s.ddr ∧ (s.pull.2).prl = s.prl ∧ (s.pull.2).mem = s.mem ∧
    (s.pull.2).colorRam = s.colorRam ∧ (s.pull.2).jammed = s.jammed ∧ (s.pull.2).nmiPending = s.nmiPending ∧
    (s.pull.2).inputs = s.inputs ∧ (s.pull.2).board = s.board ∧ s.pull.2.sp = s.sp + 1 := by simp [State.pull]

/-- A first pull changes S and the counter. -/
@[simp] theorem State.pullFirst_keeps (s : State) :
    (s.pullFirst.2).a = s.a ∧ (s.pullFirst.2).x = s.x ∧ (s.pullFirst.2).y = s.y ∧ (s.pullFirst.2).pc = s.pc ∧
    (s.pullFirst.2).p = s.p ∧ (s.pullFirst.2).ddr = s.ddr ∧ (s.pullFirst.2).prl = s.prl ∧
    (s.pullFirst.2).mem = s.mem ∧ (s.pullFirst.2).colorRam = s.colorRam ∧ (s.pullFirst.2).jammed = s.jammed ∧
    (s.pullFirst.2).nmiPending = s.nmiPending ∧ (s.pullFirst.2).inputs = s.inputs ∧
    (s.pullFirst.2).board = s.board ∧ s.pullFirst.2.sp = s.sp + 1 := by simp [State.pullFirst]

/-- A vector gives PC alone. -/
@[simp] theorem State.loadVector_keeps (s : State) (vec : Addr) :
    (s.loadVector vec).a = s.a ∧ (s.loadVector vec).x = s.x ∧ (s.loadVector vec).y = s.y ∧
    (s.loadVector vec).sp = s.sp ∧ (s.loadVector vec).p = s.p ∧ (s.loadVector vec).ddr = s.ddr ∧
    (s.loadVector vec).prl = s.prl ∧ (s.loadVector vec).mem = s.mem ∧
    (s.loadVector vec).colorRam = s.colorRam ∧ (s.loadVector vec).jammed = s.jammed ∧
    (s.loadVector vec).nmiPending = s.nmiPending ∧ (s.loadVector vec).inputs = s.inputs ∧
    (s.loadVector vec).board = s.board := by simp [State.loadVector]

/-- The flags N and Z alone. -/
@[simp] theorem State.setNZ_keeps (s : State) (v : Byte) :
    (s.setNZ v).a = s.a ∧ (s.setNZ v).x = s.x ∧ (s.setNZ v).y = s.y ∧ (s.setNZ v).sp = s.sp ∧
    (s.setNZ v).pc = s.pc ∧ (s.setNZ v).ddr = s.ddr ∧ (s.setNZ v).prl = s.prl ∧ (s.setNZ v).mem = s.mem ∧
    (s.setNZ v).colorRam = s.colorRam ∧ (s.setNZ v).jammed = s.jammed ∧ (s.setNZ v).nmiPending = s.nmiPending ∧
    (s.setNZ v).inputs = s.inputs ∧ (s.setNZ v).board = s.board ∧ (s.setNZ v).p = s.p.withNZ v ∧
    (s.setNZ v).draws = s.draws ∧ (s.setNZ v).bus = s.bus := by simp [State.setNZ]

/-- The flag C alone. -/
@[simp] theorem State.setCarry_keeps (s : State) (c : Bool) :
    (s.setCarry c).a = s.a ∧ (s.setCarry c).x = s.x ∧ (s.setCarry c).y = s.y ∧ (s.setCarry c).sp = s.sp ∧
    (s.setCarry c).pc = s.pc ∧ (s.setCarry c).ddr = s.ddr ∧ (s.setCarry c).prl = s.prl ∧
    (s.setCarry c).mem = s.mem ∧ (s.setCarry c).colorRam = s.colorRam ∧ (s.setCarry c).jammed = s.jammed ∧
    (s.setCarry c).nmiPending = s.nmiPending ∧ (s.setCarry c).inputs = s.inputs ∧
    (s.setCarry c).board = s.board ∧ (s.setCarry c).p = s.p.withC c ∧ (s.setCarry c).draws = s.draws ∧
    (s.setCarry c).bus = s.bus := by simp [State.setCarry]

/-- A jam changes the jammed condition alone. -/
@[simp] theorem State.jam_keeps (s : State) :
    (s.jam).a = s.a ∧ (s.jam).x = s.x ∧ (s.jam).y = s.y ∧ (s.jam).sp = s.sp ∧ (s.jam).pc = s.pc ∧
    (s.jam).p = s.p ∧ (s.jam).ddr = s.ddr ∧ (s.jam).prl = s.prl ∧ (s.jam).mem = s.mem ∧
    (s.jam).colorRam = s.colorRam ∧ (s.jam).nmiPending = s.nmiPending ∧ (s.jam).inputs = s.inputs ∧
    (s.jam).board = s.board ∧ s.jam.jammed = true ∧ s.jam.bus = s.bus := by simp [State.jam]

/-- Using up the NMI edge changes that input alone. -/
@[simp] theorem State.useNmiEdge_keeps (s : State) :
    (s.useNmiEdge).a = s.a ∧ (s.useNmiEdge).x = s.x ∧ (s.useNmiEdge).y = s.y ∧ (s.useNmiEdge).sp = s.sp ∧
    (s.useNmiEdge).pc = s.pc ∧ (s.useNmiEdge).p = s.p ∧ (s.useNmiEdge).ddr = s.ddr ∧
    (s.useNmiEdge).prl = s.prl ∧ (s.useNmiEdge).mem = s.mem ∧ (s.useNmiEdge).colorRam = s.colorRam ∧
    (s.useNmiEdge).jammed = s.jammed ∧ (s.useNmiEdge).nmiPending = s.nmiPending ∧
    (s.useNmiEdge).board = s.board ∧ s.useNmiEdge.inputs = { s.inputs with nmiArriving := false } ∧
    s.useNmiEdge.bus = s.bus := by simp [State.useNmiEdge]

/-- The address cycles of `(zp,X)` change no register and no memory. -/
@[simp] theorem pointerIzx_keeps (ptr : Byte) (s : State) :
    ((pointerIzx ptr s).2).a = s.a ∧ ((pointerIzx ptr s).2).x = s.x ∧ ((pointerIzx ptr s).2).y = s.y ∧
    ((pointerIzx ptr s).2).sp = s.sp ∧ ((pointerIzx ptr s).2).pc = s.pc ∧ ((pointerIzx ptr s).2).p = s.p ∧
    ((pointerIzx ptr s).2).ddr = s.ddr ∧ ((pointerIzx ptr s).2).prl = s.prl ∧
    ((pointerIzx ptr s).2).mem = s.mem ∧ ((pointerIzx ptr s).2).colorRam = s.colorRam ∧
    ((pointerIzx ptr s).2).jammed = s.jammed ∧ ((pointerIzx ptr s).2).nmiPending = s.nmiPending ∧
    ((pointerIzx ptr s).2).inputs = s.inputs ∧ ((pointerIzx ptr s).2).board = s.board := by simp [pointerIzx]

/-- The pointer cycles of `(zp),Y` change no register and no memory. -/
@[simp] theorem pointerIzy_keeps (ptr : Byte) (s : State) :
    ((pointerIzy ptr s).2).a = s.a ∧ ((pointerIzy ptr s).2).x = s.x ∧ ((pointerIzy ptr s).2).y = s.y ∧
    ((pointerIzy ptr s).2).sp = s.sp ∧ ((pointerIzy ptr s).2).pc = s.pc ∧ ((pointerIzy ptr s).2).p = s.p ∧
    ((pointerIzy ptr s).2).ddr = s.ddr ∧ ((pointerIzy ptr s).2).prl = s.prl ∧
    ((pointerIzy ptr s).2).mem = s.mem ∧ ((pointerIzy ptr s).2).colorRam = s.colorRam ∧
    ((pointerIzy ptr s).2).jammed = s.jammed ∧ ((pointerIzy ptr s).2).nmiPending = s.nmiPending ∧
    ((pointerIzy ptr s).2).inputs = s.inputs ∧ ((pointerIzy ptr s).2).board = s.board := by simp [pointerIzy]

/-- The address cycles of an indexed read change no register and no memory. -/
@[simp] theorem readIndexed_keeps (base : Addr) (index : Byte) (s : State) :
    ((readIndexed base index s).2).a = s.a ∧ ((readIndexed base index s).2).x = s.x ∧
    ((readIndexed base index s).2).y = s.y ∧ ((readIndexed base index s).2).sp = s.sp ∧
    ((readIndexed base index s).2).pc = s.pc ∧ ((readIndexed base index s).2).p = s.p ∧
    ((readIndexed base index s).2).ddr = s.ddr ∧ ((readIndexed base index s).2).prl = s.prl ∧
    ((readIndexed base index s).2).mem = s.mem ∧ ((readIndexed base index s).2).colorRam = s.colorRam ∧
    ((readIndexed base index s).2).jammed = s.jammed ∧
    ((readIndexed base index s).2).nmiPending = s.nmiPending ∧
    ((readIndexed base index s).2).inputs = s.inputs ∧ ((readIndexed base index s).2).board = s.board := by
  unfold readIndexed; split <;> simp

/-- The address cycles of an indexed store change no register and no memory. -/
@[simp] theorem storeIndexed_keeps (base : Addr) (index : Byte) (s : State) :
    ((storeIndexed base index s).2).a = s.a ∧ ((storeIndexed base index s).2).x = s.x ∧
    ((storeIndexed base index s).2).y = s.y ∧ ((storeIndexed base index s).2).sp = s.sp ∧
    ((storeIndexed base index s).2).pc = s.pc ∧ ((storeIndexed base index s).2).p = s.p ∧
    ((storeIndexed base index s).2).ddr = s.ddr ∧ ((storeIndexed base index s).2).prl = s.prl ∧
    ((storeIndexed base index s).2).mem = s.mem ∧ ((storeIndexed base index s).2).colorRam = s.colorRam ∧
    ((storeIndexed base index s).2).jammed = s.jammed ∧
    ((storeIndexed base index s).2).nmiPending = s.nmiPending ∧
    ((storeIndexed base index s).2).inputs = s.inputs ∧ ((storeIndexed base index s).2).board = s.board := by simp [storeIndexed]

/-- The address cycles of a read operand change no register and no memory. -/
@[simp] theorem readAddress_keeps (m : MemMode) (s : State) :
    ((readAddress m s).2).a = s.a ∧ ((readAddress m s).2).x = s.x ∧ ((readAddress m s).2).y = s.y ∧
    ((readAddress m s).2).sp = s.sp ∧ ((readAddress m s).2).pc = s.pc ∧ ((readAddress m s).2).p = s.p ∧
    ((readAddress m s).2).ddr = s.ddr ∧ ((readAddress m s).2).prl = s.prl ∧ ((readAddress m s).2).mem = s.mem ∧
    ((readAddress m s).2).colorRam = s.colorRam ∧ ((readAddress m s).2).jammed = s.jammed ∧
    ((readAddress m s).2).nmiPending = s.nmiPending ∧ ((readAddress m s).2).inputs = s.inputs ∧
    ((readAddress m s).2).board = s.board := by
  cases m <;> simp [readAddress]

/-- The address cycles of a store operand change no register and no memory. -/
@[simp] theorem storeAddress_keeps (m : MemMode) (s : State) :
    ((storeAddress m s).2).a = s.a ∧ ((storeAddress m s).2).x = s.x ∧ ((storeAddress m s).2).y = s.y ∧
    ((storeAddress m s).2).sp = s.sp ∧ ((storeAddress m s).2).pc = s.pc ∧ ((storeAddress m s).2).p = s.p ∧
    ((storeAddress m s).2).ddr = s.ddr ∧ ((storeAddress m s).2).prl = s.prl ∧
    ((storeAddress m s).2).mem = s.mem ∧ ((storeAddress m s).2).colorRam = s.colorRam ∧
    ((storeAddress m s).2).jammed = s.jammed ∧ ((storeAddress m s).2).nmiPending = s.nmiPending ∧
    ((storeAddress m s).2).inputs = s.inputs ∧ ((storeAddress m s).2).board = s.board := by
  cases m <;> simp [storeAddress]

/-- Reading a memory operand changes no register and no memory. -/
@[simp] theorem readMem_keeps (m : MemMode) (s : State) :
    ((readMem m s).2).a = s.a ∧ ((readMem m s).2).x = s.x ∧ ((readMem m s).2).y = s.y ∧
    ((readMem m s).2).sp = s.sp ∧ ((readMem m s).2).pc = s.pc ∧ ((readMem m s).2).p = s.p ∧
    ((readMem m s).2).ddr = s.ddr ∧ ((readMem m s).2).prl = s.prl ∧ ((readMem m s).2).mem = s.mem ∧
    ((readMem m s).2).colorRam = s.colorRam ∧ ((readMem m s).2).jammed = s.jammed ∧
    ((readMem m s).2).nmiPending = s.nmiPending ∧ ((readMem m s).2).inputs = s.inputs ∧
    ((readMem m s).2).board = s.board := by simp [readMem]

/-- Reading an operand changes no register and no memory. -/
@[simp] theorem readOperand_keeps (o : Source) (s : State) :
    ((readOperand o s).2).a = s.a ∧ ((readOperand o s).2).x = s.x ∧ ((readOperand o s).2).y = s.y ∧
    ((readOperand o s).2).sp = s.sp ∧ ((readOperand o s).2).pc = s.pc ∧ ((readOperand o s).2).p = s.p ∧
    ((readOperand o s).2).ddr = s.ddr ∧ ((readOperand o s).2).prl = s.prl ∧ ((readOperand o s).2).mem = s.mem ∧
    ((readOperand o s).2).colorRam = s.colorRam ∧ ((readOperand o s).2).jammed = s.jammed ∧
    ((readOperand o s).2).nmiPending = s.nmiPending ∧ ((readOperand o s).2).inputs = s.inputs ∧
    ((readOperand o s).2).board = s.board := by
  cases o <;> simp [readOperand]

/-- A store operand: one write at its address. -/
@[simp] theorem writeMem_keeps (m : MemMode) (v : Byte) (s : State) :
    (writeMem m v s).a = s.a ∧ (writeMem m v s).x = s.x ∧ (writeMem m v s).y = s.y ∧
    (writeMem m v s).sp = s.sp ∧ (writeMem m v s).pc = s.pc ∧ (writeMem m v s).p = s.p ∧
    (writeMem m v s).jammed = s.jammed ∧ (writeMem m v s).nmiPending = s.nmiPending ∧
    (writeMem m v s).inputs = s.inputs ∧ (writeMem m v s).board = s.board ∧
    (writeMem m v s).ddr =
      ((storeAddress m s).2.accept (storeAddress m s).1 v).ddr ∧
    (writeMem m v s).prl =
      ((storeAddress m s).2.accept (storeAddress m s).1 v).prl ∧
    (writeMem m v s).mem =
      ((storeAddress m s).2.accept (storeAddress m s).1 v).mem ∧
    (writeMem m v s).colorRam =
      ((storeAddress m s).2.accept (storeAddress m s).1 v).colorRam := by simp [writeMem]

/-- A read-modify-write operand changes no register. -/
@[simp] theorem modifyMem_keeps (m : MemMode) (f : Byte → Byte) (s : State) :
    ((modifyMem m f s).2).a = s.a ∧ ((modifyMem m f s).2).x = s.x ∧ ((modifyMem m f s).2).y = s.y ∧
    ((modifyMem m f s).2).sp = s.sp ∧ ((modifyMem m f s).2).pc = s.pc ∧ ((modifyMem m f s).2).p = s.p ∧
    ((modifyMem m f s).2).jammed = s.jammed ∧ ((modifyMem m f s).2).nmiPending = s.nmiPending ∧
    ((modifyMem m f s).2).inputs = s.inputs ∧ ((modifyMem m f s).2).board = s.board := by simp [modifyMem]

/-- The cycles of the SHA family change no register. -/
@[simp] theorem storeHigh_keeps (base : Addr) (index reg : Byte) (s : State) :
    (storeHigh base index reg s).a = s.a ∧ (storeHigh base index reg s).x = s.x ∧
    (storeHigh base index reg s).y = s.y ∧ (storeHigh base index reg s).sp = s.sp ∧
    (storeHigh base index reg s).pc = s.pc ∧ (storeHigh base index reg s).p = s.p ∧
    (storeHigh base index reg s).jammed = s.jammed ∧ (storeHigh base index reg s).nmiPending = s.nmiPending ∧
    (storeHigh base index reg s).inputs = s.inputs ∧ (storeHigh base index reg s).board = s.board := by simp [storeHigh]

/-- The settled NMI edge: pending, no longer arriving. -/
@[simp] theorem State.settleNmi_keeps (s : State) :
    (s.settleNmi).a = s.a ∧ (s.settleNmi).x = s.x ∧ (s.settleNmi).y = s.y ∧ (s.settleNmi).sp = s.sp ∧
    (s.settleNmi).pc = s.pc ∧ (s.settleNmi).p = s.p ∧ (s.settleNmi).ddr = s.ddr ∧ (s.settleNmi).prl = s.prl ∧
    (s.settleNmi).mem = s.mem ∧ (s.settleNmi).colorRam = s.colorRam ∧ (s.settleNmi).jammed = s.jammed ∧
    (s.settleNmi).board = s.board ∧ s.settleNmi.draws = s.draws ∧ s.settleNmi.bus = s.bus ∧
    s.settleNmi.nmiPending = (s.nmiPending || s.inputs.nmiArriving) ∧
    s.settleNmi.inputs = { s.inputs with nmiArriving := false } := by
  cases h : s.inputs.nmiArriving
  · have e : { s.inputs with nmiArriving := false } = s.inputs := by rw [← h]
    simp [State.settleNmi, h, e]
  · simp [State.settleNmi, h]

/-- The time of a step moves PERIPH_IN alone. -/
@[simp] theorem State.elapse_keeps (s : State) :
    s.elapse.a = s.a ∧ s.elapse.x = s.x ∧ s.elapse.y = s.y ∧ s.elapse.sp = s.sp ∧ s.elapse.pc = s.pc ∧
    s.elapse.p = s.p ∧ s.elapse.ddr = s.ddr ∧ s.elapse.prl = s.prl ∧ s.elapse.mem = s.mem ∧
    s.elapse.colorRam = s.colorRam ∧ s.elapse.jammed = s.jammed ∧ s.elapse.nmiPending = s.nmiPending ∧
    s.elapse.board = s.board ∧ s.elapse.draws = s.draws ∧ s.elapse.bus = s.bus ∧
    s.elapse.inputs = s.inputs.elapse s.bus.length := by simp [State.elapse]

end Sys2Proof.Machine
end

