-- ==== Sys2Proof/Laws/Words.lean ====
section
/-! SUPPORT. The bytes of a 16-bit value and back. -/

namespace Sys2Proof

theorem w16_toNat (h l : Byte) : (w16 h l).toNat = 256 * h.toNat + l.toNat := by
  have := l.isLt
  rw [w16, BitVec.toNat_append, ← Nat.shiftLeft_add_eq_or_of_lt (by omega), Nat.shiftLeft_eq]
  omega

theorem lo_toNat (a : Addr) : (lo a).toNat = a.toNat % 256 := by
  simp [lo, BitVec.extractLsb'_toNat]

theorem hi_toNat (a : Addr) : (hi a).toNat = a.toNat / 256 := by
  have := a.isLt
  rw [hi, BitVec.extractLsb'_toNat, Nat.shiftRight_eq_div_pow]
  omega

@[simp] theorem lo_w16 (h l : Byte) : lo (w16 h l) = l := by
  have := l.isLt
  apply BitVec.eq_of_toNat_eq
  rw [lo_toNat, w16_toNat]
  omega

@[simp] theorem hi_w16 (h l : Byte) : hi (w16 h l) = h := by
  have := l.isLt
  apply BitVec.eq_of_toNat_eq
  rw [hi_toNat, w16_toNat]
  omega

@[simp] theorem w16_hi_lo (a : Addr) : w16 (hi a) (lo a) = a := by
  apply BitVec.eq_of_toNat_eq
  rw [w16_toNat, hi_toNat, lo_toNat]
  omega

/-- Two words are equal if and only if their high and low bytes are. -/
theorem w16_inj {h l h' l' : Byte} : w16 h l = w16 h' l' ↔ h = h' ∧ l = l' :=
  ⟨fun e => ⟨by simpa using congrArg hi e, by simpa using congrArg lo e⟩, fun e => by rw [e.1, e.2]⟩

end Sys2Proof
end

