-- ==== Sys2Proof/Laws/Platform.lean ====
section
/-! SUPPORT. What answers and what takes an access: it depends on the port, the inputs and the parameters alone; page
1 is always RAM; a write leaves every other address alone and keeps the invariant. -/

namespace Sys2Proof.Machine

/-- What answers at an address depends on the parameters, the two cartridge lines and the banking lines alone. -/
theorem State.target_of_lines {s t : State} (hb : t.board = s.board) (hg : t.inputs.game = s.inputs.game)
    (he : t.inputs.exrom = s.inputs.exrom) (hl : ∀ k, t.bankLine k = s.bankLine k) (addr : Addr) :
    t.target addr = s.target addr := by
  simp [State.target, State.hasPort, State.column, hb, hg, he, hl]

/-- What answers at an address depends on the parameters, the inputs and the port alone. -/
theorem State.target_congr {s t : State} (hb : t.board = s.board) (hi : t.inputs = s.inputs)
    (hd : t.ddr = s.ddr) (hp : t.prl = s.prl) (addr : Addr) : t.target addr = s.target addr :=
  State.target_of_lines hb (by rw [hi]) (by rw [hi]) (fun k => by simp [State.bankLine, hd, hp]) addr

/-- The register setters, the draw counter and the bus do not change what answers. -/
theorem State.target_keeps (s : State) (addr : Addr) :
    (∀ v, (s.setA v).target addr = s.target addr) ∧ (∀ v, (s.setX v).target addr = s.target addr) ∧
    (∀ v, (s.setY v).target addr = s.target addr) ∧ (∀ v, (s.setSp v).target addr = s.target addr) ∧
    (∀ v, (s.setPc v).target addr = s.target addr) ∧ (∀ v, (s.setP v).target addr = s.target addr) ∧
    (∀ v, (s.setMem v).target addr = s.target addr) ∧ (∀ v, (s.setBus v).target addr = s.target addr) ∧
    (∀ v, (s.setDraws v).target addr = s.target addr) :=
  ⟨fun _ => rfl, fun _ => rfl, fun _ => rfl, fun _ => rfl, fun _ => rfl, fun _ => rfl, fun _ => rfl,
    fun _ => rfl, fun _ => rfl⟩

/-- On the machine of the spec's examples every address is RAM. -/
theorem State.allRam_target {s : State} (h : s.allRam) (addr : Addr) : s.target addr = .ram := by
  simp [State.target, State.hasPort, h.1, h.2, portMask]

/-- RAM answers with its byte in every cycle and draws nothing. -/
theorem State.answerAt_ram {s : State} {addr : Addr} (h : s.target addr = .ram) (n : Nat) :
    s.answerAt n addr = (s.mem.read addr.toNat, s) := by
  simp [State.answerAt, h]

theorem State.answer_ram {s : State} {addr : Addr} (h : s.target addr = .ram) :
    s.answer addr = (s.mem.read addr.toNat, s) :=
  State.answerAt_ram h _

/-- The Commodore 64's own ROMs answer with a byte that the address and the parameters fix, and draw nothing. -/
theorem State.answer_rom {s t : State} {addr : Addr} (hr : s.target addr ∈ [Target.basicRom, .kernalRom, .charRom])
    (ht : t.target addr = s.target addr) (hb : t.board = s.board) :
    t.answer addr = ((s.answer addr).1, t) := by
  simp only [List.mem_cons, List.not_mem_nil, or_false] at hr
  rcases hr with h | h | h <;> simp [State.answer, State.answerAt, ht, h, hb]

/-- No address but $0001 on a part with a port answers by the cycle. -/
theorem State.answerAt_eq_answer {s : State} {addr : Addr} (h : s.target addr ≠ .pr) (n : Nat) :
    s.answerAt n addr = s.answer addr := by
  unfold State.answer State.answerAt
  split <;> first | rfl | exact absurd ‹_› h

/-- What an address answers depends on memory, port, inputs, parameters, the draws and the cycle alone. -/
theorem State.answer_congr {s t : State} (hb : t.board = s.board) (hi : t.inputs = s.inputs)
    (hd : t.ddr = s.ddr) (hp : t.prl = s.prl) (hm : t.mem = s.mem) (hc : t.colorRam = s.colorRam)
    (hn : t.draws = s.draws) (hl : t.bus.length = s.bus.length) (addr : Addr) :
    (t.answer addr).1 = (s.answer addr).1 := by
  have hf : ∀ k m, (t.withFreeBits k m).1 = (s.withFreeBits k m).1 := by
    intro k m
    unfold State.withFreeBits
    split <;> simp [State.draw, hn]
  unfold State.answer State.answerAt
  rw [State.target_congr hb hi hd hp addr]
  split <;>
    simp [hf, hb, hd, hp, hm, hc, hl, hi, hn, State.lineLevels, State.lineInputs, State.floatingLines,
      State.externalRom, State.draw] <;> split <;> simp_all

/-- On the Commodore 64 the banking lines are the levels of P0, P1 and P2 in every cycle: the outside has no say. -/
theorem State.bankLine_eq {s : State} (h : s.board.platform = .c64) (n : Nat) {k : Nat} (hk : k < 3) :
    s.bankLine k = (s.lineLevels n).getLsbD k := by
  have : k = 0 ∨ k = 1 ∨ k = 2 := by omega
  simp only [State.bankLine, State.lineLevels, State.lineInputs, h, BitVec.getLsbD_or, BitVec.getLsbD_and,
    BitVec.getLsbD_not]
  cases s.ddr.getLsbD k <;> rcases this with rfl | rfl | rfl <;> simp

/-- After `m` cycles, `n` more: PERIPH_IN is one function of time across steps. -/
theorem Inputs.periphAt_elapse (p : Inputs) (m n : Nat) : (p.elapse m).periphAt n = p.periphAt (m + n) := by
  have key : ∀ (l : List Byte) (now : Byte) (m : Nat),
      levelAfter (levelAfter now l m) (l.drop m) n = levelAfter now l (m + n) := by
    intro l
    induction l with
    | nil => intro now m; cases n <;> simp [levelAfter]
    | cons v rest ih =>
      intro now m
      cases m with
      | zero => simp [levelAfter]
      | succ m => simpa [levelAfter, Nat.succ_add] using ih v m
  exact key _ _ _

/-- RAM takes the byte. -/
theorem State.accept_ram {s : State} {addr : Addr} (h : s.target addr = .ram) (v : Byte) :
    s.accept addr v = s.setMem (s.mem.write addr.toNat v) := by
  simp [State.accept, h]

/-- Page 1 is RAM on every platform. -/
theorem State.target_page1 (s : State) (d : Byte) : s.target (w16 0x01 d) = .ram := by
  have hn : (w16 0x01 d).toNat = 256 + d.toNat := w16_toNat 0x01 d
  have hd := d.isLt
  have h0 : w16 0x01 d ≠ 0 := fun h => by rw [h] at hn; simp at hn; omega
  have h1 : w16 0x01 d ≠ 1 := fun h => by rw [h] at hn; simp at hn; omega
  unfold State.target
  simp only [h0, h1, and_false, if_false]
  split
  · rfl
  · have h : (w16 0x01 d).toNat < 0x1000 := by omega
    simp only [Column.area, if_pos h, Area.target]

/-- A stack read gives the byte of page 1. -/
@[simp] theorem State.answer_page1 (s : State) (d : Byte) :
    s.answer (w16 1#8 d) = (s.mem.read (w16 1#8 d).toNat, s) :=
  State.answer_ram (s.target_page1 d)

/-- A stack write reaches page 1. -/
@[simp] theorem State.accept_page1 (s : State) (d v : Byte) :
    s.accept (w16 1#8 d) v = s.setMem (s.mem.write (w16 1#8 d).toNat v) :=
  State.accept_ram (s.target_page1 d) v

/-- What a write leaves in memory and port depends on memory, port, inputs and parameters alone. -/
theorem State.accept_congr {s t : State} (hb : t.board = s.board) (hi : t.inputs = s.inputs)
    (hd : t.ddr = s.ddr) (hp : t.prl = s.prl) (hm : t.mem = s.mem) (hc : t.colorRam = s.colorRam)
    (addr : Addr) (v : Byte) :
    (t.accept addr v).mem = (s.accept addr v).mem ∧ (t.accept addr v).colorRam = (s.accept addr v).colorRam ∧
    (t.accept addr v).ddr = (s.accept addr v).ddr ∧ (t.accept addr v).prl = (s.accept addr v).prl := by
  have ht := State.target_congr hb hi hd hp addr
  have hcol : t.column = s.column := by
    simp [State.column, State.bankLine, hi, hd, hp]
  unfold State.accept
  rw [ht, hcol]
  split <;> (try split) <;> simp [hb, hd, hp, hm, hc]

/-- The I/O area is the colour RAM from $D800 to $DBFF and devices elsewhere. -/
theorem ioTarget_cases (a : Nat) :
    (ioTarget a = .colorRam ∧ 0xD800 ≤ a ∧ a < 0xDC00) ∨ ∃ d, ioTarget a = .device d (a % d.window) := by
  unfold ioTarget
  repeat' split
  all_goals first
    | exact .inl ⟨rfl, by omega, by omega⟩
    | exact .inr ⟨_, rfl⟩

/-- The port is no part of the I/O area. -/
theorem ioTarget_ne (a : Nat) : ioTarget a ≠ .ddr ∧ ioTarget a ≠ .pr := by
  rcases ioTarget_cases a with ⟨h, -⟩ | ⟨d, h⟩ <;> simp [h]

/-- DDR answers at $0000 alone and PR at $0001 alone. -/
theorem State.target_port {s : State} {addr : Addr} :
    (s.target addr = .ddr → addr = 0) ∧ (s.target addr = .pr → addr = 1) := by
  have key : ∀ (c : Column) (b : Bool), (c.area addr.toNat).target b addr.toNat ≠ .ddr ∧
      (c.area addr.toNat).target b addr.toNat ≠ .pr := by
    intro c b
    have := ioTarget_ne addr.toNat
    cases hc : c.area addr.toNat <;> cases b <;> simp [Area.target, this]
  unfold State.target
  split
  · next h => exact ⟨fun _ => h.2, fun h' => by simp at h'⟩
  · split
    · next h => exact ⟨fun h' => by simp at h', fun _ => h.2⟩
    · split
      · simp
      · exact ⟨fun h => absurd h (key _ _).1, fun h => absurd h (key _ _).2⟩

/-- A write leaves every other address, and the port registers elsewhere, alone. -/
theorem State.accept_elsewhere (s : State) (addr : Addr) (v : Byte) :
    (∀ b, b ≠ addr.toNat → (s.accept addr v).mem.read b = s.mem.read b ∧
      (s.accept addr v).colorRam.read b = s.colorRam.read b) ∧
    (addr ≠ 0 → (s.accept addr v).ddr = s.ddr) ∧ (addr ≠ 1 → (s.accept addr v).prl = s.prl) := by
  have hport := State.target_port (s := s) (addr := addr)
  unfold State.accept
  split
  · next h => simpa using fun h' => absurd (hport.1 h) h'
  · next h => simpa using fun h' => absurd (hport.2 h) h'
  all_goals try split
  all_goals first
    | exact ⟨fun _ _ => ⟨rfl, rfl⟩, fun _ => rfl, fun _ => rfl⟩
    | exact ⟨fun b hb => ⟨Memory.read_write_other hb, rfl⟩, fun _ => rfl, fun _ => rfl⟩
    | exact ⟨fun b hb => ⟨rfl, Memory.read_write_other hb⟩, fun _ => rfl, fun _ => rfl⟩

/-- The colour RAM answers from $D800 to $DBFF alone. -/
theorem State.target_colorRam {s : State} {addr : Addr} (h : s.target addr = .colorRam) :
    0xD800 ≤ addr.toNat ∧ addr.toNat < 0xDC00 := by
  have key : ∀ (c : Column) (b : Bool), (c.area addr.toNat).target b addr.toNat = .colorRam →
      0xD800 ≤ addr.toNat ∧ addr.toNat < 0xDC00 := by
    intro c b
    have hio : ioTarget addr.toNat = .colorRam → 0xD800 ≤ addr.toNat ∧ addr.toNat < 0xDC00 := by
      rcases ioTarget_cases addr.toNat with ⟨-, h⟩ | ⟨d, h⟩
      · exact fun _ => h
      · simp [h]
    cases hc : c.area addr.toNat <;> cases b <;> first | exact hio | simp [Area.target]
  unfold State.target at h
  split at h
  · simp at h
  · split at h
    · simp at h
    · split at h
      · simp at h
      · exact key _ _ h

theorem and_mask_and_not (v m : Byte) : (v &&& m) &&& ~~~m = 0 := by
  ext i
  simp

theorem nybbles_write {m : Memory} {a : Nat} {v : Byte} (h : nybbles m = true) (ha : 0xD800 ≤ a)
    (ha' : a < 0xDC00) : nybbles (m.write a (v &&& 15#8)) = true := by
  simp only [nybbles, Bool.and_eq_true, List.all_eq_true] at h ⊢
  refine ⟨Memory.write_wf (by omega) h.1, fun c hc => ?_⟩
  rcases Memory.mem_write hc with rfl | hc
  · have : v.toNat &&& 15 < 16 := Nat.lt_of_le_of_lt Nat.and_le_right (by decide)
    simp [ha, ha', this]
  · exact h.2 c hc

/-- The invariant depends on memory, port and variant alone. -/
theorem State.inv_congr {s t : State} (hb : t.board = s.board) (hd : t.ddr = s.ddr) (hp : t.prl = s.prl)
    (hm : t.mem = s.mem) (hc : t.colorRam = s.colorRam) : t.inv = s.inv := by
  simp [State.inv, hb, hd, hp, hm, hc]

/-- A write keeps the invariant. -/
theorem State.accept_inv {s : State} (h : s.inv = true) (addr : Addr) (v : Byte) :
    (s.accept addr v).inv = true := by
  have ha := addr.isLt
  simp only [State.inv, Bool.and_eq_true, beq_iff_eq] at h
  obtain ⟨⟨⟨hm, hc⟩, hd⟩, hp⟩ := h
  have hw : ∀ w, (s.mem.write addr.toNat w).wf = true := fun w => Memory.write_wf ha hm
  unfold State.accept
  split
  case h_9 ht =>
    obtain ⟨h1, h2⟩ := State.target_colorRam ht
    simp [State.inv, hm, hd, hp, nybbles_write hc h1 h2]
  all_goals try split
  all_goals simp [State.inv, and_mask_and_not, hm, hc, hd, hp, hw]

end Sys2Proof.Machine
end

