-- ==== Sys2Proof/Laws/Stores.lean ====
section
/-! SUPPORT. Stores as seen from outside the processor: what a write does depends only on, and shows only in, the
part of the state gathered in `State.store`. -/

namespace Sys2Proof.Machine

/-- The part of the state that decides what a write does, and that a write changes. -/
def State.store (s : State) : Board × Inputs × Byte × Byte × Memory × Memory :=
  (s.board, s.inputs, s.ddr, s.prl, s.mem, s.colorRam)

theorem State.store_eq {s t : State} : t.store = s.store ↔
    t.board = s.board ∧ t.inputs = s.inputs ∧ t.ddr = s.ddr ∧ t.prl = s.prl ∧ t.mem = s.mem ∧
      t.colorRam = s.colorRam := by
  simp [State.store]

/-- States with the same store answer a write with the same store. -/
theorem State.accept_store_congr {s t : State} (h : t.store = s.store) (addr : Addr) (v : Byte) :
    (t.accept addr v).store = (s.accept addr v).store := by
  obtain ⟨hb, hi, hd, hp, hm, hc⟩ := State.store_eq.mp h
  obtain ⟨h1, h2, h3, h4⟩ := State.accept_congr hb hi hd hp hm hc addr v
  exact State.store_eq.mpr ⟨by simp [hb], by simp [hi], h3, h4, h1, h2⟩

/-- A write cycle shows in the store as the write does. -/
@[simp] theorem State.write_store (s : State) (addr : Addr) (v : Byte) :
    (s.write addr v).store = (s.accept addr v).store := State.store_eq.mpr (by simp)

/-- A push shows in the store as its write does. -/
@[simp] theorem State.push_store (s : State) (v : Byte) :
    (s.push v).store = (s.accept s.stackAddr v).store := State.store_eq.mpr (by simp)

/-- What changes no store: a dummy read, a read, the address cycles of an operand. -/
@[simp] theorem State.touch_store (s : State) (addr : Addr) : (s.touch addr).store = s.store :=
  State.store_eq.mpr (by simp)

@[simp] theorem State.read_store (s : State) (addr : Addr) : (s.read addr).2.store = s.store :=
  State.store_eq.mpr (by simp)

@[simp] theorem storeAddress_store (m : MemMode) (s : State) : (storeAddress m s).2.store = s.store :=
  State.store_eq.mpr (by simp)

@[simp] theorem pointerIzy_store (ptr : Byte) (s : State) : (pointerIzy ptr s).2.store = s.store :=
  State.store_eq.mpr (by simp)

/-- A list of stores depends on the store alone. -/
theorem foldl_accept_congr {s t : State} (h : t.store = s.store) (l : List (Addr × Byte)) :
    (l.foldl (fun w c => w.accept c.1 c.2) t).store = (l.foldl (fun w c => w.accept c.1 c.2) s).store := by
  induction l generalizing s t with
  | nil => exact h
  | cons c rest ih => exact ih (State.accept_store_congr h c.1 c.2)

/-- A state whose store is that of a list of stores holds them. -/
theorem holdsStores_of_store {l : List (Addr × Byte)} {s t : State}
    (h : t.store = (l.foldl (fun w c => w.accept c.1 c.2) s).store) : holdsStores l s t := by
  obtain ⟨-, -, hd, hp, hm, hc⟩ := State.store_eq.mp h
  exact ⟨hm, hc, hd, hp⟩

/-- A list of stores leaves every other byte, and the port elsewhere, alone. -/
theorem keepsMemoryBut_foldl (l : List (Addr × Byte)) (s : State) :
    keepsMemoryBut (l.map Prod.fst) s (l.foldl (fun w c => w.accept c.1 c.2) s) := by
  induction l generalizing s with
  | nil => exact ⟨fun _ _ => ⟨rfl, rfl⟩, fun _ => rfl, fun _ => rfl⟩
  | cons c rest ih =>
    obtain ⟨hm, hd, hp⟩ := ih (s.accept c.1 c.2)
    obtain ⟨am, ad, ap⟩ := State.accept_elsewhere s c.1 c.2
    refine ⟨fun b hb => ?_, fun h => ?_, fun h => ?_⟩
    · simp only [List.map_cons, List.mem_cons, not_or] at hb
      obtain ⟨h1, h2⟩ := hm b hb.2
      obtain ⟨h3, h4⟩ := am b hb.1
      exact ⟨h1.trans h3, h2.trans h4⟩
    · simp only [List.map_cons, List.mem_cons, not_or] at h
      exact (hd h.2).trans (ad (Ne.symm h.1))
    · simp only [List.map_cons, List.mem_cons, not_or] at h
      exact (hp h.2).trans (ap (Ne.symm h.1))

/-- Stores leave every byte outside their addresses alone. -/
theorem holdsStores.keepsMemoryBut {l : List (Addr × Byte)} {s t : State} (h : holdsStores l s t) :
    keepsMemoryBut (l.map Prod.fst) s t := by
  obtain ⟨hm, hc, hd, hp⟩ := h
  obtain ⟨km, kd, kp⟩ := keepsMemoryBut_foldl l s
  exact ⟨fun b hb => by rw [hm, hc]; exact km b hb, fun h => by rw [hd]; exact kd h,
    fun h => by rw [hp]; exact kp h⟩

/-- A smaller set of addresses is a stronger frame. -/
theorem keepsMemoryBut.mono {l l' : List Addr} {s t : State} (h : keepsMemoryBut l s t) (hl : ∀ a ∈ l, a ∈ l') :
    keepsMemoryBut l' s t :=
  ⟨fun b hb => h.1 b fun hm => by
      obtain ⟨a, ha, rfl⟩ := List.mem_map.mp hm
      exact hb (List.mem_map_of_mem (hl a ha)),
    fun h0 => h.2.1 fun ha => h0 (hl _ ha), fun h1 => h.2.2 fun ha => h1 (hl _ ha)⟩

/-- What a state holds of a list of stores is a matter of its memory and port. -/
theorem holdsStores.of_fields {l : List (Addr × Byte)} {s t u : State} (h : holdsStores l s t)
    (hm : u.mem = t.mem) (hc : u.colorRam = t.colorRam) (hd : u.ddr = t.ddr) (hp : u.prl = t.prl) :
    holdsStores l s u :=
  ⟨hm.trans h.1, hc.trans h.2.1, hd.trans h.2.2.1, hp.trans h.2.2.2⟩

/-- What a state keeps of memory is a matter of its memory and port. -/
theorem keepsMemoryBut.of_fields {l : List Addr} {s t u : State} (h : keepsMemoryBut l s t)
    (hm : u.mem = t.mem) (hc : u.colorRam = t.colorRam) (hd : u.ddr = t.ddr) (hp : u.prl = t.prl) :
    keepsMemoryBut l s u :=
  ⟨fun b hb => by rw [hm, hc]; exact h.1 b hb, fun h0 => hd.trans (h.2.1 h0), fun h1 => hp.trans (h.2.2 h1)⟩

/-- One store to RAM is read back there. -/
theorem holdsStores.read_last {l : List (Addr × Byte)} {s t : State} {addr : Addr} {v : Byte}
    (h : holdsStores (l ++ [(addr, v)]) s t)
    (hr : (l.foldl (fun w c => w.accept c.1 c.2) s).target addr = .ram)
    (hw : (l.foldl (fun w c => w.accept c.1 c.2) s).mem.wf = true) : t.mem.read addr.toNat = v := by
  have hm := h.1
  simp only [List.foldl_append, List.foldl_cons, List.foldl_nil, State.accept_ram hr] at hm
  rw [hm]
  exact Memory.read_write_self hw

/-- A store operand holds its one store. -/
theorem writeMem_stores (m : MemMode) (v : Byte) (s : State) :
    holdsStores [((storeAddress m s).1, v)] s (writeMem m v s) :=
  holdsStores_of_store (by
    simp only [writeMem, State.write_store, List.foldl_cons, List.foldl_nil]
    exact State.accept_store_congr (storeAddress_store m s) _ _)

/-- A read-modify-write operand holds its two stores, and gives the byte it read. -/
theorem modifyMem_stores (m : MemMode) (f : Byte → Byte) (s : State) :
    let e := storeAddress m s
    let b := (e.2.read e.1).1
    (modifyMem m f s).1 = b ∧ holdsStores [(e.1, b), (e.1, f b)] s (modifyMem m f s).2 := by
  refine ⟨rfl, holdsStores_of_store ?_⟩
  have h : ((storeAddress m s).2.read (storeAddress m s).1).2.store = s.store := by simp
  simp only [modifyMem, State.write_store, List.foldl_cons, List.foldl_nil]
  exact State.accept_store_congr ((State.write_store ..).trans (State.accept_store_congr h _ _)) _ _

/-- The cycles of a read-modify-write operand: those of its address, then a read and two writes. -/
theorem modifyMem_bus (m : MemMode) (f : Byte → Byte) (s : State) :
    let e := storeAddress m s
    let b := (e.2.read e.1).1
    (modifyMem m f s).2.bus = e.2.bus ++ [.read e.1 b, .write e.1 b, .write e.1 (f b)] := by
  simp [modifyMem, State.read]

/-- The SHA family holds its one store. -/
theorem storeHigh_stores (base : Addr) (index reg : Byte) (s : State) :
    holdsStores [(highAddress base index reg, highAnd base reg)] s (storeHigh base index reg s) :=
  holdsStores_of_store (by
    simp only [storeHigh, State.write_store, List.foldl_cons, List.foldl_nil]
    exact State.accept_store_congr (State.touch_store s _) _ _)

end Sys2Proof.Machine
end

