-- ==== Sys2Proof/Laws/Entry.lean ====
section
/-! SUPPORT. Taking an interrupt, returning from one and the reset sequence: once, everything each of them can do. -/

namespace Sys2Proof.Machine

/-- Three pushes leave every byte but theirs alone. -/
theorem Memory.read_three_writes {m : Memory} {a b c : Nat} {u v w : Byte} {k : Nat}
    (ha : k ≠ a) (hb : k ≠ b) (hc : k ≠ c) : (((m.write a u).write b v).write c w).read k = m.read k := by
  rw [Memory.read_write_other hc, Memory.read_write_other hb, Memory.read_write_other ha]

/-- A read gives the byte of RAM or of ROM. -/
theorem State.read_gives (s : State) (addr : Addr) : givesByte s s.mem addr (s.read addr).1 :=
  ⟨fun h => by simp only [State.read, State.answer_ram h], fun _ => rfl⟩

/-- What a read gives depends on memory, the parameters and what answers. -/
theorem givesByte.congr {s t : State} {m : Memory} {addr : Addr} {v : Byte} (h : givesByte t m addr v)
    (hb : t.board = s.board) (ht : t.target addr = s.target addr) : givesByte s m addr v := by
  refine ⟨fun hr => h.1 (ht.trans hr), fun hr => ?_⟩
  have h2 := h.2 (ht ▸ hr)
  rwa [State.answer_rom hr ht hb] at h2

/-- A vector is read low byte first; PC is its word. -/
theorem State.loadVector_spec (s : State) (vec : Addr) :
    ∃ l h, (s.loadVector vec).pc = w16 h l ∧
      (s.loadVector vec).bus = s.bus ++ [.read vec l, .read (vec + 1) h] ∧
      givesByte s s.mem vec l ∧ givesByte s s.mem (vec + 1) h := by
  refine ⟨(s.read vec).1, ((s.read vec).2.read (vec + 1)).1, rfl, by simp [State.loadVector, State.read],
    s.read_gives vec, ?_⟩
  have h := (s.read vec).2.read_gives (vec + 1)
  rw [(State.read_keeps s vec).2.2.2.2.2.2.2.2.1] at h
  exact h.congr (by simp) (State.target_congr (by simp) (by simp) (by simp) (by simp) _)

/-- Taking an interrupt: the three pushes, I, and PC from the vector; the rest stays. -/
theorem State.takeInterrupt_spec (s : State) (b : Bool) (vec : Addr) :
    let slot := fun k : Byte => w16 0x01 (s.sp - k)
    let t := s.takeInterrupt b vec
    let mem := ((s.mem.write (slot 0).toNat (hi s.pc)).write (slot 1).toNat (lo s.pc)).write (slot 2).toNat
      (s.p.pack b)
    t.a = s.a ∧ t.x = s.x ∧ t.y = s.y ∧ t.sp = s.sp - 3 ∧ t.p = { s.p with i := true } ∧ keepsRest s t ∧
      t.mem = mem ∧ t.colorRam = s.colorRam ∧ t.ddr = s.ddr ∧ t.prl = s.prl ∧
      ∃ l h, t.pc = w16 h l ∧
        t.bus = s.bus ++ [.write (slot 0) (hi s.pc), .write (slot 1) (lo s.pc), .write (slot 2) (s.p.pack b),
          .read vec l, .read (vec + 1) h] ∧
        givesByte s mem vec l ∧ givesByte s mem (vec + 1) h := by
  have hsub : s.sp - 1 - 1 = s.sp - 2 := by rw [BitVec.sub_sub]; rfl
  have hsub3 : s.sp - 1 - 1 - 1 = s.sp - 3 := by rw [BitVec.sub_sub, BitVec.sub_sub]; rfl
  let s1 := ((s.push (hi s.pc)).push (lo s.pc)).push (s.p.pack b)
  let s2 := s1.setP { s1.p with i := true }
  have h2 : s.takeInterrupt b vec = s2.loadVector vec := rfl
  have hmem : s2.mem = ((s.mem.write (w16 0x01 s.sp).toNat (hi s.pc)).write (w16 0x01 (s.sp - 1)).toNat
      (lo s.pc)).write (w16 0x01 (s.sp - 2)).toNat (s.p.pack b) := by
    rw [← hsub]; simp [s2, s1, State.stackAddr]
  have hbus : s2.bus = s.bus ++ [.write (w16 0x01 s.sp) (hi s.pc), .write (w16 0x01 (s.sp - 1)) (lo s.pc),
      .write (w16 0x01 (s.sp - 2)) (s.p.pack b)] := by
    rw [← hsub]; simp [s2, s1, State.stackAddr]
  have ht : ∀ addr, s2.target addr = s.target addr := State.target_congr (by simp [s2, s1]) (by simp [s2, s1])
    (by simp [s2, s1, State.stackAddr]) (by simp [s2, s1, State.stackAddr])
  obtain ⟨l, h, hpc, hb, hl, hh⟩ := s2.loadVector_spec vec
  refine ⟨?_, ?_, ?_, ?_, ?_, ?_, ?_, ?_, ?_, ?_, l, h, ?_, ?_, ?_, ?_⟩
  · simp [h2, s2, s1]
  · simp [h2, s2, s1]
  · simp [h2, s2, s1]
  · rw [← hsub3]; simp [h2, s2, s1]
  · simp [h2, s2, s1]
  · simp [h2, s2, s1, keepsRest]
  · simp [h2, hmem]
  · simp [h2, s2, s1, State.stackAddr]
  · simp [h2, s2, s1, State.stackAddr]
  · simp [h2, s2, s1, State.stackAddr]
  · exact hpc
  · rw [h2, hb, hbus]; simp
  all_goals
    dsimp only
    rw [show s.sp - (0 : Byte) = s.sp from BitVec.sub_zero s.sp, ← hmem]
  · exact hl.congr (by simp [s2, s1]) (ht _)
  · exact hh.congr (by simp [s2, s1]) (ht _)

/-- The return from an interrupt: P, then PC, from the three bytes above the stack top. -/
theorem State.returnFromInterrupt_spec (s : State) :
    let rd := fun k : Byte => s.mem.read (w16 0x01 (s.sp + k)).toNat
    let t := s.returnFromInterrupt
    t.a = s.a ∧ t.x = s.x ∧ t.y = s.y ∧ t.sp = s.sp + 3 ∧ t.p = Flags.unpack (rd 1) ∧
      t.pc = w16 (rd 3) (rd 2) ∧ keepsMemory s t ∧ keepsRest s t := by
  simp [State.returnFromInterrupt, State.pullFirst, State.pull, State.read, State.stackAddr, keepsMemory, keepsRest,
    BitVec.add_assoc]

/-- Pulling a pushed status byte gives back the six flags, whatever B. -/
@[simp] theorem Flags.unpack_pack (b : Bool) (p : Flags) : Flags.unpack (p.pack b) = p := by
  obtain ⟨n, v, d, i, z, c⟩ := p
  cases b <;> cases n <;> cases v <;> cases d <;> cases i <;> cases z <;> cases c <;> rfl

/-- The reset sequence: what the spec gives a value, and the fields that stay. -/
theorem State.resetSequence_spec (s : State) :
    let t := s.resetSequence
    t.jammed = false ∧ t.nmiPending = false ∧ t.ddr = 0 ∧ t.prl &&& ~~~(portMask s.board.variant) = 0 ∧
      t.a = s.a ∧ t.x = s.x ∧ t.y = s.y ∧ t.p.n = s.p.n ∧ t.p.v = s.p.v ∧ t.p.z = s.p.z ∧ t.p.c = s.p.c ∧
      t.mem = s.mem ∧ t.colorRam = s.colorRam ∧
      t.inputs = { s.inputs with resetPin := .inactive, nmiArriving := false } ∧ t.board = s.board ∧
      ∃ l h, t.pc = w16 h l ∧
        t.bus = s.bus ++ [.read s.board.resetVector l, .read (s.board.resetVector + 1) h] ∧
        givesByte (s.setDdr 0) s.mem s.board.resetVector l ∧
        givesByte (s.setDdr 0) s.mem (s.board.resetVector + 1) h := by
  unfold State.resetSequence
  dsimp only
  generalize hu : State.setP _ _ = u
  have hf : u.jammed = false ∧ u.nmiPending = false ∧ u.ddr = 0 ∧ u.prl &&& ~~~(portMask s.board.variant) = 0 ∧
      u.a = s.a ∧ u.x = s.x ∧ u.y = s.y ∧ u.p.n = s.p.n ∧ u.p.v = s.p.v ∧ u.p.z = s.p.z ∧ u.p.c = s.p.c ∧
      u.mem = s.mem ∧ u.colorRam = s.colorRam ∧
      u.inputs = { s.inputs with resetPin := .inactive, nmiArriving := false } ∧ u.board = s.board ∧
      u.bus = s.bus := by
    rw [← hu]
    refine ⟨?_, ?_, ?_, ?_, ?_, ?_, ?_, ?_, ?_, ?_, ?_, ?_, ?_, ?_, ?_, ?_⟩
    case refine_4 => exact and_mask_and_not _ _
    all_goals simp
  obtain ⟨h1, h2, h3, h4, h5, h6, h7, h8, h9, h10, h11, h12, h13, h14, h15, h16⟩ := hf
  have ht : ∀ addr, u.target addr = (s.setDdr 0).target addr :=
    State.target_of_lines h15 (by simp [h14]) (by simp [h14]) (fun k => by simp [State.bankLine, h3])
  obtain ⟨l, h, hpc, hb, hl, hh⟩ := u.loadVector_spec s.board.resetVector
  rw [h12] at hl hh
  refine ⟨?_, ?_, ?_, ?_, ?_, ?_, ?_, ?_, ?_, ?_, ?_, ?_, ?_, ?_, ?_, l, h, hpc, by rw [hb, h16],
    hl.congr h15 (ht _), hh.congr h15 (ht _)⟩
  all_goals try simp only [State.loadVector_keeps]
  all_goals try assumption

end Sys2Proof.Machine
end

