-- ==== Sys2Proof/Laws/Launch.lean ====
section
/-! SUPPORT. A run of a program has exactly one outcome (70_reset_and_hazards.md R554). -/

namespace Sys2Proof.Machine

/-- A run that has ended stays at the boundary that ended it. -/
theorem Program.run_stays {prog : Program} {environment : Nat → List Stimulus} {s : State} {n : Nat}
    (h : (prog.runEnd (prog.run environment s n)).isSome) (k : Nat) :
    prog.run environment s (n + k) = prog.run environment s n := by
  obtain ⟨how, h⟩ := Option.isSome_iff_exists.1 h
  induction k with
  | zero => rfl
  | succ k ih => rw [← Nat.add_assoc, Program.run, ih, h]

/-- Every run ends in exactly one way or is endless: no environment leaves it without an outcome. -/
theorem Program.one_outcome (prog : Program) (environment : Nat → List Stimulus) (s : State) :
    (prog.endless environment s ∧ ∀ how, ¬ prog.endsBy environment s how) ∨
    (¬ prog.endless environment s ∧
      ∃ how, prog.endsBy environment s how ∧ ∀ other, prog.endsBy environment s other → other = how) := by
  by_cases h : prog.endless environment s
  · exact .inl ⟨h, fun how ⟨n, hn⟩ => by simp [h n] at hn⟩
  · refine .inr ⟨h, ?_⟩
    obtain ⟨n, hn⟩ := Classical.not_forall.1 h
    obtain ⟨how, hn⟩ := Option.ne_none_iff_exists'.1 hn
    refine ⟨how, ⟨n, hn⟩, fun other ⟨m, hm⟩ => ?_⟩
    rcases Nat.le_total n m with hnm | hmn
    · rw [← Nat.add_sub_cancel' hnm, Program.run_stays (by simp [hn]), hn] at hm
      exact (Option.some.inj hm).symm
    · rw [← Nat.add_sub_cancel' hmn, Program.run_stays (by simp [hm]), hm] at hn
      exact Option.some.inj hn

end Sys2Proof.Machine
end

