-- ==== Sys2Proof/Laws/Meaning.lean ====
section
/-! SUPPORT. `exec` seen through the form of an instruction: one lemma turns any instruction into the shared operation
its mnemonic and operand name, so that a proof about a mnemonic splits 76 ways or fewer, not 256. -/

namespace Sys2Proof.Machine

/-- What a mnemonic does with a read operand. -/
def sourceMeaning (m : Mnemonic) (o : Source) (s : State) : Result :=
  match m with
  | .lda => loadWith State.setA o s
  | .ldx => loadWith State.setX o s
  | .ldy => loadWith State.setY o s
  | .lax => loadWith putAX o s
  | .and => logicWith (· &&& ·) o s
  | .ora => logicWith (· ||| ·) o s
  | .eor => logicWith (· ^^^ ·) o s
  | .adc => arithWith adc o s
  | .sbc => arithWith sbc o s
  | .cmp => compareWith s.a o s
  | .cpx => compareWith s.x o s
  | .cpy => compareWith s.y o s
  | .bit => bitTest o s
  | _ => idleRead o s

/-- What a mnemonic does with a memory operand that it stores to. -/
def memMeaning (m : Mnemonic) (o : MemMode) (s : State) : Result :=
  match m with
  | .sta => storeValue s.a o s
  | .stx => storeValue s.x o s
  | .sty => storeValue s.y o s
  | .sax => storeValue (s.a &&& s.x) o s
  | .asl => shiftMem asl o s
  | .lsr => shiftMem lsr o s
  | .rol => shiftMem rol o s
  | .ror => shiftMem ror o s
  | .inc => countMem (· + 1) o s
  | .dec => countMem (· - 1) o s
  | .slo => shiftLogic asl (· ||| ·) o s
  | .rla => shiftLogic rol (· &&& ·) o s
  | .sre => shiftLogic lsr (· ^^^ ·) o s
  | .rra => rotateAdd o s
  | .isb => incSubtract o s
  | .dcp => decCompare o s
  | _ => sourceMeaning m (.mem o) s

/-- The mnemonics with a read operand, the NOPs left out. -/
def readsOperand : Mnemonic → Bool
  | .lda | .ldx | .ldy | .lax | .and | .ora | .eor | .adc | .sbc | .cmp | .cpx | .cpy | .bit => true
  | _ => false

/-- The mnemonics that store to their operand's address in the ordinary way, the four shifts left out, which also
have an accumulator form. -/
def storesOperand : Mnemonic → Bool
  | .sta | .stx | .sty | .sax | .inc | .dec | .slo | .rla | .sre | .rra | .isb | .dcp => true
  | _ => false

/-- The shifts and rotates of memory. -/
def shiftsMemory (i : Instr) : Bool :=
  match i.mnemonic, i.operand with
  | .asl, .source _ | .lsr, .source _ | .rol, .source _ | .ror, .source _ => true
  | _, _ => false

/-- A mnemonic with a read operand has one, and does with it what `sourceMeaning` says. -/
theorem exec_read (i : Instr) : readsOperand i.mnemonic = true →
    ∃ o, i.operand = .source o ∧ ∀ s, exec i s = sourceMeaning i.mnemonic o s := by
  cases i <;> first | exact fun h => absurd h Bool.false_ne_true | exact fun _ => ⟨_, rfl, fun _ => rfl⟩

/-- A storing mnemonic has a memory operand, and does with it what `memMeaning` says. -/
theorem exec_store (i : Instr) : storesOperand i.mnemonic = true →
    ∃ m, i.operand = .source (.mem m) ∧ ∀ s, exec i s = memMeaning i.mnemonic m s := by
  cases i <;> first | exact fun h => absurd h Bool.false_ne_true | exact fun _ => ⟨_, rfl, fun _ => rfl⟩

/-- A shift of memory has a memory operand, and does with it what `memMeaning` says. -/
theorem exec_shift (i : Instr) : shiftsMemory i = true →
    ∃ m, i.operand = .source (.mem m) ∧ ∀ s, exec i s = memMeaning i.mnemonic m s := by
  cases i <;> first | exact fun h => absurd h Bool.false_ne_true | exact fun _ => ⟨_, rfl, fun _ => rfl⟩

end Sys2Proof.Machine
end

