-- ==== Sys2Proof/Laws/PerInstr.lean ====
section
/-! SUPPORT. What holds of each instruction as syntax, one lemma for each constructor of `Instr`: its form stands in
the opcode matrix, and its encoding is as long as its mode asks for (30_encoding.md R100, R104, R106). -/

namespace Sys2Proof.Laws.WellFormed

/-- The form stands in the matrix, and the encoding has the mode's length. -/
def Statement (i : Instr) : Prop := i.wellFormed = true ∧ (encode i).length = i.operand.mode.bytes

theorem brk : Statement .brk := ⟨rfl, rfl⟩
theorem oraIzx (ptr : Byte) : Statement (.oraIzx ptr) := ⟨rfl, rfl⟩
theorem jam02 : Statement .jam02 := ⟨rfl, rfl⟩
theorem sloIzx (ptr : Byte) : Statement (.sloIzx ptr) := ⟨rfl, rfl⟩
theorem nopZp04 (d : Byte) : Statement (.nopZp04 d) := ⟨rfl, rfl⟩
theorem oraZp (d : Byte) : Statement (.oraZp d) := ⟨rfl, rfl⟩
theorem aslZp (d : Byte) : Statement (.aslZp d) := ⟨rfl, rfl⟩
theorem sloZp (d : Byte) : Statement (.sloZp d) := ⟨rfl, rfl⟩
theorem php : Statement .php := ⟨rfl, rfl⟩
theorem oraImm (v : Byte) : Statement (.oraImm v) := ⟨rfl, rfl⟩
theorem aslAcc : Statement .aslAcc := ⟨rfl, rfl⟩
theorem ancImm0B (v : Byte) : Statement (.ancImm0B v) := ⟨rfl, rfl⟩
theorem nopAbs (addr : Addr) : Statement (.nopAbs addr) := ⟨rfl, rfl⟩
theorem oraAbs (addr : Addr) : Statement (.oraAbs addr) := ⟨rfl, rfl⟩
theorem aslAbs (addr : Addr) : Statement (.aslAbs addr) := ⟨rfl, rfl⟩
theorem sloAbs (addr : Addr) : Statement (.sloAbs addr) := ⟨rfl, rfl⟩
theorem bplRel (off : Byte) : Statement (.bplRel off) := ⟨rfl, rfl⟩
theorem oraIzy (ptr : Byte) : Statement (.oraIzy ptr) := ⟨rfl, rfl⟩
theorem jam12 : Statement .jam12 := ⟨rfl, rfl⟩
theorem sloIzy (ptr : Byte) : Statement (.sloIzy ptr) := ⟨rfl, rfl⟩
theorem nopZpx14 (d : Byte) : Statement (.nopZpx14 d) := ⟨rfl, rfl⟩
theorem oraZpx (d : Byte) : Statement (.oraZpx d) := ⟨rfl, rfl⟩
theorem aslZpx (d : Byte) : Statement (.aslZpx d) := ⟨rfl, rfl⟩
theorem sloZpx (d : Byte) : Statement (.sloZpx d) := ⟨rfl, rfl⟩
theorem clc : Statement .clc := ⟨rfl, rfl⟩
theorem oraAby (addr : Addr) : Statement (.oraAby addr) := ⟨rfl, rfl⟩
theorem nop1A : Statement .nop1A := ⟨rfl, rfl⟩
theorem sloAby (addr : Addr) : Statement (.sloAby addr) := ⟨rfl, rfl⟩
theorem nopAbx1C (addr : Addr) : Statement (.nopAbx1C addr) := ⟨rfl, rfl⟩
theorem oraAbx (addr : Addr) : Statement (.oraAbx addr) := ⟨rfl, rfl⟩
theorem aslAbx (addr : Addr) : Statement (.aslAbx addr) := ⟨rfl, rfl⟩
theorem sloAbx (addr : Addr) : Statement (.sloAbx addr) := ⟨rfl, rfl⟩
theorem jsrAbs (addr : Addr) : Statement (.jsrAbs addr) := ⟨rfl, rfl⟩
theorem andIzx (ptr : Byte) : Statement (.andIzx ptr) := ⟨rfl, rfl⟩
theorem jam22 : Statement .jam22 := ⟨rfl, rfl⟩
theorem rlaIzx (ptr : Byte) : Statement (.rlaIzx ptr) := ⟨rfl, rfl⟩
theorem bitZp (d : Byte) : Statement (.bitZp d) := ⟨rfl, rfl⟩
theorem andZp (d : Byte) : Statement (.andZp d) := ⟨rfl, rfl⟩
theorem rolZp (d : Byte) : Statement (.rolZp d) := ⟨rfl, rfl⟩
theorem rlaZp (d : Byte) : Statement (.rlaZp d) := ⟨rfl, rfl⟩
theorem plp : Statement .plp := ⟨rfl, rfl⟩
theorem andImm (v : Byte) : Statement (.andImm v) := ⟨rfl, rfl⟩
theorem rolAcc : Statement .rolAcc := ⟨rfl, rfl⟩
theorem ancImm2B (v : Byte) : Statement (.ancImm2B v) := ⟨rfl, rfl⟩
theorem bitAbs (addr : Addr) : Statement (.bitAbs addr) := ⟨rfl, rfl⟩
theorem andAbs (addr : Addr) : Statement (.andAbs addr) := ⟨rfl, rfl⟩
theorem rolAbs (addr : Addr) : Statement (.rolAbs addr) := ⟨rfl, rfl⟩
theorem rlaAbs (addr : Addr) : Statement (.rlaAbs addr) := ⟨rfl, rfl⟩
theorem bmiRel (off : Byte) : Statement (.bmiRel off) := ⟨rfl, rfl⟩
theorem andIzy (ptr : Byte) : Statement (.andIzy ptr) := ⟨rfl, rfl⟩
theorem jam32 : Statement .jam32 := ⟨rfl, rfl⟩
theorem rlaIzy (ptr : Byte) : Statement (.rlaIzy ptr) := ⟨rfl, rfl⟩
theorem nopZpx34 (d : Byte) : Statement (.nopZpx34 d) := ⟨rfl, rfl⟩
theorem andZpx (d : Byte) : Statement (.andZpx d) := ⟨rfl, rfl⟩
theorem rolZpx (d : Byte) : Statement (.rolZpx d) := ⟨rfl, rfl⟩
theorem rlaZpx (d : Byte) : Statement (.rlaZpx d) := ⟨rfl, rfl⟩
theorem sec : Statement .sec := ⟨rfl, rfl⟩
theorem andAby (addr : Addr) : Statement (.andAby addr) := ⟨rfl, rfl⟩
theorem nop3A : Statement .nop3A := ⟨rfl, rfl⟩
theorem rlaAby (addr : Addr) : Statement (.rlaAby addr) := ⟨rfl, rfl⟩
theorem nopAbx3C (addr : Addr) : Statement (.nopAbx3C addr) := ⟨rfl, rfl⟩
theorem andAbx (addr : Addr) : Statement (.andAbx addr) := ⟨rfl, rfl⟩
theorem rolAbx (addr : Addr) : Statement (.rolAbx addr) := ⟨rfl, rfl⟩
theorem rlaAbx (addr : Addr) : Statement (.rlaAbx addr) := ⟨rfl, rfl⟩
theorem rti : Statement .rti := ⟨rfl, rfl⟩
theorem eorIzx (ptr : Byte) : Statement (.eorIzx ptr) := ⟨rfl, rfl⟩
theorem jam42 : Statement .jam42 := ⟨rfl, rfl⟩
theorem sreIzx (ptr : Byte) : Statement (.sreIzx ptr) := ⟨rfl, rfl⟩
theorem nopZp44 (d : Byte) : Statement (.nopZp44 d) := ⟨rfl, rfl⟩
theorem eorZp (d : Byte) : Statement (.eorZp d) := ⟨rfl, rfl⟩
theorem lsrZp (d : Byte) : Statement (.lsrZp d) := ⟨rfl, rfl⟩
theorem sreZp (d : Byte) : Statement (.sreZp d) := ⟨rfl, rfl⟩
theorem pha : Statement .pha := ⟨rfl, rfl⟩
theorem eorImm (v : Byte) : Statement (.eorImm v) := ⟨rfl, rfl⟩
theorem lsrAcc : Statement .lsrAcc := ⟨rfl, rfl⟩
theorem asrImm (v : Byte) : Statement (.asrImm v) := ⟨rfl, rfl⟩
theorem jmpAbs (addr : Addr) : Statement (.jmpAbs addr) := ⟨rfl, rfl⟩
theorem eorAbs (addr : Addr) : Statement (.eorAbs addr) := ⟨rfl, rfl⟩
theorem lsrAbs (addr : Addr) : Statement (.lsrAbs addr) := ⟨rfl, rfl⟩
theorem sreAbs (addr : Addr) : Statement (.sreAbs addr) := ⟨rfl, rfl⟩
theorem bvcRel (off : Byte) : Statement (.bvcRel off) := ⟨rfl, rfl⟩
theorem eorIzy (ptr : Byte) : Statement (.eorIzy ptr) := ⟨rfl, rfl⟩
theorem jam52 : Statement .jam52 := ⟨rfl, rfl⟩
theorem sreIzy (ptr : Byte) : Statement (.sreIzy ptr) := ⟨rfl, rfl⟩
theorem nopZpx54 (d : Byte) : Statement (.nopZpx54 d) := ⟨rfl, rfl⟩
theorem eorZpx (d : Byte) : Statement (.eorZpx d) := ⟨rfl, rfl⟩
theorem lsrZpx (d : Byte) : Statement (.lsrZpx d) := ⟨rfl, rfl⟩
theorem sreZpx (d : Byte) : Statement (.sreZpx d) := ⟨rfl, rfl⟩
theorem cli : Statement .cli := ⟨rfl, rfl⟩
theorem eorAby (addr : Addr) : Statement (.eorAby addr) := ⟨rfl, rfl⟩
theorem nop5A : Statement .nop5A := ⟨rfl, rfl⟩
theorem sreAby (addr : Addr) : Statement (.sreAby addr) := ⟨rfl, rfl⟩
theorem nopAbx5C (addr : Addr) : Statement (.nopAbx5C addr) := ⟨rfl, rfl⟩
theorem eorAbx (addr : Addr) : Statement (.eorAbx addr) := ⟨rfl, rfl⟩
theorem lsrAbx (addr : Addr) : Statement (.lsrAbx addr) := ⟨rfl, rfl⟩
theorem sreAbx (addr : Addr) : Statement (.sreAbx addr) := ⟨rfl, rfl⟩
theorem rts : Statement .rts := ⟨rfl, rfl⟩
theorem adcIzx (ptr : Byte) : Statement (.adcIzx ptr) := ⟨rfl, rfl⟩
theorem jam62 : Statement .jam62 := ⟨rfl, rfl⟩
theorem rraIzx (ptr : Byte) : Statement (.rraIzx ptr) := ⟨rfl, rfl⟩
theorem nopZp64 (d : Byte) : Statement (.nopZp64 d) := ⟨rfl, rfl⟩
theorem adcZp (d : Byte) : Statement (.adcZp d) := ⟨rfl, rfl⟩
theorem rorZp (d : Byte) : Statement (.rorZp d) := ⟨rfl, rfl⟩
theorem rraZp (d : Byte) : Statement (.rraZp d) := ⟨rfl, rfl⟩
theorem pla : Statement .pla := ⟨rfl, rfl⟩
theorem adcImm (v : Byte) : Statement (.adcImm v) := ⟨rfl, rfl⟩
theorem rorAcc : Statement .rorAcc := ⟨rfl, rfl⟩
theorem arrImm (v : Byte) : Statement (.arrImm v) := ⟨rfl, rfl⟩
theorem jmpInd (addr : Addr) : Statement (.jmpInd addr) := ⟨rfl, rfl⟩
theorem adcAbs (addr : Addr) : Statement (.adcAbs addr) := ⟨rfl, rfl⟩
theorem rorAbs (addr : Addr) : Statement (.rorAbs addr) := ⟨rfl, rfl⟩
theorem rraAbs (addr : Addr) : Statement (.rraAbs addr) := ⟨rfl, rfl⟩
theorem bvsRel (off : Byte) : Statement (.bvsRel off) := ⟨rfl, rfl⟩
theorem adcIzy (ptr : Byte) : Statement (.adcIzy ptr) := ⟨rfl, rfl⟩
theorem jam72 : Statement .jam72 := ⟨rfl, rfl⟩
theorem rraIzy (ptr : Byte) : Statement (.rraIzy ptr) := ⟨rfl, rfl⟩
theorem nopZpx74 (d : Byte) : Statement (.nopZpx74 d) := ⟨rfl, rfl⟩
theorem adcZpx (d : Byte) : Statement (.adcZpx d) := ⟨rfl, rfl⟩
theorem rorZpx (d : Byte) : Statement (.rorZpx d) := ⟨rfl, rfl⟩
theorem rraZpx (d : Byte) : Statement (.rraZpx d) := ⟨rfl, rfl⟩
theorem sei : Statement .sei := ⟨rfl, rfl⟩
theorem adcAby (addr : Addr) : Statement (.adcAby addr) := ⟨rfl, rfl⟩
theorem nop7A : Statement .nop7A := ⟨rfl, rfl⟩
theorem rraAby (addr : Addr) : Statement (.rraAby addr) := ⟨rfl, rfl⟩
theorem nopAbx7C (addr : Addr) : Statement (.nopAbx7C addr) := ⟨rfl, rfl⟩
theorem adcAbx (addr : Addr) : Statement (.adcAbx addr) := ⟨rfl, rfl⟩
theorem rorAbx (addr : Addr) : Statement (.rorAbx addr) := ⟨rfl, rfl⟩
theorem rraAbx (addr : Addr) : Statement (.rraAbx addr) := ⟨rfl, rfl⟩
theorem nopImm80 (v : Byte) : Statement (.nopImm80 v) := ⟨rfl, rfl⟩
theorem staIzx (ptr : Byte) : Statement (.staIzx ptr) := ⟨rfl, rfl⟩
theorem nopImm82 (v : Byte) : Statement (.nopImm82 v) := ⟨rfl, rfl⟩
theorem saxIzx (ptr : Byte) : Statement (.saxIzx ptr) := ⟨rfl, rfl⟩
theorem styZp (d : Byte) : Statement (.styZp d) := ⟨rfl, rfl⟩
theorem staZp (d : Byte) : Statement (.staZp d) := ⟨rfl, rfl⟩
theorem stxZp (d : Byte) : Statement (.stxZp d) := ⟨rfl, rfl⟩
theorem saxZp (d : Byte) : Statement (.saxZp d) := ⟨rfl, rfl⟩
theorem dey : Statement .dey := ⟨rfl, rfl⟩
theorem nopImm89 (v : Byte) : Statement (.nopImm89 v) := ⟨rfl, rfl⟩
theorem txa : Statement .txa := ⟨rfl, rfl⟩
theorem aneImm (v : Byte) : Statement (.aneImm v) := ⟨rfl, rfl⟩
theorem styAbs (addr : Addr) : Statement (.styAbs addr) := ⟨rfl, rfl⟩
theorem staAbs (addr : Addr) : Statement (.staAbs addr) := ⟨rfl, rfl⟩
theorem stxAbs (addr : Addr) : Statement (.stxAbs addr) := ⟨rfl, rfl⟩
theorem saxAbs (addr : Addr) : Statement (.saxAbs addr) := ⟨rfl, rfl⟩
theorem bccRel (off : Byte) : Statement (.bccRel off) := ⟨rfl, rfl⟩
theorem staIzy (ptr : Byte) : Statement (.staIzy ptr) := ⟨rfl, rfl⟩
theorem jam92 : Statement .jam92 := ⟨rfl, rfl⟩
theorem shaIzy (ptr : Byte) : Statement (.shaIzy ptr) := ⟨rfl, rfl⟩
theorem styZpx (d : Byte) : Statement (.styZpx d) := ⟨rfl, rfl⟩
theorem staZpx (d : Byte) : Statement (.staZpx d) := ⟨rfl, rfl⟩
theorem stxZpy (d : Byte) : Statement (.stxZpy d) := ⟨rfl, rfl⟩
theorem saxZpy (d : Byte) : Statement (.saxZpy d) := ⟨rfl, rfl⟩
theorem tya : Statement .tya := ⟨rfl, rfl⟩
theorem staAby (addr : Addr) : Statement (.staAby addr) := ⟨rfl, rfl⟩
theorem txs : Statement .txs := ⟨rfl, rfl⟩
theorem shsAby (addr : Addr) : Statement (.shsAby addr) := ⟨rfl, rfl⟩
theorem shyAbx (addr : Addr) : Statement (.shyAbx addr) := ⟨rfl, rfl⟩
theorem staAbx (addr : Addr) : Statement (.staAbx addr) := ⟨rfl, rfl⟩
theorem shxAby (addr : Addr) : Statement (.shxAby addr) := ⟨rfl, rfl⟩
theorem shaAby (addr : Addr) : Statement (.shaAby addr) := ⟨rfl, rfl⟩
theorem ldyImm (v : Byte) : Statement (.ldyImm v) := ⟨rfl, rfl⟩
theorem ldaIzx (ptr : Byte) : Statement (.ldaIzx ptr) := ⟨rfl, rfl⟩
theorem ldxImm (v : Byte) : Statement (.ldxImm v) := ⟨rfl, rfl⟩
theorem laxIzx (ptr : Byte) : Statement (.laxIzx ptr) := ⟨rfl, rfl⟩
theorem ldyZp (d : Byte) : Statement (.ldyZp d) := ⟨rfl, rfl⟩
theorem ldaZp (d : Byte) : Statement (.ldaZp d) := ⟨rfl, rfl⟩
theorem ldxZp (d : Byte) : Statement (.ldxZp d) := ⟨rfl, rfl⟩
theorem laxZp (d : Byte) : Statement (.laxZp d) := ⟨rfl, rfl⟩
theorem tay : Statement .tay := ⟨rfl, rfl⟩
theorem ldaImm (v : Byte) : Statement (.ldaImm v) := ⟨rfl, rfl⟩
theorem tax : Statement .tax := ⟨rfl, rfl⟩
theorem lxaImm (v : Byte) : Statement (.lxaImm v) := ⟨rfl, rfl⟩
theorem ldyAbs (addr : Addr) : Statement (.ldyAbs addr) := ⟨rfl, rfl⟩
theorem ldaAbs (addr : Addr) : Statement (.ldaAbs addr) := ⟨rfl, rfl⟩
theorem ldxAbs (addr : Addr) : Statement (.ldxAbs addr) := ⟨rfl, rfl⟩
theorem laxAbs (addr : Addr) : Statement (.laxAbs addr) := ⟨rfl, rfl⟩
theorem bcsRel (off : Byte) : Statement (.bcsRel off) := ⟨rfl, rfl⟩
theorem ldaIzy (ptr : Byte) : Statement (.ldaIzy ptr) := ⟨rfl, rfl⟩
theorem jamB2 : Statement .jamB2 := ⟨rfl, rfl⟩
theorem laxIzy (ptr : Byte) : Statement (.laxIzy ptr) := ⟨rfl, rfl⟩
theorem ldyZpx (d : Byte) : Statement (.ldyZpx d) := ⟨rfl, rfl⟩
theorem ldaZpx (d : Byte) : Statement (.ldaZpx d) := ⟨rfl, rfl⟩
theorem ldxZpy (d : Byte) : Statement (.ldxZpy d) := ⟨rfl, rfl⟩
theorem laxZpy (d : Byte) : Statement (.laxZpy d) := ⟨rfl, rfl⟩
theorem clv : Statement .clv := ⟨rfl, rfl⟩
theorem ldaAby (addr : Addr) : Statement (.ldaAby addr) := ⟨rfl, rfl⟩
theorem tsx : Statement .tsx := ⟨rfl, rfl⟩
theorem lasAby (addr : Addr) : Statement (.lasAby addr) := ⟨rfl, rfl⟩
theorem ldyAbx (addr : Addr) : Statement (.ldyAbx addr) := ⟨rfl, rfl⟩
theorem ldaAbx (addr : Addr) : Statement (.ldaAbx addr) := ⟨rfl, rfl⟩
theorem ldxAby (addr : Addr) : Statement (.ldxAby addr) := ⟨rfl, rfl⟩
theorem laxAby (addr : Addr) : Statement (.laxAby addr) := ⟨rfl, rfl⟩
theorem cpyImm (v : Byte) : Statement (.cpyImm v) := ⟨rfl, rfl⟩
theorem cmpIzx (ptr : Byte) : Statement (.cmpIzx ptr) := ⟨rfl, rfl⟩
theorem nopImmC2 (v : Byte) : Statement (.nopImmC2 v) := ⟨rfl, rfl⟩
theorem dcpIzx (ptr : Byte) : Statement (.dcpIzx ptr) := ⟨rfl, rfl⟩
theorem cpyZp (d : Byte) : Statement (.cpyZp d) := ⟨rfl, rfl⟩
theorem cmpZp (d : Byte) : Statement (.cmpZp d) := ⟨rfl, rfl⟩
theorem decZp (d : Byte) : Statement (.decZp d) := ⟨rfl, rfl⟩
theorem dcpZp (d : Byte) : Statement (.dcpZp d) := ⟨rfl, rfl⟩
theorem iny : Statement .iny := ⟨rfl, rfl⟩
theorem cmpImm (v : Byte) : Statement (.cmpImm v) := ⟨rfl, rfl⟩
theorem dex : Statement .dex := ⟨rfl, rfl⟩
theorem sbxImm (v : Byte) : Statement (.sbxImm v) := ⟨rfl, rfl⟩
theorem cpyAbs (addr : Addr) : Statement (.cpyAbs addr) := ⟨rfl, rfl⟩
theorem cmpAbs (addr : Addr) : Statement (.cmpAbs addr) := ⟨rfl, rfl⟩
theorem decAbs (addr : Addr) : Statement (.decAbs addr) := ⟨rfl, rfl⟩
theorem dcpAbs (addr : Addr) : Statement (.dcpAbs addr) := ⟨rfl, rfl⟩
theorem bneRel (off : Byte) : Statement (.bneRel off) := ⟨rfl, rfl⟩
theorem cmpIzy (ptr : Byte) : Statement (.cmpIzy ptr) := ⟨rfl, rfl⟩
theorem jamD2 : Statement .jamD2 := ⟨rfl, rfl⟩
theorem dcpIzy (ptr : Byte) : Statement (.dcpIzy ptr) := ⟨rfl, rfl⟩
theorem nopZpxD4 (d : Byte) : Statement (.nopZpxD4 d) := ⟨rfl, rfl⟩
theorem cmpZpx (d : Byte) : Statement (.cmpZpx d) := ⟨rfl, rfl⟩
theorem decZpx (d : Byte) : Statement (.decZpx d) := ⟨rfl, rfl⟩
theorem dcpZpx (d : Byte) : Statement (.dcpZpx d) := ⟨rfl, rfl⟩
theorem cld : Statement .cld := ⟨rfl, rfl⟩
theorem cmpAby (addr : Addr) : Statement (.cmpAby addr) := ⟨rfl, rfl⟩
theorem nopDA : Statement .nopDA := ⟨rfl, rfl⟩
theorem dcpAby (addr : Addr) : Statement (.dcpAby addr) := ⟨rfl, rfl⟩
theorem nopAbxDC (addr : Addr) : Statement (.nopAbxDC addr) := ⟨rfl, rfl⟩
theorem cmpAbx (addr : Addr) : Statement (.cmpAbx addr) := ⟨rfl, rfl⟩
theorem decAbx (addr : Addr) : Statement (.decAbx addr) := ⟨rfl, rfl⟩
theorem dcpAbx (addr : Addr) : Statement (.dcpAbx addr) := ⟨rfl, rfl⟩
theorem cpxImm (v : Byte) : Statement (.cpxImm v) := ⟨rfl, rfl⟩
theorem sbcIzx (ptr : Byte) : Statement (.sbcIzx ptr) := ⟨rfl, rfl⟩
theorem nopImmE2 (v : Byte) : Statement (.nopImmE2 v) := ⟨rfl, rfl⟩
theorem isbIzx (ptr : Byte) : Statement (.isbIzx ptr) := ⟨rfl, rfl⟩
theorem cpxZp (d : Byte) : Statement (.cpxZp d) := ⟨rfl, rfl⟩
theorem sbcZp (d : Byte) : Statement (.sbcZp d) := ⟨rfl, rfl⟩
theorem incZp (d : Byte) : Statement (.incZp d) := ⟨rfl, rfl⟩
theorem isbZp (d : Byte) : Statement (.isbZp d) := ⟨rfl, rfl⟩
theorem inx : Statement .inx := ⟨rfl, rfl⟩
theorem sbcImm (v : Byte) : Statement (.sbcImm v) := ⟨rfl, rfl⟩
theorem nop : Statement .nop := ⟨rfl, rfl⟩
theorem sbcImmEB (v : Byte) : Statement (.sbcImmEB v) := ⟨rfl, rfl⟩
theorem cpxAbs (addr : Addr) : Statement (.cpxAbs addr) := ⟨rfl, rfl⟩
theorem sbcAbs (addr : Addr) : Statement (.sbcAbs addr) := ⟨rfl, rfl⟩
theorem incAbs (addr : Addr) : Statement (.incAbs addr) := ⟨rfl, rfl⟩
theorem isbAbs (addr : Addr) : Statement (.isbAbs addr) := ⟨rfl, rfl⟩
theorem beqRel (off : Byte) : Statement (.beqRel off) := ⟨rfl, rfl⟩
theorem sbcIzy (ptr : Byte) : Statement (.sbcIzy ptr) := ⟨rfl, rfl⟩
theorem jamF2 : Statement .jamF2 := ⟨rfl, rfl⟩
theorem isbIzy (ptr : Byte) : Statement (.isbIzy ptr) := ⟨rfl, rfl⟩
theorem nopZpxF4 (d : Byte) : Statement (.nopZpxF4 d) := ⟨rfl, rfl⟩
theorem sbcZpx (d : Byte) : Statement (.sbcZpx d) := ⟨rfl, rfl⟩
theorem incZpx (d : Byte) : Statement (.incZpx d) := ⟨rfl, rfl⟩
theorem isbZpx (d : Byte) : Statement (.isbZpx d) := ⟨rfl, rfl⟩
theorem sed : Statement .sed := ⟨rfl, rfl⟩
theorem sbcAby (addr : Addr) : Statement (.sbcAby addr) := ⟨rfl, rfl⟩
theorem nopFA : Statement .nopFA := ⟨rfl, rfl⟩
theorem isbAby (addr : Addr) : Statement (.isbAby addr) := ⟨rfl, rfl⟩
theorem nopAbxFC (addr : Addr) : Statement (.nopAbxFC addr) := ⟨rfl, rfl⟩
theorem sbcAbx (addr : Addr) : Statement (.sbcAbx addr) := ⟨rfl, rfl⟩
theorem incAbx (addr : Addr) : Statement (.incAbx addr) := ⟨rfl, rfl⟩
theorem isbAbx (addr : Addr) : Statement (.isbAbx addr) := ⟨rfl, rfl⟩

end Sys2Proof.Laws.WellFormed
end

