-- ==== Sys2Proof/Laws/Shared.lean ====
section
/-! SUPPORT. For each shape that instructions share and that stores, once, what it can do. The shapes that only read
need none: `simp` closes their fields with Laws/Ops.lean. -/

namespace Sys2Proof.Machine

/-- What a store leaves. -/
theorem storeValue_spec (v : Byte) (m : MemMode) (s : State) :
    ∃ t, storeValue v m s = .next t ∧ keepsRegisters s t ∧ t.p = s.p ∧ t.pc = s.pc ∧ keepsRest s t ∧
      holdsStores [((storeAddress m s).1, v)] s t ∧ keepsMemoryBut [(storeAddress m s).1] s t ∧
      t.bus = (storeAddress m s).2.bus ++ [.write (storeAddress m s).1 v] := by
  refine ⟨_, rfl, ?_, ?_, ?_, ?_, writeMem_stores m v s, (writeMem_stores m v s).keepsMemoryBut, ?_⟩
  · simp [keepsRegisters]
  · simp
  · simp
  · simp [keepsRest]
  · simp [writeMem]

/-- The memory half of a shift: every field. -/
theorem shiftStore_spec (f : Byte → Bool → Byte × Bool) (m : MemMode) (s : State) :
    let e := storeAddress m s
    let b := (e.2.read e.1).1
    let t := (shiftStore f m s).2
    (shiftStore f m s).1 = (f b s.p.c).1 ∧ t.p = { s.p with c := (f b s.p.c).2 } ∧ keepsRegisters s t ∧
      t.pc = s.pc ∧ keepsRest s t ∧ holdsStores [(e.1, b), (e.1, (f b s.p.c).1)] s t ∧
      t.bus = e.2.bus ++ [.read e.1 b, .write e.1 b, .write e.1 (f b s.p.c).1] := by
  have h := modifyMem_stores m (fun b => (f b s.p.c).1) s
  have hb := modifyMem_bus m (fun b => (f b s.p.c).1) s
  refine ⟨?_, ?_, ?_, ?_, ?_, h.2.of_fields ?_ ?_ ?_ ?_, ?_⟩ <;>
    simp [shiftStore, h.1, hb, keepsRegisters, keepsRest, Flags.withC]

/-- What a shift of memory leaves. -/
theorem shiftMem_spec (f : Byte → Bool → Byte × Bool) (m : MemMode) (s : State) :
    let e := storeAddress m s
    let b := (e.2.read e.1).1
    let r := f b s.p.c
    ∃ t, shiftMem f m s = .next t ∧ t.p = { s.p with n := r.1.getLsbD 7, z := r.1 == 0, c := r.2 } ∧
      keepsRegisters s t ∧ t.pc = s.pc ∧ keepsRest s t ∧ holdsStores [(e.1, b), (e.1, r.1)] s t ∧
      keepsMemoryBut [e.1] s t ∧ t.bus = e.2.bus ++ [.read e.1 b, .write e.1 b, .write e.1 r.1] := by
  obtain ⟨h1, h2, h3, h4, h5, h6, h7⟩ := shiftStore_spec f m s
  have hs := h6.of_fields (u := (shiftStore f m s).2.setNZ (shiftStore f m s).1) (by simp) (by simp) (by simp) (by simp)
  exact ⟨_, rfl, by simp [h1, h2, Flags.withNZ], by simpa [keepsRegisters] using h3, by simpa using h4,
    by simpa [keepsRest] using h5, hs, hs.keepsMemoryBut.mono (by simp), by simpa using h7⟩

/-- What a count of memory leaves. -/
theorem countMem_spec (f : Byte → Byte) (m : MemMode) (s : State) :
    let e := storeAddress m s
    let b := (e.2.read e.1).1
    ∃ t, countMem f m s = .next t ∧ t.p = { s.p with n := (f b).getLsbD 7, z := f b == 0 } ∧
      keepsRegisters s t ∧ t.pc = s.pc ∧ keepsRest s t ∧ holdsStores [(e.1, b), (e.1, f b)] s t ∧
      keepsMemoryBut [e.1] s t ∧ t.bus = e.2.bus ++ [.read e.1 b, .write e.1 b, .write e.1 (f b)] := by
  have h := modifyMem_stores m f s
  have hb := modifyMem_bus m f s
  have hs := h.2.of_fields (u := (modifyMem m f s).2.setNZ (f (modifyMem m f s).1)) (by simp) (by simp) (by simp) (by simp)
  refine ⟨_, rfl, ?_, ?_, ?_, ?_, hs, hs.keepsMemoryBut.mono (by simp), ?_⟩ <;>
    simp [countStore, h.1, hb, keepsRegisters, keepsRest, Flags.withNZ]

/-- What a shift and a logic operation leave. -/
theorem shiftLogic_spec (f : Byte → Bool → Byte × Bool) (g : Byte → Byte → Byte) (m : MemMode) (s : State) :
    let e := storeAddress m s
    let b := (e.2.read e.1).1
    let r := f b s.p.c
    let a := g s.a r.1
    ∃ t, shiftLogic f g m s = .next t ∧ t.a = a ∧
      t.p = { s.p with n := a.getLsbD 7, z := a == 0, c := r.2 } ∧ t.x = s.x ∧ t.y = s.y ∧ t.sp = s.sp ∧
      t.pc = s.pc ∧ keepsRest s t ∧ holdsStores [(e.1, b), (e.1, r.1)] s t ∧ keepsMemoryBut [e.1] s t ∧
      t.bus = e.2.bus ++ [.read e.1 b, .write e.1 b, .write e.1 r.1] := by
  obtain ⟨h1, h2, ⟨-, hx, hy, hsp⟩, h4, h5, h6, h7⟩ := shiftStore_spec f m s
  have hs := h6.of_fields
    (u := ((shiftStore f m s).2.setA (g s.a (shiftStore f m s).1)).setNZ (g s.a (shiftStore f m s).1))
    (by simp) (by simp) (by simp) (by simp)
  exact ⟨_, rfl, by simp [h1], by simp [h1, h2, Flags.withNZ], by simpa using hx, by simpa using hy,
    by simpa using hsp, by simpa using h4, by simpa [keepsRest] using h5, hs,
    hs.keepsMemoryBut.mono (by simp), by simpa using h7⟩

/-- What RRA leaves. -/
theorem rotateAdd_spec (m : MemMode) (s : State) :
    let e := storeAddress m s
    let b := (e.2.read e.1).1
    let r := ror b s.p.c
    let q := adc s.a r.1 { s.p with c := r.2 }
    ∃ t, rotateAdd m s = .next t ∧ t.a = q.1 ∧ t.p = q.2 ∧ t.x = s.x ∧ t.y = s.y ∧ t.sp = s.sp ∧ t.pc = s.pc ∧
      keepsRest s t ∧ holdsStores [(e.1, b), (e.1, r.1)] s t ∧ keepsMemoryBut [e.1] s t ∧
      t.bus = e.2.bus ++ [.read e.1 b, .write e.1 b, .write e.1 r.1] := by
  obtain ⟨h1, h2, ⟨-, hx, hy, hsp⟩, h4, h5, h6, h7⟩ := shiftStore_spec ror m s
  generalize hq : adc s.a (shiftStore ror m s).1 (shiftStore ror m s).2.p = q
  have hs := h6.of_fields (u := ((shiftStore ror m s).2.setA q.1).setP q.2) (by simp) (by simp) (by simp) (by simp)
  rw [h1, h2] at hq
  refine ⟨((shiftStore ror m s).2.setA q.1).setP q.2, ?_, ?_, ?_, ?_, ?_, ?_, ?_, ?_, hs,
    hs.keepsMemoryBut.mono (by simp), ?_⟩
  · simp only [rotateAdd, h1, h2, hq]
  · simp [← hq]
  · simp [← hq]
  · simpa using hx
  · simpa using hy
  · simpa using hsp
  · simpa using h4
  · simpa [keepsRest] using h5
  · simpa using h7

/-- What a count of memory leaves before A or the flags are touched. -/
theorem countStore_spec (f : Byte → Byte) (m : MemMode) (s : State) :
    let e := storeAddress m s
    let b := (e.2.read e.1).1
    let t := (countStore f m s).2
    (countStore f m s).1 = f b ∧ t.p = s.p ∧ keepsRegisters s t ∧ t.pc = s.pc ∧ keepsRest s t ∧
      holdsStores [(e.1, b), (e.1, f b)] s t ∧
      t.bus = e.2.bus ++ [.read e.1 b, .write e.1 b, .write e.1 (f b)] := by
  have h := modifyMem_stores m f s
  have hb := modifyMem_bus m f s
  refine ⟨?_, ?_, ?_, ?_, ?_, h.2, ?_⟩ <;> simp [countStore, h.1, hb, keepsRegisters, keepsRest]

/-- What ISB leaves. -/
theorem incSubtract_spec (m : MemMode) (s : State) :
    let e := storeAddress m s
    let b := (e.2.read e.1).1
    let q := sbc s.a (b + 1) s.p
    ∃ t, incSubtract m s = .next t ∧ t.a = q.1 ∧ t.p = q.2 ∧ t.x = s.x ∧ t.y = s.y ∧ t.sp = s.sp ∧
      t.pc = s.pc ∧ keepsRest s t ∧ holdsStores [(e.1, b), (e.1, b + 1)] s t ∧ keepsMemoryBut [e.1] s t ∧
      t.bus = e.2.bus ++ [.read e.1 b, .write e.1 b, .write e.1 (b + 1)] := by
  obtain ⟨h1, -, ⟨-, hx, hy, hsp⟩, h4, h5, h6, h7⟩ := countStore_spec (· + 1) m s
  generalize hq : sbc s.a (countStore (· + 1) m s).1 s.p = q
  have hs := h6.of_fields (u := ((countStore (· + 1) m s).2.setA q.1).setP q.2) (by simp) (by simp) (by simp) (by simp)
  rw [h1] at hq
  refine ⟨((countStore (· + 1) m s).2.setA q.1).setP q.2, ?_, ?_, ?_, ?_, ?_, ?_, ?_, ?_, hs,
    hs.keepsMemoryBut.mono (by simp), ?_⟩
  · simp only [incSubtract, h1, hq]
  · simp [← hq]
  · simp [← hq]
  · simpa using hx
  · simpa using hy
  · simpa using hsp
  · simpa using h4
  · simpa [keepsRest] using h5
  · simpa using h7

/-- What DCP leaves. -/
theorem decCompare_spec (m : MemMode) (s : State) :
    let e := storeAddress m s
    let b := (e.2.read e.1).1
    ∃ t, decCompare m s = .next t ∧ t.p = (compare s.a (b - 1) s.p).2 ∧ keepsRegisters s t ∧
      t.pc = s.pc ∧ keepsRest s t ∧ holdsStores [(e.1, b), (e.1, b - 1)] s t ∧ keepsMemoryBut [e.1] s t ∧
      t.bus = e.2.bus ++ [.read e.1 b, .write e.1 b, .write e.1 (b - 1)] := by
  obtain ⟨h1, -, h3, h4, h5, h6, h7⟩ := countStore_spec (· - 1) m s
  generalize hq : (compare s.a (countStore (· - 1) m s).1 s.p).2 = q
  have hs := h6.of_fields (u := (countStore (· - 1) m s).2.setP q) (by simp) (by simp) (by simp) (by simp)
  rw [h1] at hq
  refine ⟨(countStore (· - 1) m s).2.setP q, ?_, ?_, ?_, ?_, ?_, hs, hs.keepsMemoryBut.mono (by simp), ?_⟩
  · simp only [decCompare, h1, hq]
  · simp [← hq]
  · simpa [keepsRegisters] using h3
  · simpa using h4
  · simpa [keepsRest] using h5
  · simpa using h7

/-- What a branch leaves. -/
theorem branchIf_spec (cond : Bool) (off : Byte) (s : State) :
    ∃ t, branchIf cond off s = .next t ∧ t.pc = (if cond then s.pc + off.signExtend 16 else s.pc) ∧
      keepsRegisters s t ∧ t.p = s.p ∧ keepsMemory s t ∧ keepsRest s t := by
  cases cond
  · exact ⟨s, rfl, by simp, by simp [keepsRegisters], rfl, by simp [keepsMemory], by simp [keepsRest]⟩
  · refine ⟨_, rfl, ?_⟩
    split <;> simp [keepsRegisters, keepsMemory, keepsRest, offset]

end Sys2Proof.Machine
end

