-- ==== Sys2Proof/Laws/Step.lean ====
section
/-! SUPPORT. What a step is at each event, and what its end does. -/

namespace Sys2Proof.Machine

/-- Without a -RESET inside it a step ends as it would. -/
@[simp] theorem finish_none {s : State} (h : s.inputs.resetArriving = none) (f : State → Nat → Flags) (r : Result) :
    finish s f r = settle r := by
  simp [finish, h]

/-- With a -RESET inside it a step is cut short. -/
theorem finish_some {s : State} {k : Nat} (h : s.inputs.resetArriving = some k) (f : State → Nat → Flags)
    (t : State) : finish s f (.next t) = .next (s.cutShort t k (f t k)).settleNmi.elapse := by
  simp [finish, h, settle]

/-- However it ends, a step that would give a next state gives one. -/
theorem finish_next (s : State) (f : State → Nat → Flags) (t : State) :
    finish s f (.next t) = .next t.settleNmi.elapse ∨
      ∃ k, s.inputs.resetArriving = some k ∧
        finish s f (.next t) = .next (s.cutShort t k (f t k)).settleNmi.elapse := by
  cases h : s.inputs.resetArriving with
  | none => exact .inl (by simp [finish, h, settle])
  | some k => exact .inr ⟨k, rfl, finish_some h f t⟩

/-- Writes done over reach memory and the port alone. -/
@[simp] theorem State.replay_keeps (s : State) (l : List BusAccess) :
    (s.replay l).a = s.a ∧ (s.replay l).x = s.x ∧ (s.replay l).y = s.y ∧ (s.replay l).sp = s.sp ∧
    (s.replay l).pc = s.pc ∧ (s.replay l).p = s.p ∧ (s.replay l).jammed = s.jammed ∧
    (s.replay l).nmiPending = s.nmiPending ∧ (s.replay l).inputs = s.inputs ∧ (s.replay l).board = s.board ∧
    (s.replay l).draws = s.draws ∧ (s.replay l).bus = s.bus := by
  induction l generalizing s with
  | nil => simp [State.replay]
  | cons c rest ih => cases c <;> simp [State.replay, ih]

/-- Writes done over keep the invariant. -/
theorem State.replay_inv {s : State} (h : s.inv = true) (l : List BusAccess) : (s.replay l).inv = true := by
  induction l generalizing s with
  | nil => exact h
  | cons c rest ih =>
    cases c with
    | read a v => exact ih h
    | write a v => exact ih (State.accept_inv h a v)

/-- A step at each event. -/
theorem step_reset {s : State} (h : (s.setBus []).event = .reset) :
    step s = finish (s.setBus []) (fun _ _ => s.p) (.next (s.setBus []).resetSequence) := by
  simp [step, h]

theorem step_stuck {s : State} (h : (s.setBus []).event = .stuck) : step s = .next (s.setBus []) := by
  simp [step, h]

theorem step_nmi {s : State} (h : (s.setBus []).event = .nmi) :
    step s = finish (s.setBus []) (fun _ _ => s.p)
      (.next (((s.setBus []).setNmiPending false).interruptSequence nmiVector)) := by
  simp [step, h]

theorem step_irq {s : State} (h : (s.setBus []).event = .irq) :
    step s = finish (s.setBus []) (fun _ _ => s.p) (.next ((s.setBus []).interruptSequence s.board.irqVector)) := by
  simp [step, h]

theorem step_instruction {s : State} (h : (s.setBus []).event = .instruction) :
    step s = finish (s.setBus []) (earlyFlags (s.setBus []).fetchInstr.1 (s.setBus []))
      (exec (s.setBus []).fetchInstr.1 (s.setBus []).fetchInstr.2) := by
  simp [step, h]

end Sys2Proof.Machine
end

