-- ==== Sys2Proof/Tests/Slice0.lean ====
section
/-! SUPPORT. Tests. The expected results come from outside the model: the opcode matrix (30_encoding.md R104) for the
decode tests, the test vectors of 95_test_vectors.md for the steps, each named in its comment. The witnesses
at the end meet the hypotheses of the statements. -/

namespace Sys2Proof.Tests

open Sys2Proof.Machine

/-! ## Forms -/

/-- `STA #$nn` stands in no cell of the matrix. -/
theorem test_no_store_immediate : wellFormedForm .sta (.source (.imm 0)) = false := by decide

/-- INX has no operand. -/
theorem test_no_operand_for_inx : wellFormedForm .inx (.source (.mem (.zp 0))) = false := by decide

/-- Only the shifts have an accumulator form. -/
theorem test_no_accumulator_inc : wellFormedForm .inc .accumulator = false := by decide

/-- Only JMP is indirect. -/
theorem test_no_indirect_jsr : wellFormedForm .jsr (.indirect 0) = false := by decide

/-- Only the branches are relative. -/
theorem test_no_relative_jmp : wellFormedForm .jmp (.relative 0) = false := by decide

/-- LDX is indexed by Y, not by X. -/
theorem test_no_ldx_by_x : wellFormedForm .ldx (.source (.mem (.zpx 0))) = false := by decide

/-- A list that ends before its operand is refused, by name. -/
theorem test_missing_operand :
    decode [0xAD, 0x00] = .error (.missingOperand 0xAD) ∧ decode [] = .error .noOpcode := ⟨rfl, rfl⟩

/-! ## Decoding: every opcode, its word written from the matrix with operand bytes $12 and $34 -/

/-- Opcodes $00 to $0F. -/
theorem test_decode_0 :
    decode [0x00] = .ok (.brk, []) ∧ decode [0x01, 0x12] = .ok (.oraIzx 0x12, []) ∧
    decode [0x02] = .ok (.jam02, []) ∧ decode [0x03, 0x12] = .ok (.sloIzx 0x12, []) ∧
    decode [0x04, 0x12] = .ok (.nopZp04 0x12, []) ∧ decode [0x05, 0x12] = .ok (.oraZp 0x12, []) ∧
    decode [0x06, 0x12] = .ok (.aslZp 0x12, []) ∧ decode [0x07, 0x12] = .ok (.sloZp 0x12, []) ∧
    decode [0x08] = .ok (.php, []) ∧ decode [0x09, 0x12] = .ok (.oraImm 0x12, []) ∧
    decode [0x0A] = .ok (.aslAcc, []) ∧ decode [0x0B, 0x12] = .ok (.ancImm0B 0x12, []) ∧
    decode [0x0C, 0x12, 0x34] = .ok (.nopAbs 0x3412, []) ∧ decode [0x0D, 0x12, 0x34] = .ok (.oraAbs 0x3412, []) ∧
    decode [0x0E, 0x12, 0x34] = .ok (.aslAbs 0x3412, []) ∧
    decode [0x0F, 0x12, 0x34] = .ok (.sloAbs 0x3412, []) := by
  refine ⟨?_, ?_, ?_, ?_, ?_, ?_, ?_, ?_, ?_, ?_, ?_, ?_, ?_, ?_, ?_, ?_⟩ <;> rfl

/-- Opcodes $10 to $1F. -/
theorem test_decode_1 :
    decode [0x10, 0x12] = .ok (.bplRel 0x12, []) ∧ decode [0x11, 0x12] = .ok (.oraIzy 0x12, []) ∧
    decode [0x12] = .ok (.jam12, []) ∧ decode [0x13, 0x12] = .ok (.sloIzy 0x12, []) ∧
    decode [0x14, 0x12] = .ok (.nopZpx14 0x12, []) ∧ decode [0x15, 0x12] = .ok (.oraZpx 0x12, []) ∧
    decode [0x16, 0x12] = .ok (.aslZpx 0x12, []) ∧ decode [0x17, 0x12] = .ok (.sloZpx 0x12, []) ∧
    decode [0x18] = .ok (.clc, []) ∧ decode [0x19, 0x12, 0x34] = .ok (.oraAby 0x3412, []) ∧
    decode [0x1A] = .ok (.nop1A, []) ∧ decode [0x1B, 0x12, 0x34] = .ok (.sloAby 0x3412, []) ∧
    decode [0x1C, 0x12, 0x34] = .ok (.nopAbx1C 0x3412, []) ∧
    decode [0x1D, 0x12, 0x34] = .ok (.oraAbx 0x3412, []) ∧ decode [0x1E, 0x12, 0x34] = .ok (.aslAbx 0x3412, []) ∧
    decode [0x1F, 0x12, 0x34] = .ok (.sloAbx 0x3412, []) := by
  refine ⟨?_, ?_, ?_, ?_, ?_, ?_, ?_, ?_, ?_, ?_, ?_, ?_, ?_, ?_, ?_, ?_⟩ <;> rfl

/-- Opcodes $20 to $2F. -/
theorem test_decode_2 :
    decode [0x20, 0x12, 0x34] = .ok (.jsrAbs 0x3412, []) ∧ decode [0x21, 0x12] = .ok (.andIzx 0x12, []) ∧
    decode [0x22] = .ok (.jam22, []) ∧ decode [0x23, 0x12] = .ok (.rlaIzx 0x12, []) ∧
    decode [0x24, 0x12] = .ok (.bitZp 0x12, []) ∧ decode [0x25, 0x12] = .ok (.andZp 0x12, []) ∧
    decode [0x26, 0x12] = .ok (.rolZp 0x12, []) ∧ decode [0x27, 0x12] = .ok (.rlaZp 0x12, []) ∧
    decode [0x28] = .ok (.plp, []) ∧ decode [0x29, 0x12] = .ok (.andImm 0x12, []) ∧
    decode [0x2A] = .ok (.rolAcc, []) ∧ decode [0x2B, 0x12] = .ok (.ancImm2B 0x12, []) ∧
    decode [0x2C, 0x12, 0x34] = .ok (.bitAbs 0x3412, []) ∧ decode [0x2D, 0x12, 0x34] = .ok (.andAbs 0x3412, []) ∧
    decode [0x2E, 0x12, 0x34] = .ok (.rolAbs 0x3412, []) ∧
    decode [0x2F, 0x12, 0x34] = .ok (.rlaAbs 0x3412, []) := by
  refine ⟨?_, ?_, ?_, ?_, ?_, ?_, ?_, ?_, ?_, ?_, ?_, ?_, ?_, ?_, ?_, ?_⟩ <;> rfl

/-- Opcodes $30 to $3F. -/
theorem test_decode_3 :
    decode [0x30, 0x12] = .ok (.bmiRel 0x12, []) ∧ decode [0x31, 0x12] = .ok (.andIzy 0x12, []) ∧
    decode [0x32] = .ok (.jam32, []) ∧ decode [0x33, 0x12] = .ok (.rlaIzy 0x12, []) ∧
    decode [0x34, 0x12] = .ok (.nopZpx34 0x12, []) ∧ decode [0x35, 0x12] = .ok (.andZpx 0x12, []) ∧
    decode [0x36, 0x12] = .ok (.rolZpx 0x12, []) ∧ decode [0x37, 0x12] = .ok (.rlaZpx 0x12, []) ∧
    decode [0x38] = .ok (.sec, []) ∧ decode [0x39, 0x12, 0x34] = .ok (.andAby 0x3412, []) ∧
    decode [0x3A] = .ok (.nop3A, []) ∧ decode [0x3B, 0x12, 0x34] = .ok (.rlaAby 0x3412, []) ∧
    decode [0x3C, 0x12, 0x34] = .ok (.nopAbx3C 0x3412, []) ∧
    decode [0x3D, 0x12, 0x34] = .ok (.andAbx 0x3412, []) ∧ decode [0x3E, 0x12, 0x34] = .ok (.rolAbx 0x3412, []) ∧
    decode [0x3F, 0x12, 0x34] = .ok (.rlaAbx 0x3412, []) := by
  refine ⟨?_, ?_, ?_, ?_, ?_, ?_, ?_, ?_, ?_, ?_, ?_, ?_, ?_, ?_, ?_, ?_⟩ <;> rfl

/-- Opcodes $40 to $4F. -/
theorem test_decode_4 :
    decode [0x40] = .ok (.rti, []) ∧ decode [0x41, 0x12] = .ok (.eorIzx 0x12, []) ∧
    decode [0x42] = .ok (.jam42, []) ∧ decode [0x43, 0x12] = .ok (.sreIzx 0x12, []) ∧
    decode [0x44, 0x12] = .ok (.nopZp44 0x12, []) ∧ decode [0x45, 0x12] = .ok (.eorZp 0x12, []) ∧
    decode [0x46, 0x12] = .ok (.lsrZp 0x12, []) ∧ decode [0x47, 0x12] = .ok (.sreZp 0x12, []) ∧
    decode [0x48] = .ok (.pha, []) ∧ decode [0x49, 0x12] = .ok (.eorImm 0x12, []) ∧
    decode [0x4A] = .ok (.lsrAcc, []) ∧ decode [0x4B, 0x12] = .ok (.asrImm 0x12, []) ∧
    decode [0x4C, 0x12, 0x34] = .ok (.jmpAbs 0x3412, []) ∧ decode [0x4D, 0x12, 0x34] = .ok (.eorAbs 0x3412, []) ∧
    decode [0x4E, 0x12, 0x34] = .ok (.lsrAbs 0x3412, []) ∧
    decode [0x4F, 0x12, 0x34] = .ok (.sreAbs 0x3412, []) := by
  refine ⟨?_, ?_, ?_, ?_, ?_, ?_, ?_, ?_, ?_, ?_, ?_, ?_, ?_, ?_, ?_, ?_⟩ <;> rfl

/-- Opcodes $50 to $5F. -/
theorem test_decode_5 :
    decode [0x50, 0x12] = .ok (.bvcRel 0x12, []) ∧ decode [0x51, 0x12] = .ok (.eorIzy 0x12, []) ∧
    decode [0x52] = .ok (.jam52, []) ∧ decode [0x53, 0x12] = .ok (.sreIzy 0x12, []) ∧
    decode [0x54, 0x12] = .ok (.nopZpx54 0x12, []) ∧ decode [0x55, 0x12] = .ok (.eorZpx 0x12, []) ∧
    decode [0x56, 0x12] = .ok (.lsrZpx 0x12, []) ∧ decode [0x57, 0x12] = .ok (.sreZpx 0x12, []) ∧
    decode [0x58] = .ok (.cli, []) ∧ decode [0x59, 0x12, 0x34] = .ok (.eorAby 0x3412, []) ∧
    decode [0x5A] = .ok (.nop5A, []) ∧ decode [0x5B, 0x12, 0x34] = .ok (.sreAby 0x3412, []) ∧
    decode [0x5C, 0x12, 0x34] = .ok (.nopAbx5C 0x3412, []) ∧
    decode [0x5D, 0x12, 0x34] = .ok (.eorAbx 0x3412, []) ∧ decode [0x5E, 0x12, 0x34] = .ok (.lsrAbx 0x3412, []) ∧
    decode [0x5F, 0x12, 0x34] = .ok (.sreAbx 0x3412, []) := by
  refine ⟨?_, ?_, ?_, ?_, ?_, ?_, ?_, ?_, ?_, ?_, ?_, ?_, ?_, ?_, ?_, ?_⟩ <;> rfl

/-- Opcodes $60 to $6F. -/
theorem test_decode_6 :
    decode [0x60] = .ok (.rts, []) ∧ decode [0x61, 0x12] = .ok (.adcIzx 0x12, []) ∧
    decode [0x62] = .ok (.jam62, []) ∧ decode [0x63, 0x12] = .ok (.rraIzx 0x12, []) ∧
    decode [0x64, 0x12] = .ok (.nopZp64 0x12, []) ∧ decode [0x65, 0x12] = .ok (.adcZp 0x12, []) ∧
    decode [0x66, 0x12] = .ok (.rorZp 0x12, []) ∧ decode [0x67, 0x12] = .ok (.rraZp 0x12, []) ∧
    decode [0x68] = .ok (.pla, []) ∧ decode [0x69, 0x12] = .ok (.adcImm 0x12, []) ∧
    decode [0x6A] = .ok (.rorAcc, []) ∧ decode [0x6B, 0x12] = .ok (.arrImm 0x12, []) ∧
    decode [0x6C, 0x12, 0x34] = .ok (.jmpInd 0x3412, []) ∧ decode [0x6D, 0x12, 0x34] = .ok (.adcAbs 0x3412, []) ∧
    decode [0x6E, 0x12, 0x34] = .ok (.rorAbs 0x3412, []) ∧
    decode [0x6F, 0x12, 0x34] = .ok (.rraAbs 0x3412, []) := by
  refine ⟨?_, ?_, ?_, ?_, ?_, ?_, ?_, ?_, ?_, ?_, ?_, ?_, ?_, ?_, ?_, ?_⟩ <;> rfl

/-- Opcodes $70 to $7F. -/
theorem test_decode_7 :
    decode [0x70, 0x12] = .ok (.bvsRel 0x12, []) ∧ decode [0x71, 0x12] = .ok (.adcIzy 0x12, []) ∧
    decode [0x72] = .ok (.jam72, []) ∧ decode [0x73, 0x12] = .ok (.rraIzy 0x12, []) ∧
    decode [0x74, 0x12] = .ok (.nopZpx74 0x12, []) ∧ decode [0x75, 0x12] = .ok (.adcZpx 0x12, []) ∧
    decode [0x76, 0x12] = .ok (.rorZpx 0x12, []) ∧ decode [0x77, 0x12] = .ok (.rraZpx 0x12, []) ∧
    decode [0x78] = .ok (.sei, []) ∧ decode [0x79, 0x12, 0x34] = .ok (.adcAby 0x3412, []) ∧
    decode [0x7A] = .ok (.nop7A, []) ∧ decode [0x7B, 0x12, 0x34] = .ok (.rraAby 0x3412, []) ∧
    decode [0x7C, 0x12, 0x34] = .ok (.nopAbx7C 0x3412, []) ∧
    decode [0x7D, 0x12, 0x34] = .ok (.adcAbx 0x3412, []) ∧ decode [0x7E, 0x12, 0x34] = .ok (.rorAbx 0x3412, []) ∧
    decode [0x7F, 0x12, 0x34] = .ok (.rraAbx 0x3412, []) := by
  refine ⟨?_, ?_, ?_, ?_, ?_, ?_, ?_, ?_, ?_, ?_, ?_, ?_, ?_, ?_, ?_, ?_⟩ <;> rfl

/-- Opcodes $80 to $8F. -/
theorem test_decode_8 :
    decode [0x80, 0x12] = .ok (.nopImm80 0x12, []) ∧ decode [0x81, 0x12] = .ok (.staIzx 0x12, []) ∧
    decode [0x82, 0x12] = .ok (.nopImm82 0x12, []) ∧ decode [0x83, 0x12] = .ok (.saxIzx 0x12, []) ∧
    decode [0x84, 0x12] = .ok (.styZp 0x12, []) ∧ decode [0x85, 0x12] = .ok (.staZp 0x12, []) ∧
    decode [0x86, 0x12] = .ok (.stxZp 0x12, []) ∧ decode [0x87, 0x12] = .ok (.saxZp 0x12, []) ∧
    decode [0x88] = .ok (.dey, []) ∧ decode [0x89, 0x12] = .ok (.nopImm89 0x12, []) ∧
    decode [0x8A] = .ok (.txa, []) ∧ decode [0x8B, 0x12] = .ok (.aneImm 0x12, []) ∧
    decode [0x8C, 0x12, 0x34] = .ok (.styAbs 0x3412, []) ∧ decode [0x8D, 0x12, 0x34] = .ok (.staAbs 0x3412, []) ∧
    decode [0x8E, 0x12, 0x34] = .ok (.stxAbs 0x3412, []) ∧
    decode [0x8F, 0x12, 0x34] = .ok (.saxAbs 0x3412, []) := by
  refine ⟨?_, ?_, ?_, ?_, ?_, ?_, ?_, ?_, ?_, ?_, ?_, ?_, ?_, ?_, ?_, ?_⟩ <;> rfl

/-- Opcodes $90 to $9F. -/
theorem test_decode_9 :
    decode [0x90, 0x12] = .ok (.bccRel 0x12, []) ∧ decode [0x91, 0x12] = .ok (.staIzy 0x12, []) ∧
    decode [0x92] = .ok (.jam92, []) ∧ decode [0x93, 0x12] = .ok (.shaIzy 0x12, []) ∧
    decode [0x94, 0x12] = .ok (.styZpx 0x12, []) ∧ decode [0x95, 0x12] = .ok (.staZpx 0x12, []) ∧
    decode [0x96, 0x12] = .ok (.stxZpy 0x12, []) ∧ decode [0x97, 0x12] = .ok (.saxZpy 0x12, []) ∧
    decode [0x98] = .ok (.tya, []) ∧ decode [0x99, 0x12, 0x34] = .ok (.staAby 0x3412, []) ∧
    decode [0x9A] = .ok (.txs, []) ∧ decode [0x9B, 0x12, 0x34] = .ok (.shsAby 0x3412, []) ∧
    decode [0x9C, 0x12, 0x34] = .ok (.shyAbx 0x3412, []) ∧ decode [0x9D, 0x12, 0x34] = .ok (.staAbx 0x3412, []) ∧
    decode [0x9E, 0x12, 0x34] = .ok (.shxAby 0x3412, []) ∧
    decode [0x9F, 0x12, 0x34] = .ok (.shaAby 0x3412, []) := by
  refine ⟨?_, ?_, ?_, ?_, ?_, ?_, ?_, ?_, ?_, ?_, ?_, ?_, ?_, ?_, ?_, ?_⟩ <;> rfl

/-- Opcodes $A0 to $AF. -/
theorem test_decode_a :
    decode [0xA0, 0x12] = .ok (.ldyImm 0x12, []) ∧ decode [0xA1, 0x12] = .ok (.ldaIzx 0x12, []) ∧
    decode [0xA2, 0x12] = .ok (.ldxImm 0x12, []) ∧ decode [0xA3, 0x12] = .ok (.laxIzx 0x12, []) ∧
    decode [0xA4, 0x12] = .ok (.ldyZp 0x12, []) ∧ decode [0xA5, 0x12] = .ok (.ldaZp 0x12, []) ∧
    decode [0xA6, 0x12] = .ok (.ldxZp 0x12, []) ∧ decode [0xA7, 0x12] = .ok (.laxZp 0x12, []) ∧
    decode [0xA8] = .ok (.tay, []) ∧ decode [0xA9, 0x12] = .ok (.ldaImm 0x12, []) ∧
    decode [0xAA] = .ok (.tax, []) ∧ decode [0xAB, 0x12] = .ok (.lxaImm 0x12, []) ∧
    decode [0xAC, 0x12, 0x34] = .ok (.ldyAbs 0x3412, []) ∧ decode [0xAD, 0x12, 0x34] = .ok (.ldaAbs 0x3412, []) ∧
    decode [0xAE, 0x12, 0x34] = .ok (.ldxAbs 0x3412, []) ∧
    decode [0xAF, 0x12, 0x34] = .ok (.laxAbs 0x3412, []) := by
  refine ⟨?_, ?_, ?_, ?_, ?_, ?_, ?_, ?_, ?_, ?_, ?_, ?_, ?_, ?_, ?_, ?_⟩ <;> rfl

/-- Opcodes $B0 to $BF. -/
theorem test_decode_b :
    decode [0xB0, 0x12] = .ok (.bcsRel 0x12, []) ∧ decode [0xB1, 0x12] = .ok (.ldaIzy 0x12, []) ∧
    decode [0xB2] = .ok (.jamB2, []) ∧ decode [0xB3, 0x12] = .ok (.laxIzy 0x12, []) ∧
    decode [0xB4, 0x12] = .ok (.ldyZpx 0x12, []) ∧ decode [0xB5, 0x12] = .ok (.ldaZpx 0x12, []) ∧
    decode [0xB6, 0x12] = .ok (.ldxZpy 0x12, []) ∧ decode [0xB7, 0x12] = .ok (.laxZpy 0x12, []) ∧
    decode [0xB8] = .ok (.clv, []) ∧ decode [0xB9, 0x12, 0x34] = .ok (.ldaAby 0x3412, []) ∧
    decode [0xBA] = .ok (.tsx, []) ∧ decode [0xBB, 0x12, 0x34] = .ok (.lasAby 0x3412, []) ∧
    decode [0xBC, 0x12, 0x34] = .ok (.ldyAbx 0x3412, []) ∧ decode [0xBD, 0x12, 0x34] = .ok (.ldaAbx 0x3412, []) ∧
    decode [0xBE, 0x12, 0x34] = .ok (.ldxAby 0x3412, []) ∧
    decode [0xBF, 0x12, 0x34] = .ok (.laxAby 0x3412, []) := by
  refine ⟨?_, ?_, ?_, ?_, ?_, ?_, ?_, ?_, ?_, ?_, ?_, ?_, ?_, ?_, ?_, ?_⟩ <;> rfl

/-- Opcodes $C0 to $CF. -/
theorem test_decode_c :
    decode [0xC0, 0x12] = .ok (.cpyImm 0x12, []) ∧ decode [0xC1, 0x12] = .ok (.cmpIzx 0x12, []) ∧
    decode [0xC2, 0x12] = .ok (.nopImmC2 0x12, []) ∧ decode [0xC3, 0x12] = .ok (.dcpIzx 0x12, []) ∧
    decode [0xC4, 0x12] = .ok (.cpyZp 0x12, []) ∧ decode [0xC5, 0x12] = .ok (.cmpZp 0x12, []) ∧
    decode [0xC6, 0x12] = .ok (.decZp 0x12, []) ∧ decode [0xC7, 0x12] = .ok (.dcpZp 0x12, []) ∧
    decode [0xC8] = .ok (.iny, []) ∧ decode [0xC9, 0x12] = .ok (.cmpImm 0x12, []) ∧
    decode [0xCA] = .ok (.dex, []) ∧ decode [0xCB, 0x12] = .ok (.sbxImm 0x12, []) ∧
    decode [0xCC, 0x12, 0x34] = .ok (.cpyAbs 0x3412, []) ∧ decode [0xCD, 0x12, 0x34] = .ok (.cmpAbs 0x3412, []) ∧
    decode [0xCE, 0x12, 0x34] = .ok (.decAbs 0x3412, []) ∧
    decode [0xCF, 0x12, 0x34] = .ok (.dcpAbs 0x3412, []) := by
  refine ⟨?_, ?_, ?_, ?_, ?_, ?_, ?_, ?_, ?_, ?_, ?_, ?_, ?_, ?_, ?_, ?_⟩ <;> rfl

/-- Opcodes $D0 to $DF. -/
theorem test_decode_d :
    decode [0xD0, 0x12] = .ok (.bneRel 0x12, []) ∧ decode [0xD1, 0x12] = .ok (.cmpIzy 0x12, []) ∧
    decode [0xD2] = .ok (.jamD2, []) ∧ decode [0xD3, 0x12] = .ok (.dcpIzy 0x12, []) ∧
    decode [0xD4, 0x12] = .ok (.nopZpxD4 0x12, []) ∧ decode [0xD5, 0x12] = .ok (.cmpZpx 0x12, []) ∧
    decode [0xD6, 0x12] = .ok (.decZpx 0x12, []) ∧ decode [0xD7, 0x12] = .ok (.dcpZpx 0x12, []) ∧
    decode [0xD8] = .ok (.cld, []) ∧ decode [0xD9, 0x12, 0x34] = .ok (.cmpAby 0x3412, []) ∧
    decode [0xDA] = .ok (.nopDA, []) ∧ decode [0xDB, 0x12, 0x34] = .ok (.dcpAby 0x3412, []) ∧
    decode [0xDC, 0x12, 0x34] = .ok (.nopAbxDC 0x3412, []) ∧
    decode [0xDD, 0x12, 0x34] = .ok (.cmpAbx 0x3412, []) ∧ decode [0xDE, 0x12, 0x34] = .ok (.decAbx 0x3412, []) ∧
    decode [0xDF, 0x12, 0x34] = .ok (.dcpAbx 0x3412, []) := by
  refine ⟨?_, ?_, ?_, ?_, ?_, ?_, ?_, ?_, ?_, ?_, ?_, ?_, ?_, ?_, ?_, ?_⟩ <;> rfl

/-- Opcodes $E0 to $EF. -/
theorem test_decode_e :
    decode [0xE0, 0x12] = .ok (.cpxImm 0x12, []) ∧ decode [0xE1, 0x12] = .ok (.sbcIzx 0x12, []) ∧
    decode [0xE2, 0x12] = .ok (.nopImmE2 0x12, []) ∧ decode [0xE3, 0x12] = .ok (.isbIzx 0x12, []) ∧
    decode [0xE4, 0x12] = .ok (.cpxZp 0x12, []) ∧ decode [0xE5, 0x12] = .ok (.sbcZp 0x12, []) ∧
    decode [0xE6, 0x12] = .ok (.incZp 0x12, []) ∧ decode [0xE7, 0x12] = .ok (.isbZp 0x12, []) ∧
    decode [0xE8] = .ok (.inx, []) ∧ decode [0xE9, 0x12] = .ok (.sbcImm 0x12, []) ∧
    decode [0xEA] = .ok (.nop, []) ∧ decode [0xEB, 0x12] = .ok (.sbcImmEB 0x12, []) ∧
    decode [0xEC, 0x12, 0x34] = .ok (.cpxAbs 0x3412, []) ∧ decode [0xED, 0x12, 0x34] = .ok (.sbcAbs 0x3412, []) ∧
    decode [0xEE, 0x12, 0x34] = .ok (.incAbs 0x3412, []) ∧
    decode [0xEF, 0x12, 0x34] = .ok (.isbAbs 0x3412, []) := by
  refine ⟨?_, ?_, ?_, ?_, ?_, ?_, ?_, ?_, ?_, ?_, ?_, ?_, ?_, ?_, ?_, ?_⟩ <;> rfl

/-- Opcodes $F0 to $FF. -/
theorem test_decode_f :
    decode [0xF0, 0x12] = .ok (.beqRel 0x12, []) ∧ decode [0xF1, 0x12] = .ok (.sbcIzy 0x12, []) ∧
    decode [0xF2] = .ok (.jamF2, []) ∧ decode [0xF3, 0x12] = .ok (.isbIzy 0x12, []) ∧
    decode [0xF4, 0x12] = .ok (.nopZpxF4 0x12, []) ∧ decode [0xF5, 0x12] = .ok (.sbcZpx 0x12, []) ∧
    decode [0xF6, 0x12] = .ok (.incZpx 0x12, []) ∧ decode [0xF7, 0x12] = .ok (.isbZpx 0x12, []) ∧
    decode [0xF8] = .ok (.sed, []) ∧ decode [0xF9, 0x12, 0x34] = .ok (.sbcAby 0x3412, []) ∧
    decode [0xFA] = .ok (.nopFA, []) ∧ decode [0xFB, 0x12, 0x34] = .ok (.isbAby 0x3412, []) ∧
    decode [0xFC, 0x12, 0x34] = .ok (.nopAbxFC 0x3412, []) ∧
    decode [0xFD, 0x12, 0x34] = .ok (.sbcAbx 0x3412, []) ∧ decode [0xFE, 0x12, 0x34] = .ok (.incAbx 0x3412, []) ∧
    decode [0xFF, 0x12, 0x34] = .ok (.isbAbx 0x3412, []) := by
  refine ⟨?_, ?_, ?_, ?_, ?_, ?_, ?_, ?_, ?_, ?_, ?_, ?_, ?_, ?_, ?_, ?_⟩ <;> rfl

/-! ## Steps -/

/-- The test vectors' start: a plain 6502 with 64 KiB of RAM, PC = $1000, S = $FF, all flags 0. -/
def idle : State :=
  { State.reset with
    sp := 0xFF, pc := 0x1000, p := ⟨false, false, false, false, false, false⟩
    board := { Board.standard with variant := .mos6502 } }

/-- A state with some bytes of memory set. -/
def holding (cells : List (Nat × Byte)) (s : State) : State :=
  s.setMem (cells.foldl (fun m c => m.write c.1 c.2) s.mem)

/-- The state after one step. -/
def after (s : State) : State :=
  match step s with
  | .next t => t
  | _ => s

/-- T41.3: LDA zp,X wraps inside page 0. -/
theorem test_t41_3 :
    let t := after ((holding [(0x1000, 0xB5), (0x1001, 0xFF), (0x0000, 0xAA), (0x00FF, 0x55), (0x0100, 0x77)]
      idle).setX 0x01)
    t.a = 0xAA ∧ t.p = ⟨true, false, false, false, false, false⟩ := by decide

/-- T41.5: LDA abs,X page crossed: wrong-page read first. -/
theorem test_t41_5 :
    let t := after ((holding [(0x1000, 0xBD), (0x1001, 0xFD), (0x1002, 0x20), (0x200D, 0x11), (0x210D, 0x22)]
      idle).setX 0x10)
    t.a = 0x22 ∧ t.bus = [.read 0x1000 0xBD, .read 0x1001 0xFD, .read 0x1002 0x20, .read 0x200D 0x11, .read 0x210D
      0x22] := by decide

/-- T41.8: LDA (zp),Y: pointer at $FF/$00, page crossed. -/
theorem test_t41_8 :
    let t := after ((holding [(0x1000, 0xB1), (0x1001, 0xFF), (0x00FF, 0xF0), (0x0000, 0x12), (0x0100, 0x99),
      (0x1210, 0x01), (0x1310, 0x02)] idle).setY 0x20)
    t.a = 0x02 ∧ t.bus = [.read 0x1000 0xB1, .read 0x1001 0xFF, .read 0x00FF 0xF0, .read 0x0000 0x12, .read 0x1210
      0x01, .read 0x1310 0x02] := by decide

/-- T41.7: LDA (zp,X): pointer at $FF/$00. -/
theorem test_t41_7 :
    let t := after ((holding [(0x1000, 0xA1), (0x1001, 0xFE), (0x00FF, 0x34), (0x0000, 0x12), (0x0100, 0x99),
      (0x1234, 0x5A), (0x9934, 0xEE)] idle).setX 0x01)
    t.a = 0x5A := by decide

/-- T41.9: LDX zp,Y. -/
theorem test_t41_9 :
    let t := after ((holding [(0x1000, 0xB6), (0x1001, 0x80), (0x0010, 0x7F), (0x0080, 0x01)] idle).setY 0x90)
    t.x = 0x7F := by decide

/-- T41.10: LDY abs,X. -/
theorem test_t41_10 :
    let t := after (((holding [(0x1000, 0xBC), (0x1001, 0x00), (0x1002, 0x30), (0x30FF, 0x00)] idle).setX
      0xFF).setY 0x11)
    t.y = 0x00 ∧ t.p = ⟨false, false, false, false, true, false⟩ := by decide

/-- T41.11: STA abs,X no crossing: dummy read at the target. -/
theorem test_t41_11 :
    let t := after (((holding [(0x1000, 0x9D), (0x1001, 0x00), (0x1002, 0x30), (0x3005, 0x01)] idle).setA
      0x77).setX 0x05)
    t.mem.read 0x3005 = 0x77 := by decide

/-- T41.13: STA (zp),Y crossing. -/
theorem test_t41_13 :
    let t := after (((holding [(0x1000, 0x91), (0x1001, 0x2B), (0x002B, 0x01), (0x002C, 0x08)] idle).setA
      0xC3).setY 0xFF)
    t.mem.read 0x0900 = 0xC3 ∧ t.bus = [.read 0x1000 0x91, .read 0x1001 0x2B, .read 0x002B 0x01, .read 0x002C 0x08,
      .read 0x0800 0x00, .write 0x0900 0xC3] := by decide

/-- T41.15: STX zp,Y wraps. -/
theorem test_t41_15 :
    let t := after (((holding [(0x1000, 0x96), (0x1001, 0xF0)] idle).setX 0x5E).setY 0x20)
    t.mem.read 0x0010 = 0x5E := by decide

/-- T41.16: STY abs. -/
theorem test_t41_16 :
    let t := after (holding [(0x1000, 0x8C), (0x1001, 0x0E), (0x1002, 0xC1), (0xC10E, 0x82)] idle)
    t.mem.read 0xC10E = 0x00 := by decide

/-- T41.17: TAX sets N, Z from the value. -/
theorem test_t41_17 :
    let t := after (((holding [(0x1000, 0xAA)] idle).setA 0x80).setX 0x01)
    t.x = 0x80 ∧ t.p = ⟨true, false, false, false, false, false⟩ := by decide

/-- T41.18: TXS changes no flag. -/
theorem test_t41_18 :
    let t := after (((holding [(0x1000, 0x9A)] idle).setSp 0x7F).setP ⟨true, false, false, false, false, false⟩)
    t.sp = 0x00 := by decide

/-- T41.19: TSX sets N, Z. -/
theorem test_t41_19 :
    let t := after (((holding [(0x1000, 0xBA)] idle).setX 0x55).setSp 0x00)
    t.x = 0x00 ∧ t.p = ⟨false, false, false, false, true, false⟩ := by decide

/-- T41.20: TYA. -/
theorem test_t41_20 :
    let t := after (((holding [(0x1000, 0x98)] idle).setA 0xFF).setP ⟨true, false, false, false, false, false⟩)
    t.a = 0x00 ∧ t.p = ⟨false, false, false, false, true, false⟩ := by decide

/-- T42.1: AND #. -/
theorem test_t42_1 :
    let t := after ((holding [(0x1000, 0x29), (0x1001, 0xB7)] idle).setA 0xF4)
    t.a = 0xB4 ∧ t.p = ⟨true, false, false, false, false, false⟩ := by decide

/-- T42.2: ORA zp. -/
theorem test_t42_2 :
    let t := after ((holding [(0x1000, 0x05), (0x1001, 0xFD), (0x00FD, 0x05)] idle).setA 0x30)
    t.a = 0x35 := by decide

/-- T42.3: EOR zp equal values gives Z. -/
theorem test_t42_3 :
    let t := after ((holding [(0x1000, 0x45), (0x1001, 0xFC), (0x00FC, 0x5A)] idle).setA 0x5A)
    t.a = 0x00 ∧ t.p = ⟨false, false, false, false, true, false⟩ := by decide

/-- T42.4: BIT zp: N, V from memory, Z from AND. -/
theorem test_t42_4 :
    let t := after ((holding [(0x1000, 0x24), (0x1001, 0x10), (0x0010, 0xC0)] idle).setA 0x01)
    t.p = ⟨true, true, false, false, true, false⟩ := by decide

/-- T42.6: ADC binary signed overflow. -/
theorem test_t42_6 :
    let t := after ((holding [(0x1000, 0x69), (0x1001, 0x01)] idle).setA 0x7F)
    t.a = 0x80 ∧ t.p = ⟨true, true, false, false, false, false⟩ := by decide

/-- T42.11: ADC decimal 99+01: A=0 but Z=0. -/
theorem test_t42_11 :
    let t := after (((holding [(0x1000, 0x69), (0x1001, 0x01)] idle).setA 0x99).setP ⟨false, false, true, false,
      false, false⟩)
    t.a = 0x00 ∧ t.p = ⟨true, false, true, false, false, true⟩ := by decide

/-- T42.15: ADC decimal 79+00+1: N, V from the intermediate. -/
theorem test_t42_15 :
    let t := after (((holding [(0x1000, 0x69), (0x1001, 0x00)] idle).setA 0x79).setP ⟨false, false, true, false,
      false, true⟩)
    t.a = 0x80 ∧ t.p = ⟨true, true, true, false, false, false⟩ := by decide

/-- T42.17: SBC binary overflow $80-$01. -/
theorem test_t42_17 :
    let t := after (((holding [(0x1000, 0xE9), (0x1001, 0x01)] idle).setA 0x80).setP ⟨false, false, false, false,
      false, true⟩)
    t.a = 0x7F ∧ t.p = ⟨false, true, false, false, false, true⟩ := by decide

/-- T42.20: SBC decimal 12-21: borrow, A=$91. -/
theorem test_t42_20 :
    let t := after (((holding [(0x1000, 0xE9), (0x1001, 0x21)] idle).setA 0x12).setP ⟨false, false, true, false,
      false, true⟩)
    t.a = 0x91 ∧ t.p = ⟨true, false, true, false, false, false⟩ := by decide

/-- T42.24: CMP less: C=0 N=1; V untouched. -/
theorem test_t42_24 :
    let t := after ((holding [(0x1000, 0xC9), (0x1001, 0x01)] idle).setP ⟨false, true, false, false, false, false⟩)
    t.p = ⟨true, true, false, false, false, false⟩ := by decide

/-- T42.27: CPX abs. -/
theorem test_t42_27 :
    let t := after ((holding [(0x1000, 0xEC), (0x1001, 0x00), (0x1002, 0x20), (0x2000, 0x11)] idle).setX 0x10)
    t.p = ⟨true, false, false, false, false, false⟩ := by decide

/-- T42.28: CPY #. -/
theorem test_t42_28 :
    let t := after ((holding [(0x1000, 0xC0), (0x1001, 0x10)] idle).setY 0x10)
    t.p = ⟨false, false, false, false, true, true⟩ := by decide

/-- T43.1: ASL A. -/
theorem test_t43_1 :
    let t := after ((holding [(0x1000, 0x0A)] idle).setA 0x81)
    t.a = 0x02 ∧ t.p = ⟨false, false, false, false, false, true⟩ := by decide

/-- T43.2: LSR abs: two writes. -/
theorem test_t43_2 :
    let t := after (holding [(0x1000, 0x4E), (0x1001, 0x19), (0x1002, 0xD0), (0xD019, 0x81)] idle)
    t.p = ⟨false, false, false, false, false, true⟩ ∧ t.mem.read 0xD019 = 0x40 := by decide

/-- T43.3: ROL zp with C=1. -/
theorem test_t43_3 :
    let t := after ((holding [(0x1000, 0x26), (0x1001, 0xFC), (0x00FC, 0x40)] idle).setP ⟨false, false, false,
      false, false, true⟩)
    t.p = ⟨true, false, false, false, false, false⟩ ∧ t.mem.read 0x00FC = 0x81 := by decide

/-- T43.4: ROR A with C=1. -/
theorem test_t43_4 :
    let t := after (((holding [(0x1000, 0x6A)] idle).setA 0x01).setP ⟨false, false, false, false, false, true⟩)
    t.a = 0x80 ∧ t.p = ⟨true, false, false, false, false, true⟩ := by decide

/-- T43.5: ROR abs,X page crossed: 7 cycles. -/
theorem test_t43_5 :
    let t := after ((holding [(0x1000, 0x7E), (0x1001, 0xFF), (0x1002, 0x20), (0x2100, 0x02), (0x2000, 0x55)]
      idle).setX 0x01)
    t.mem.read 0x2100 = 0x01 ∧ t.bus = [.read 0x1000 0x7E, .read 0x1001 0xFF, .read 0x1002 0x20, .read 0x2000 0x55,
      .read 0x2100 0x02, .write 0x2100 0x02, .write 0x2100 0x01] := by decide

/-- T43.6: INC zp $FF wraps to 0; C untouched. -/
theorem test_t43_6 :
    let t := after ((holding [(0x1000, 0xE6), (0x1001, 0xFB), (0x00FB, 0xFF)] idle).setP ⟨false, false, false,
      false, false, true⟩)
    t.p = ⟨false, false, false, false, true, true⟩ ∧ t.mem.read 0x00FB = 0x00 := by decide

/-- T43.7: DEC zp,X $00 wraps to $FF. -/
theorem test_t43_7 :
    let t := after ((holding [(0x1000, 0xD6), (0x1001, 0x10), (0x0014, 0x00)] idle).setX 0x04)
    t.p = ⟨true, false, false, false, false, false⟩ ∧ t.mem.read 0x0014 = 0xFF := by decide

/-- T43.9: INX wraps. -/
theorem test_t43_9 :
    let t := after ((holding [(0x1000, 0xE8)] idle).setX 0xFF)
    t.x = 0x00 ∧ t.p = ⟨false, false, false, false, true, false⟩ := by decide

/-- T43.10: DEY wraps. -/
theorem test_t43_10 :
    let t := after (holding [(0x1000, 0x88)] idle)
    t.y = 0xFF ∧ t.p = ⟨true, false, false, false, false, false⟩ := by decide

/-- T43.11: DEX to zero. -/
theorem test_t43_11 :
    let t := after ((holding [(0x1000, 0xCA)] idle).setX 0x01)
    t.x = 0x00 ∧ t.p = ⟨false, false, false, false, true, false⟩ := by decide

/-- T43.12: INY. -/
theorem test_t43_12 :
    let t := after ((holding [(0x1000, 0xC8)] idle).setY 0x7F)
    t.y = 0x80 ∧ t.p = ⟨true, false, false, false, false, false⟩ := by decide

/-- T44.1: JMP abs. -/
theorem test_t44_1 :
    let t := after (holding [(0x1000, 0x4C), (0x1001, 0x0A), (0x1002, 0xDD)] idle)
    t.pc = 0xDD0A := by decide

/-- T44.2: JMP (ind) pointer at $xxFF. -/
theorem test_t44_2 :
    let t := after (holding [(0x1000, 0x6C), (0x1001, 0xFF), (0x1002, 0x01), (0x01FF, 0x34), (0x0100, 0x12),
      (0x0200, 0x56)] idle)
    t.pc = 0x1234 ∧ t.bus = [.read 0x1000 0x6C, .read 0x1001 0xFF, .read 0x1002 0x01, .read 0x01FF 0x34, .read
      0x0100 0x12] := by decide

/-- T44.4: JSR. -/
theorem test_t44_4 :
    let t := after ((holding [(0xC000, 0x20), (0xC001, 0x34), (0xC002, 0x12)] idle).setPc 0xC000)
    t.sp = 0xFD ∧ t.pc = 0x1234 ∧ t.mem.read 0x01FE = 0x02 ∧ t.mem.read 0x01FF = 0xC0 ∧ t.bus = [.read 0xC000 0x20,
      .read 0xC001 0x34, .read 0x01FF 0x00, .write 0x01FF 0xC0, .write 0x01FE 0x02, .read 0xC002 0x12] := by decide

/-- T44.5: JSR with S=$00: pushes wrap inside page 1. -/
theorem test_t44_5 :
    let t := after (((holding [(0xC000, 0x20), (0xC001, 0x34), (0xC002, 0x12)] idle).setPc 0xC000).setSp 0x00)
    t.sp = 0xFE ∧ t.pc = 0x1234 ∧ t.mem.read 0x0100 = 0xC0 ∧ t.mem.read 0x01FF = 0x02 := by decide

/-- T44.8: BEQ taken forwards across a page: 4 cycles. -/
theorem test_t44_8 :
    let t := after (((holding [(0x10FD, 0xF0), (0x10FE, 0x01)] idle).setPc 0x10FD).setP ⟨false, false, false,
      false, true, false⟩)
    t.bus = [.read 0x10FD 0xF0, .read 0x10FE 0x01, .read 0x10FF 0x00, .read 0x1000 0x00] := by decide

/-- T44.9: BVS taken backwards across a page. -/
theorem test_t44_9 :
    let t := after ((holding [(0x1000, 0x70), (0x1001, 0x80)] idle).setP ⟨false, true, false, false, false, false⟩)
    t.pc = 0x0F82 ∧ t.bus = [.read 0x1000 0x70, .read 0x1001 0x80, .read 0x1002 0x00, .read 0x1082 0x00] := by
      decide

/-- T44.10: BCS to itself. -/
theorem test_t44_10 :
    let t := after (((holding [(0x0900, 0xB0), (0x0901, 0xFE)] idle).setPc 0x0900).setP ⟨false, false, false,
      false, false, true⟩)
    t.pc = 0x0900 := by decide

/-- T44.11: BCC taken. -/
theorem test_t44_11 :
    let t := after ((holding [(0x0900, 0x90), (0x0901, 0x03)] idle).setPc 0x0900)
    t.pc = 0x0905 := by decide

/-- T44.12: BMI taken. -/
theorem test_t44_12 :
    let t := after ((holding [(0x1000, 0x30), (0x1001, 0x02)] idle).setP ⟨true, false, false, false, false, false⟩)
    t.pc = 0x1004 := by decide

/-- T44.13: BVC taken, offset +127. -/
theorem test_t44_13 :
    let t := after (holding [(0x1000, 0x50), (0x1001, 0x7F)] idle)
    t.pc = 0x1081 := by decide

/-- T44.14: BPL at $FFFD: target wraps past $FFFF. -/
theorem test_t44_14 :
    let t := after ((holding [(0xFFFD, 0x10), (0xFFFE, 0x05)] idle).setPc 0xFFFD)
    t.pc = 0x0004 := by decide

/-- T45.2: PHA with S=$00 wraps. -/
theorem test_t45_2 :
    let t := after (((holding [(0x1000, 0x48)] idle).setA 0x3C).setSp 0x00)
    t.sp = 0xFF ∧ t.mem.read 0x0100 = 0x3C := by decide

/-- T45.3: PHP: bits 5 and 4 pushed as 1. -/
theorem test_t45_3 :
    let t := after (((holding [(0x1000, 0x08)] idle).setSp 0xFD).setP ⟨false, true, false, true, true, false⟩)
    t.sp = 0xFC ∧ t.mem.read 0x01FD = 0x76 := by decide

/-- T45.6: PLA with S=$FF wraps to $0100. -/
theorem test_t45_6 :
    let t := after ((holding [(0x1000, 0x68), (0x0100, 0x00)] idle).setA 0x01)
    t.a = 0x00 ∧ t.sp = 0x00 ∧ t.p = ⟨false, false, false, false, true, false⟩ := by decide

/-- T45.7: PLP of $FF: six flags set, bits 5,4 ignored. -/
theorem test_t45_7 :
    let t := after ((holding [(0x1000, 0x28), (0x01FF, 0xFF)] idle).setSp 0xFE)
    t.sp = 0xFF ∧ t.p = ⟨true, true, true, true, true, true⟩ := by decide

/-- T45.10: RTS to pulled $FFFF gives PC=$0000. -/
theorem test_t45_10 :
    let t := after ((holding [(0x1000, 0x60), (0x01FE, 0xFF), (0x01FF, 0xFF)] idle).setSp 0xFD)
    t.sp = 0xFF ∧ t.pc = 0x0000 := by decide

/-- T45.11: RTI. -/
theorem test_t45_11 :
    let t := after (((holding [(0xDD0C, 0x40), (0x01FD, 0xA1), (0x01FE, 0x34), (0x01FF, 0x12)] idle).setPc
      0xDD0C).setSp 0xFC)
    t.sp = 0xFF ∧ t.p = ⟨true, false, false, false, false, true⟩ ∧ t.pc = 0x1234 := by decide

/-- T45.12: BRK. -/
theorem test_t45_12 :
    let t := after (((holding [(0x0850, 0x00), (0x0851, 0xEA), (0xFFFE, 0x48), (0xFFFF, 0xFF)] idle).setPc
      0x0850).setP ⟨false, false, false, false, true, true⟩)
    t.sp = 0xFC ∧ t.p = ⟨false, false, false, true, true, true⟩ ∧ t.pc = 0xFF48 ∧ t.mem.read 0x01FD = 0x33 ∧
      t.mem.read 0x01FE = 0x52 ∧ t.mem.read 0x01FF = 0x08 ∧ t.bus = [.read 0x0850 0x00, .read 0x0851 0xEA, .write
      0x01FF 0x08, .write 0x01FE 0x52, .write 0x01FD 0x33, .read 0xFFFE 0x48, .read 0xFFFF 0xFF] := by decide

/-- T45.14: CLC. -/
theorem test_t45_14 :
    let t := after ((holding [(0x1000, 0x18)] idle).setP ⟨false, false, false, false, false, true⟩)
    t.p = ⟨false, false, false, false, false, false⟩ := by decide

/-- T45.15: SEC. -/
theorem test_t45_15 :
    let t := after (holding [(0x1000, 0x38)] idle)
    t.p = ⟨false, false, false, false, false, true⟩ := by decide

/-- T45.16: CLI. -/
theorem test_t45_16 :
    let t := after ((holding [(0x1000, 0x58)] idle).setP ⟨false, false, false, true, false, false⟩)
    t.p = ⟨false, false, false, false, false, false⟩ := by decide

/-- T45.17: SEI. -/
theorem test_t45_17 :
    let t := after (holding [(0x1000, 0x78)] idle)
    t.p = ⟨false, false, false, true, false, false⟩ := by decide

/-- T45.18: CLV. -/
theorem test_t45_18 :
    let t := after ((holding [(0x1000, 0xB8)] idle).setP ⟨false, true, false, false, false, false⟩)
    t.p = ⟨false, false, false, false, false, false⟩ := by decide

/-- T45.19: CLD. -/
theorem test_t45_19 :
    let t := after ((holding [(0x1000, 0xD8)] idle).setP ⟨false, false, true, false, false, false⟩)
    t.p = ⟨false, false, false, false, false, false⟩ := by decide

/-- T45.20: SED. -/
theorem test_t45_20 :
    let t := after (holding [(0x1000, 0xF8)] idle)
    t.p = ⟨false, false, true, false, false, false⟩ := by decide

/-- T46.1: SLO zp. -/
theorem test_t46_1 :
    let t := after ((holding [(0x1000, 0x07), (0x1001, 0x10), (0x0010, 0x81)] idle).setA 0x02)
    t.p = ⟨false, false, false, false, false, true⟩ ∧ t.mem.read 0x0010 = 0x02 := by decide

/-- T46.2: RLA zp. -/
theorem test_t46_2 :
    let t := after (((holding [(0x1000, 0x27), (0x1001, 0x10), (0x0010, 0xC0)] idle).setA 0x0F).setP ⟨false, false,
      false, false, false, true⟩)
    t.a = 0x01 ∧ t.mem.read 0x0010 = 0x81 := by decide

/-- T46.3: SRE zp. -/
theorem test_t46_3 :
    let t := after ((holding [(0x1000, 0x47), (0x1001, 0x10), (0x0010, 0x03)] idle).setA 0x01)
    t.a = 0x00 ∧ t.p = ⟨false, false, false, false, true, true⟩ ∧ t.mem.read 0x0010 = 0x01 := by decide

/-- T46.4: RRA zp binary. -/
theorem test_t46_4 :
    let t := after ((holding [(0x1000, 0x67), (0x1001, 0x10), (0x0010, 0x03)] idle).setA 0x10)
    t.a = 0x12 ∧ t.mem.read 0x0010 = 0x01 := by decide

/-- T46.7: DCP zp. -/
theorem test_t46_7 :
    let t := after ((holding [(0x1000, 0xC7), (0x1001, 0x10), (0x0010, 0x10)] idle).setA 0x0F)
    t.p = ⟨false, false, false, false, true, true⟩ ∧ t.mem.read 0x0010 = 0x0F := by decide

/-- T46.10: ISB zp decimal. -/
theorem test_t46_10 :
    let t := after (((holding [(0x1000, 0xE7), (0x1001, 0x10), (0x0010, 0x08)] idle).setA 0x20).setP ⟨false, false,
      true, false, false, true⟩)
    t.a = 0x11 ∧ t.mem.read 0x0010 = 0x09 := by decide

/-- T46.11: ISB (zp),Y: 8 cycles, dummy read below. -/
theorem test_t46_11 :
    let t := after (((holding [(0x1000, 0xF3), (0x1001, 0x40), (0x0040, 0xFF), (0x0041, 0x20), (0x2100, 0xFF),
      (0x2000, 0x77)] idle).setY 0x01).setP ⟨false, false, false, false, false, true⟩)
    t.p = ⟨false, false, false, false, true, true⟩ ∧ t.mem.read 0x2100 = 0x00 ∧ t.bus = [.read 0x1000 0xF3, .read
      0x1001 0x40, .read 0x0040 0xFF, .read 0x0041 0x20, .read 0x2000 0x77, .read 0x2100 0xFF, .write 0x2100 0xFF,
      .write 0x2100 0x00] := by decide

/-- T46.15: SAX zp,Y. -/
theorem test_t46_15 :
    let t := after ((((holding [(0x1000, 0x97), (0x1001, 0xFF)] idle).setA 0xFF).setX 0x0F).setY 0x02)
    t.mem.read 0x0001 = 0x0F := by decide

/-- T46.17: LAX abs,Y crossing. -/
theorem test_t46_17 :
    let t := after ((((holding [(0x1000, 0xBF), (0x1001, 0xFF), (0x1002, 0x20), (0x2100, 0x00), (0x2000, 0x99)]
      idle).setA 0x55).setX 0x66).setY 0x01)
    t.a = 0x00 ∧ t.x = 0x00 ∧ t.p = ⟨false, false, false, false, true, false⟩ := by decide

/-- T46.19: SBC $EB in decimal mode. -/
theorem test_t46_19 :
    let t := after (((holding [(0x1000, 0xEB), (0x1001, 0x01)] idle).setA 0x10).setP ⟨false, false, true, false,
      false, true⟩)
    t.a = 0x09 := by decide

/-- T46.24: NOP abs,X $1C crossing. -/
theorem test_t46_24 :
    let t := after ((holding [(0x1000, 0x1C), (0x1001, 0xFD), (0x1002, 0xDC), (0xDC0D, 0x81), (0xDD0D, 0x82)]
      idle).setX 0x10)
    t.bus = [.read 0x1000 0x1C, .read 0x1001 0xFD, .read 0x1002 0xDC, .read 0xDC0D 0x81, .read 0xDD0D 0x82] := by
      decide

/-- T47.2: ANC $2B, C cleared. -/
theorem test_t47_2 :
    let t := after (((holding [(0x1000, 0x2B), (0x1001, 0x70)] idle).setA 0x0F).setP ⟨false, false, false, false,
      false, true⟩)
    t.a = 0x00 ∧ t.p = ⟨false, false, false, false, true, false⟩ := by decide

/-- T47.3: ASR. -/
theorem test_t47_3 :
    let t := after (((holding [(0x1000, 0x4B), (0x1001, 0x03)] idle).setA 0xFF).setP ⟨true, false, false, false,
      false, false⟩)
    t.a = 0x01 ∧ t.p = ⟨false, false, false, false, false, true⟩ := by decide

/-- T47.7: ARR, adder, sets V. -/
theorem test_t47_7 :
    let t := after ((holding [(0x1000, 0x6B), (0x1001, 0xFF)] idle).setA 0x80)
    t.a = 0x40 ∧ t.p = ⟨false, true, false, false, false, true⟩ := by decide

/-- T47.11: SBX borrow; D, V, incoming C without influence. -/
theorem test_t47_11 :
    let t := after ((((holding [(0x1000, 0xCB), (0x1001, 0x20)] idle).setA 0xFF).setX 0x10).setP ⟨false, true,
      true, false, false, true⟩)
    t.x = 0xF0 ∧ t.p = ⟨true, true, true, false, false, false⟩ := by decide

/-- T47.20: SHA abs,Y no crossing. -/
theorem test_t47_20 :
    let t := after ((((holding [(0x1000, 0x9F), (0x1001, 0x00), (0x1002, 0x40)] idle).setA 0xFF).setX 0xFF).setY
      0x01)
    t.mem.read 0x4001 = 0x41 := by decide

/-- T47.21: SHA abs,Y crossing: value becomes the address high byte. -/
theorem test_t47_21 :
    let t := after ((((holding [(0x1000, 0x9F), (0x1001, 0xF8), (0x1002, 0x40)] idle).setA 0xFF).setX 0x0F).setY
      0x10)
    t.mem.read 0x0108 = 0x01 ∧ t.bus = [.read 0x1000 0x9F, .read 0x1001 0xF8, .read 0x1002 0x40, .read 0x4008 0x00,
      .write 0x0108 0x01] := by decide

/-- T47.22: SHA (zp),Y. -/
theorem test_t47_22 :
    let t := after ((((holding [(0x1000, 0x93), (0x1001, 0x20), (0x0020, 0xF0), (0x0021, 0x12)] idle).setA
      0x37).setX 0xFF).setY 0x05)
    t.mem.read 0x12F5 = 0x13 := by decide

/-- T47.23: SHX abs,Y. -/
theorem test_t47_23 :
    let t := after ((holding [(0x1000, 0x9E), (0x1001, 0x00), (0x1002, 0x7F)] idle).setX 0xFF)
    t.mem.read 0x7F00 = 0x80 := by decide

/-- T47.25: SHY abs,X crossing. -/
theorem test_t47_25 :
    let t := after (((holding [(0x1000, 0x9C), (0x1001, 0x80), (0x1002, 0x02)] idle).setX 0x80).setY 0xFF)
    t.mem.read 0x0300 = 0x03 := by decide

/-- T47.26: SHS. -/
theorem test_t47_26 :
    let t := after (((holding [(0x1000, 0x9B), (0x1001, 0x00), (0x1002, 0x10)] idle).setA 0xF3).setX 0x3F)
    t.sp = 0x33 ∧ t.mem.read 0x1000 = 0x11 := by decide

/-- T47.28: LAS. -/
theorem test_t47_28 :
    let t := after ((holding [(0x1000, 0xBB), (0x1001, 0x00), (0x1002, 0x20), (0x2000, 0x3C)] idle).setSp 0xF0)
    t.a = 0x30 ∧ t.x = 0x30 ∧ t.sp = 0x30 := by decide

/-- T60.1: IRQ taken, I = 0, D kept; T60.4: an NMI comes first, from its own vector. -/
theorem test_interrupts :
    let s := ((((holding [(0xFFFA, 0x0C), (0xFFFB, 0xDD), (0xFFFE, 0x31), (0xFFFF, 0xEA)] idle).setPc 0xC123).setSp
      0xF0).setP ⟨true, false, true, false, false, true⟩).setIrqLine true
    let t := after s
    let u := after (s.setNmiPending true)
    t.pc = 0xEA31 ∧ t.sp = 0xED ∧ t.p = ⟨true, false, true, true, false, true⟩ ∧ t.mem.read 0x01F0 = 0xC1 ∧
      t.mem.read 0x01EF = 0x23 ∧ t.mem.read 0x01EE = 0xA9 ∧ u.pc = 0xDD0C ∧ u.nmiPending = false := by decide

/-- T46.25, T46.26: a jam, and the step after it. -/
theorem test_jam :
    let t := after (holding [(0x1000, 0x02)] idle)
    t.jammed = true ∧ t.bus.length = 1 ∧ after t = t.setBus [] := by decide

/-- T70.1: a reset ends the jam and keeps A, N and C. -/
theorem test_reset :
    let t := after ((((holding [(0xFFFC, 0x00), (0xFFFD, 0x80)] idle).setJammed true).setA 0x11).setP
      ⟨true, true, true, false, false, true⟩).releaseReset
    t.jammed = false ∧ t.pc = 0x8000 ∧ t.a = 0x11 ∧ t.p.n = true ∧ t.p.c = true := by decide

/-- A -RESET in the sixth cycle of an INC leaves the byte written back unchanged (60_exceptions.md R530). -/
theorem test_unfinished_increment :
    let s := holding [(0x1000, 0xEE), (0x1001, 0x00), (0x1002, 0x30), (0x3000, 0x41)] idle
    let t := after (s.pullResetDuringStep 5)
    t.mem.read 0x3000 = 0x41 ∧ t.bus.length = 5 ∧ t.inputs.resetPin = .held ∧
      (after (s.pullResetDuringStep 6)).mem.read 0x3000 = 0x42 := by decide

/-- A 6510 with the Commodore 64's usual port contents, DDR $2F and PRL $37 (10_state.md R44). -/
def ported : State := { State.reset with ddr := 0x2F, prl := 0x37 }

/-- The Commodore 64 without a cartridge. -/
def c64 : State := { ported with board := { Board.standard with platform := .c64 } }

/-- The Commodore 64 in the Ultimax configuration. -/
def ultimax : State := c64.setCartridge false true

/-- 10_state.md R43: with DDR $2F and every line pulled up, PR $37 reads $37 on P0 to P5. -/
theorem test_port_read : (ported.read 1).1 &&& 0x3F = 0x37 ∧ (ported.read 0).1 &&& 0x3F = 0x2F := by
  simp only [State.read, State.answer, State.answerAt, State.withFreeBits]
  constructor <;> (generalize (State.draw _).1 = f; revert f; decide)

/-- 20_memory.md R80: the map without a cartridge, and with the ROMs switched off by PRL $34 and $35. -/
theorem test_map :
    c64.target 0x9FFF = .ram ∧ c64.target 0xA000 = .basicRom ∧ c64.target 0xBFFF = .basicRom ∧
      c64.target 0xC000 = .ram ∧ c64.target 0xD000 = .device .vic 0 ∧ c64.target 0xD800 = .colorRam ∧
      c64.target 0xE000 = .kernalRom ∧ (c64.setPrl 0x34).target 0xE000 = .ram ∧
      (c64.setPrl 0x34).target 0xD000 = .ram ∧ (c64.setPrl 0x35).target 0xA000 = .ram ∧
      (c64.setPrl 0x35).target 0xD000 = .device .vic 0 ∧ (c64.setPrl 0x33).target 0xD000 = .charRom := by decide

/-- 20_memory.md R83: $D040 and $D080 are Sprite 0 X again, and each owner's copies reach the same register. -/
theorem test_io_mirrors :
    c64.target 0xD040 = .device .vic 0 ∧ c64.target 0xD080 = .device .vic 0 ∧
      c64.target 0xD7F8 = .device .sid 0x18 ∧ c64.target 0xDCFD = .device .cia1 0x0D ∧
      c64.target 0xDD10 = .device .cia2 0 ∧ c64.target 0xDE80 = .device .expansion1 0x80 ∧
      c64.target 0xDFFF = .device .expansion2 0xFF := by decide

/-- 70_reset_and_hazards.md R554: an NMI that comes at the boundary before a foreign BRK is taken, and the run goes on. -/
theorem test_run_with_nmi :
    let broken : Program := { load := 0x081B, image := [0x00], entry := 0x081B, back := 0xA7EA, vectors := [] }
    broken.runEnd (broken.run (fun n => if n = 0 then [.nmiLine true] else []) (c64.launch broken) 0) = none ∧
      broken.runEnd (broken.run (fun _ => []) (c64.launch broken) 0) = some .brokeAway := by decide

/-- 00_scope.md R8, 10_state.md R43: on an 8502 with every line an input, LDA $01 reads the level of its third bus
cycle, and the level of the fourth stands at the next boundary. -/
theorem test_port_level_by_cycle :
    let s := { (holding [(0x1000, 0xA5), (0x1001, 0x01)] idle) with
      board := { Board.standard with variant := .mos8502 } }
    let t := after (s.schedulePeriphIn [0x11, 0x22, 0x33])
    t.a = 0x22 ∧ t.inputs.periphIn = 0x33 ∧ t.inputs.periphNext = [] := by decide

/-- 70_reset_and_hazards.md R553 (b): with -EXROM grounded $8000 is the ROML area, and open space without a chip. -/
theorem test_no_romL_chip :
    let s := c64.setCartridge true false
    s.target 0x8000 = .romL ∧ s.answer 0x8000 = s.draw := ⟨by decide, rfl⟩

/-- 70_reset_and_hazards.md R554: a launched RTS at $081B meets the premises and ends the run; a BRK there goes through
a vector the program does not own. -/
theorem test_launch :
    let prog : Program := { load := 0x081B, image := [0x60], entry := 0x081B, back := 0xA7EA, vectors := [] }
    let broken := { prog with image := [0x00] }
    prog.launched (c64.launch prog) = true ∧
      prog.runEnd (prog.run (fun _ => []) (c64.launch prog) 1) = some .returned ∧
      broken.runEnd (c64.launch broken) = some .brokeAway := by decide

/-! ## Witnesses: states and operands that meet the hypotheses of each statement, clause by clause -/

theorem witness_EncodeOfDecodeIsIdentity : decode [0x69, 0x7A] = .ok (.adcImm 0x7A, []) := rfl

theorem witness_RamReturnsLastWrite :
    idle.mem.wf = true ∧ idle.target 0 = .ram ∧ idle.target 0xFFFF = .ram := by decide

theorem witness_PortWriteSetsDirectionAndLatch :
    ported.hasPort = true ∧ (portMask ported.board.variant).getLsbD 0 = true ∧
      (portMask ported.board.variant).getLsbD 5 = true := by decide

theorem witness_PortReadGivesDirectionAndLevels :
    c64.hasPort = true ∧ (portMask c64.board.variant).getLsbD 0 = true ∧ c64.floatingLines.getLsbD 0 = false ∧
      c64.floatingLines.getLsbD 5 = false ∧ (c64.setDdr 0).floatingLines.getLsbD 5 = true := by decide

theorem witness_BankingFollowsTable :
    c64.board.platform = .c64 ∧ (c64.hasPort = true → (0x1000 : Addr) ≠ 0 ∧ (0x1000 : Addr) ≠ 1) ∧
      c64.inputs.game = true ∧ c64.inputs.exrom = true ∧ ultimax.inputs.game = false ∧
      ultimax.inputs.exrom = true ∧ (c64.setCartridge true false).inputs.game = true ∧
      (c64.setCartridge true false).inputs.exrom = false ∧ (c64.setCartridge false false).inputs.game = false ∧ 0x1000 ≤ (0x1000 : Addr).toNat ∧ 0x1000 ≤ (0xFFFF : Addr).toNat ∧
      (0x0FFF : Addr).toNat < 0x1000 := by decide

theorem witness_RomWritesGoThrough :
    c64.target 0xA000 ∈ [Target.basicRom, .kernalRom, .charRom, .romL, .romH] ∧ c64.inputs.game = true ∧
      ultimax.target 0xFFFF ∈ [Target.basicRom, .kernalRom, .charRom, .romL, .romH] ∧
      ultimax.inputs.game = false ∧ ultimax.inputs.exrom = true ∧ c64.target 0xDBFF = .colorRam ∧
      nybbles c64.colorRam = true ∧ c64.target 0xDC00 = .device .cia1 0 ∧ ultimax.target 0x1000 = .openSpace := by decide

theorem witness_ReadOperandCycles : idle.allRam := ⟨rfl, rfl⟩

theorem witness_WriteOperandCycles : (idle.setX 0xFF).allRam := ⟨rfl, rfl⟩

theorem witness_ModifyOperandCycles :
    idle.target (storeAddress (.abx 0xFFFF) (idle.setX 1)).1 = .ram ∧ idle.mem.wf = true := by decide

theorem witness_BinaryAdcIsTheSum : idle.p.d = false := rfl

theorem witness_DecimalAdcAddsDigits :
    let p : Flags := ⟨false, false, true, false, false, true⟩
    p.d = true ∧ (0x99 : Byte).toNat / 16 < 10 ∧ (0x99 : Byte).toNat % 16 < 10 ∧ (0x00 : Byte).toNat / 16 < 10 := by
  decide

theorem witness_SbcSubtractsWithBinaryFlags :
    let p : Flags := ⟨false, false, true, false, false, false⟩
    idle.p.d = false ∧ p.d = true ∧ (0x90 : Byte).toNat / 16 < 10 ∧ (0x09 : Byte).toNat % 16 < 10 := by decide

theorem witness_LoadsTakeTheOperand :
    ∀ i ∈ [Instr.ldaImm 0, .ldxZpy 0xFF, .ldyAbx 0xFFFF, .laxIzy 0xFF],
      i.mnemonic ∈ [Mnemonic.lda, .ldx, .ldy, .lax] := by decide

theorem witness_StoresWriteTheRegister :
    (∀ i ∈ [Instr.staIzy 0xFF, .stxZpy 0xFF, .styAbs 0, .saxIzx 0], i.mnemonic ∈ [Mnemonic.sta, .stx, .sty, .sax]) ∧
      idle.target (storeAddress (.izy 0xFF) idle).1 = .ram ∧ idle.mem.wf = true := by decide

theorem witness_TransfersMoveRegisters :
    (Instr.tax, (0xAA : Byte)) ∈ [(Instr.tax, (0xAA : Byte)), (.tay, 0xA8), (.txa, 0x8A), (.tya, 0x98),
      (.tsx, 0xBA), (.txs, 0x9A)] := by decide

theorem witness_LogicCombinesA :
    ∀ i ∈ [Instr.andImm 0xB7, .oraZp 0xFF, .eorIzx 0], i.mnemonic ∈ [Mnemonic.and, .ora, .eor] := by decide

theorem witness_BitTestsTheOperand : (Instr.bitAbs 0xFFFF).mnemonic = .bit := rfl

theorem witness_AdcAndSbcApplyTheirFunctions :
    ∀ i ∈ [Instr.adcImm 0, .sbcAby 0xFFFF, .sbcImmEB 0xFF], i.mnemonic ∈ [Mnemonic.adc, .sbc] := by decide

theorem witness_ComparesSetFlagsAlone :
    ∀ i ∈ [Instr.cmpIzy 0xFF, .cpxAbs 0, .cpyImm 0xFF], i.mnemonic ∈ [Mnemonic.cmp, .cpx, .cpy] := by decide

theorem witness_MemoryShifts :
    ∀ c ∈ [(Instr.aslZp 0, MemMode.zp 0), (.lsrAbs 0xD019, .abs 0xD019), (.rolZpx 0xFF, .zpx 0xFF),
      (.rorAbx 0xFFFF, .abx 0xFFFF)],
      c.1.mnemonic ∈ [Mnemonic.asl, .lsr, .rol, .ror] ∧ c.1.operand = .source (.mem c.2) := by decide

theorem witness_AccumulatorShifts : Instr.rorAcc ∈ [Instr.aslAcc, .lsrAcc, .rolAcc, .rorAcc] := by decide

theorem witness_MemoryCounts :
    ∀ i ∈ [Instr.incZp 0xFF, .decAbx 0xFFFF], i.mnemonic ∈ [Mnemonic.inc, .dec] := by decide

theorem witness_IndexCounts :
    (Instr.dey, (0x88 : Byte)) ∈ [(Instr.inx, (0xE8 : Byte)), (.iny, 0xC8), (.dex, 0xCA), (.dey, 0x88)] := by
  decide

theorem witness_JumpsLoadPc :
    idle.target 0x01FF = .ram ∧ idle.target (w16 (hi 0x01FF) (lo 0x01FF + 1)) = .ram := by decide

theorem witness_JsrPushesAndJumps :
    idle.pc ≠ w16 0x01 idle.sp ∧ idle.pc ≠ w16 0x01 (idle.sp - 1) ∧
      (idle.setPc 0x01FF).pc = w16 0x01 idle.sp := by decide

theorem witness_BranchesTestOneFlag :
    ∀ c ∈ [(Instr.bplRel 0x80, (0x10 : Byte), true), (.beqRel 0x7F, 0xF0, false)],
      (c.1.mnemonic, c.2) ∈ [(Mnemonic.bpl, (0x10 : Byte), !idle.p.n), (.bmi, 0x30, idle.p.n),
        (.bvc, 0x50, !idle.p.v), (.bvs, 0x70, idle.p.v), (.bcc, 0x90, !idle.p.c), (.bcs, 0xB0, idle.p.c),
        (.bne, 0xD0, !idle.p.z), (.beq, 0xF0, idle.p.z)] := by decide

theorem witness_PushesWriteTheStack :
    ∀ c ∈ [(Instr.pha, (0x48 : Byte)), (.php, 0x08)], c ∈ [(Instr.pha, (0x48 : Byte)), (.php, 0x08)] := by decide

theorem witness_PullsReadTheStack :
    ∀ c ∈ [(Instr.pla, (0x68 : Byte)), (.plp, 0x28)], c ∈ [(Instr.pla, (0x68 : Byte)), (.plp, 0x28)] := by decide

theorem witness_BrkEntersThroughItsVector :
    idle.pullNmiDuringStep.inputs.nmiArriving = true ∧ ported.target 0xFFFE = .ram ∧ ported.target 0xFFFF = .ram ∧
      c64.target 0xFFFA ∈ [Target.basicRom, .kernalRom, .charRom] := by decide

theorem witness_RtsReturnsPastTheCall :
    let prog : Program := { load := 0x081B, image := [0x60], entry := 0x081B, back := 0x0000, vectors := [] }
    let s := c64.launch prog
    prog.callerOnStack s = true ∧ s.board.endPc = some prog.back ∧ s.jammed = false := by decide

theorem witness_FlagInstructionsSetOneFlag :
    (Instr.sed, (0xF8 : Byte), { idle.p with d := true }) ∈ [(Instr.clc, (0x18 : Byte), { idle.p with c := false }),
      (.sec, 0x38, { idle.p with c := true }), (.cli, 0x58, { idle.p with i := false }),
      (.sei, 0x78, { idle.p with i := true }), (.clv, 0xB8, { idle.p with v := false }),
      (.cld, 0xD8, { idle.p with d := false }), (.sed, 0xF8, { idle.p with d := true })] := by decide

theorem witness_NopsOnlyRead :
    ∀ i ∈ [Instr.nop, .nop1A, .nopImm80 0, .nopAbxFC 0xFFFF], i.mnemonic = .nop ∧
      (∀ v, i ≠ .nopImm82 v ∧ i ≠ .nopImmC2 v ∧ i ≠ .nopImmE2 v) := by
  intro i h
  simp only [List.mem_cons, List.not_mem_nil, or_false] at h
  rcases h with rfl | rfl | rfl | rfl <;> exact ⟨rfl, fun v => ⟨nofun, nofun, nofun⟩⟩

theorem witness_RareJamsOrNothing :
    Instr.nopImmE2 0xFF ∈ [Instr.nopImm82 0xFF, .nopImmC2 0xFF, .nopImmE2 0xFF] := by decide

theorem witness_JamOpcodesJam :
    (0xF2 : Byte) ∈ [0x02, 0x12, 0x22, 0x32, 0x42, 0x52, 0x62, 0x72, 0x92, 0xB2, 0xD2, (0xF2 : Byte)] := by decide

theorem witness_ShiftThenLogic :
    ∀ i ∈ [Instr.sloIzx 0xFF, .rlaIzy 0xFF, .sreAby 0xFFFF], i.mnemonic ∈ [Mnemonic.slo, .rla, .sre] := by decide

theorem witness_ModifyThenArithmetic :
    ∀ i ∈ [Instr.rraZpx 0xFF, .isbIzy 0xFF, .dcpAbx 0xFFFF], i.mnemonic ∈ [Mnemonic.rra, .isb, .dcp] := by decide

theorem witness_ImmediateCombinations :
    Instr.sbxImm 0xFF ∈ [Instr.ancImm0B 0xFF, .ancImm2B 0xFF, .sbxImm 0xFF] := by decide

theorem witness_ArrRotatesTheAnd :
    idle.p.d = false ∧ idle.board.arrFlags = .adder ∧
      ({ idle with board := { idle.board with arrFlags := .plainRor } } : State).board.arrFlags = .plainRor := by
  decide

theorem witness_AneWithinItsConstants :
    ported.board.variant ≠ .mos8502 ∧ idle.board.variant ≠ .mos8502 ∧
      ({ Board.standard with variant := .mos8502, fast := true } : Board).variant = .mos8502 ∧
      ({ Board.standard with variant := .mos8502, fast := true } : Board).fast = true ∧
      (idle.setX 0x0F).x &&& 0xF0 = 0 := by decide

theorem witness_ShaFamilyStores :
    let s := (idle.setX 0xFF).setY 0x01
    ∀ c ∈ [(Instr.shaAby 0xFFFF, (0xFFFF : Addr), s.y, s.a &&& s.x), (.shxAby 0xFFFF, 0xFFFF, s.y, s.x),
      (.shyAbx 0xFFFF, 0xFFFF, s.x, s.y), (.shsAby 0xFFFF, 0xFFFF, s.y, s.a &&& s.x),
      (.shaIzy 0xFF, (pointerIzy 0xFF s).1, s.y, s.a &&& s.x)],
      c ∈ [(Instr.shaAby 0xFFFF, (0xFFFF : Addr), s.y, s.a &&& s.x), (.shxAby 0xFFFF, 0xFFFF, s.y, s.x),
        (.shyAbx 0xFFFF, 0xFFFF, s.x, s.y), (.shsAby 0xFFFF, 0xFFFF, s.y, s.a &&& s.x),
        (.shaIzy 0xFF, (pointerIzy 0xFF s).1, s.y, s.a &&& s.x)] ∧ s.target 0x0000 = .ram ∧ s.mem.wf = true := by
  decide

theorem witness_OnlyFlagWritersWriteFlags :
    Mnemonic.lda ∉ [Mnemonic.cld, .sed, .plp, .rti] ∧ Mnemonic.lda ∉ [Mnemonic.cli, .sei, .plp, .rti, .brk] ∧
      Mnemonic.jmp ∈ [Mnemonic.sta, .jmp] ∧ Mnemonic.clc ∈ [Mnemonic.clc, .brk] := by decide

/-- A two-byte instruction across the end of memory, and a JSR. -/
theorem witness_StepRunsDecodedInstruction :
    let s := (holding [(0xFFFF, 0x69), (0x0000, 0x7A)] idle).setPc 0xFFFF
    let j := holding [(0x1000, 0x20), (0x1001, 0x34), (0x1002, 0x12)] idle
    (∀ u ∈ [s, j], u.inputs.resetPin = .inactive ∧ u.inputs.resetArriving = none ∧ u.jammed = false ∧
      u.nmiPending = false ∧ (u.inputs.irqLine = false ∨ u.p.i = true)) ∧
    decode [0x69, 0x7A] = .ok (.adcImm 0x7A, []) ∧ decode [0x20, 0x34, 0x12] = .ok (.jsrAbs 0x1234, []) ∧
    (∀ k, (h : k < [(0x69 : Byte), 0x7A].length) →
      s.answerAt (if (Instr.adcImm 0x7A).mnemonic = .jsr ∧ k = 2 then 5 else k) (s.pc + BitVec.ofNat 16 k) =
        ([0x69, 0x7A][k], s)) ∧
    (∀ k, (h : k < [(0x20 : Byte), 0x34, 0x12].length) →
      j.answerAt (if (Instr.jsrAbs 0x1234).mnemonic = .jsr ∧ k = 2 then 5 else k) (j.pc + BitVec.ofNat 16 k) =
        ([0x20, 0x34, 0x12][k], j)) := by
  refine ⟨by decide, rfl, rfl, ?_, ?_⟩
  · intro k h
    match k, h with
    | 0, _ => rfl
    | 1, _ => rfl
  · intro k h
    match k, h with
    | 0, _ => rfl
    | 1, _ => rfl
    | 2, _ => rfl

theorem witness_EveryStepHasANextState :
    let s := holding [(0x1000, 0xF2)] idle
    s.jammed = false ∧ (after s).jammed = true := by decide

theorem witness_InterruptEntry :
    let s := idle.setNmiPending true
    let u := idle.setIrqLine true
    s.inputs.resetPin = .inactive ∧ s.inputs.resetArriving = none ∧ s.jammed = false ∧
      s.nmiPending = true ∧ u.inputs.resetPin = .inactive ∧ u.inputs.resetArriving = none ∧ u.jammed = false ∧
      u.nmiPending = false ∧ u.inputs.irqLine = true ∧ u.p.i = false ∧ u.target 0xFFFE = .ram ∧
      c64.target 0xFFFF ∈ [Target.basicRom, .kernalRom, .charRom] := by decide

theorem witness_JammedOrHeldStateStays :
    idle.pullReset.inputs.resetPin = .held ∧ (idle.setJammed true).inputs.resetPin = .inactive ∧
      (idle.setJammed true).jammed = true := by decide

theorem witness_ResetSequenceEffects :
    idle.releaseReset.inputs.resetPin = .released ∧ idle.releaseReset.inputs.resetArriving = none ∧
      (ported.setDdr 0).target ported.board.resetVector = .ram ∧
      (c64.setDdr 0).target c64.board.resetVector ∈ [Target.basicRom, .kernalRom, .charRom] := by decide

theorem witness_UnfinishedInstructionKeepsItsWrites :
    let s := (holding [(0x1000, 0xEE), (0x1001, 0x00), (0x1002, 0x30)] idle).pullResetDuringStep 5
    let f := (s.setBus []).fetchInstr
    (s.setBus []).event = .instruction ∧ s.inputs.resetArriving = some 5 ∧ f.1 = .incAbs 0x3000 ∧
      ∃ u, exec f.1 f.2 = .next u ∧ 5 < u.bus.length := by
  exact ⟨rfl, rfl, rfl, _, rfl, by decide⟩

theorem witness_EveryStepKeepsInvariant : idle.inv = true ∧ step idle = .next (after idle) := ⟨rfl, rfl⟩

/-- T41.5: a page crossed. -/
theorem witness_AccessesMatchCycleTable :
    let s := (holding [(0x1000, 0xBD), (0x1001, 0xFD), (0x1002, 0x20)] idle).setX 0x10
    let f := (s.setBus []).fetchInstr
    (s.setBus []).event = .instruction ∧ s.inputs.resetArriving = none ∧ cycles f.1 = some 4 ∧
      extraCycles f.1 f.2 = 1 := by decide

/-- An entry, a BRK and a JSR, and after each a state with its stack and other registers. -/
theorem witness_ReturnsUndoEntries :
    let stands := fun (u v : State) (n : Nat) => v.sp = u.sp ∧ ∀ k : Byte, 0 < k.toNat → k.toNat ≤ n →
      v.mem.read (w16 0x01 (u.sp + k)).toNat = u.mem.read (w16 0x01 (u.sp + k)).toNat
    let u := idle.interruptSequence 0xFFFE
    idle.mem.wf = true ∧ stands u ((u.setPc 0x2000).setA 0x55) 3 ∧
      (∃ b, exec .brk idle = .next b ∧ stands b (b.setX 0x55) 3) ∧
      ∃ j, exec (.jsrAbs 0x2000) idle = .next j ∧ stands j (j.setY 0x55) 2 :=
  ⟨rfl, ⟨rfl, fun _ _ _ => rfl⟩, ⟨_, rfl, rfl, fun _ _ _ => rfl⟩, ⟨_, rfl, rfl, fun _ _ _ => rfl⟩⟩

end Sys2Proof.Tests
end

