-- ==== Sys2Proof/Proofs/Jumps.lean ====
section
/-! JMP in both forms (44_control_flow.md R311, R314): what each leaves, and what the indirect form finds when its
pointer stands in RAM. -/

namespace Sys2Proof.Machine

/-- The dispatch of $4C. -/
theorem exec_jmpAbs (addr : Addr) (s : State) : exec (.jmpAbs addr) s = .next (s.setPc addr) := rfl

/-- Where `JMP ($nnnn)` reads the high byte of PC: the next byte of the pointer's own page (R314). -/
def pointerHighAddr (addr : Addr) : Addr := w16 (hi addr) (lo addr + 1)

/-- The dispatch of $6C: two reads, the second in the pointer's page, then PC. -/
theorem exec_jmpInd (addr : Addr) (s : State) :
    exec (.jmpInd addr) s =
      let l := s.read addr
      let h := l.2.read (pointerHighAddr addr)
      .next (h.2.setPc (w16 h.1 l.1)) := rfl

/-- A read cycle records the byte that it gives. -/
theorem State.read_bus (s : State) (addr : Addr) :
    (s.read addr).2.bus = s.bus ++ [.read addr (s.read addr).1] := by
  simp [State.read]

/-- A read does not change what answers elsewhere. -/
theorem State.read_target (s : State) (a b : Addr) : (s.read a).2.target b = s.target b :=
  State.target_congr (by simp) (by simp) (by simp) (by simp) b

/-- JMP absolute leaves everything but PC, and needs no cycle after its fetch. -/
theorem jmpAbs_spec (addr : Addr) (s : State) :
    ∃ t, exec (.jmpAbs addr) s = .next t ∧ t.pc = addr ∧ keepsRegisters s t ∧ t.p = s.p ∧
      keepsMemory s t ∧ keepsRest s t ∧ t.bus = s.bus := by
  refine ⟨_, exec_jmpAbs addr s, rfl, ?_, rfl, ?_, ?_, rfl⟩
  · simp [keepsRegisters]
  · simp [keepsMemory]
  · simp [keepsRest]

/-- JMP indirect leaves everything but PC and the two reads on the bus. -/
theorem jmpInd_spec (addr : Addr) (s : State) :
    let l := s.read addr
    let h := l.2.read (pointerHighAddr addr)
    ∃ t, exec (.jmpInd addr) s = .next t ∧ t.pc = w16 h.1 l.1 ∧ keepsRegisters s t ∧ t.p = s.p ∧
      keepsMemory s t ∧ keepsRest s t ∧
      t.bus = s.bus ++ [.read addr l.1, .read (pointerHighAddr addr) h.1] := by
  refine ⟨_, exec_jmpInd addr s, rfl, ?_, ?_, ?_, ?_, ?_⟩
  · simp [keepsRegisters]
  · simp
  · simp [keepsMemory]
  · simp [keepsRest]
  · rw [State.setPc_bus, State.read_bus, State.read_bus, List.append_assoc, List.singleton_append]

/-- Two reads in a row where RAM answers both give the two bytes of memory as it stood before them. -/
theorem State.read_read_ram {s : State} {a b : Addr} (ha : s.target a = .ram) (hb : s.target b = .ram) :
    (s.read a).1 = s.mem.read a.toNat ∧ ((s.read a).2.read b).1 = s.mem.read b.toNat := by
  have hmem : (s.read a).2.mem = s.mem := by simp
  have second := ((s.read a).2.read_gives b).1 ((s.read_target a b).trans hb)
  exact ⟨(s.read_gives a).1 ha, hmem ▸ second⟩

/-- Settles O28: the two forms by their frame lemmas, and the word at a pointer in RAM by the two reads. -/
theorem jumpsLoadPc : Obligations.JumpsLoadPc := by
  intro addr s
  refine ⟨rfl, rfl, jmpAbs_spec addr s, jmpInd_spec addr s, fun hlow hhigh => ?_⟩
  obtain ⟨low, high⟩ := State.read_read_ram hlow hhigh
  exact w16_inj.mpr ⟨high, low⟩

end Sys2Proof.Machine
end

