-- ==== Sys2Proof/Proofs/AndShift.lean ====
section
/-! ASR (47_undocumented_unusual.md R412): the byte and the flags that `lsr` (43_shift_incdec.md R280) gives, and what
the instruction leaves alone. -/

namespace Sys2Proof.Machine

/-- `lsr` halves its byte. -/
theorem lsr_toNat (m : Byte) (c : Bool) : (lsr m c).1.toNat = m.toNat / 2 := by
  simp [lsr, Nat.shiftRight_eq_div_pow]

/-- `lsr` brings a 0 into bit 7. -/
theorem lsr_bit7 (m : Byte) (c : Bool) : (lsr m c).1.getLsbD 7 = false := by
  simp [lsr]

/-- `lsr` gives 0 from the bytes 0 and 1 alone. -/
theorem lsr_beq_zero (m : Byte) (c : Bool) : ((lsr m c).1 == 0) = decide (m.toNat < 2) := by
  have halved : (lsr m c).1 = 0 ↔ m.toNat / 2 = 0 := by
    rw [← lsr_toNat m c]
    exact BitVec.toNat_inj.symm
  rw [beq_eq_decide, decide_eq_decide, halved]
  omega

/-- N, Z and C after a shift to the right: N is 0 whatever it was. -/
theorem Flags.withNZ_withC_lsr (p : Flags) (m : Byte) (c : Bool) :
    (p.withNZ (lsr m c).1).withC (lsr m c).2 =
      { p with n := false, z := decide (m.toNat < 2), c := m.getLsbD 0 } := by
  rw [Flags.withNZ, lsr_bit7, lsr_beq_zero]
  rfl

/-- The dispatch of $4B: A AND the operand goes through `lsr` into A, then N, Z and C follow. -/
theorem exec_asrImm (v : Byte) (s : State) :
    exec (.asrImm v) s =
      let q := lsr (s.a &&& v) s.p.c
      .next (((s.setA q.1).setNZ q.1).setCarry q.2) := rfl

/-- Settles O42: A and the flags by the lemmas on `lsr`, the rest by what the three updates keep. -/
theorem asrShiftsTheAnd : Obligations.AsrShiftsTheAnd := by
  intro s v
  refine ⟨rfl, rfl, _, exec_asrImm v s, ?a, ?flags, ?x, ?y, ?sp, ?pc, ?memory, ?rest, ?bus⟩
  case a => simpa using lsr_toNat (s.a &&& v) s.p.c
  case flags => simpa using s.p.withNZ_withC_lsr (s.a &&& v) s.p.c
  case memory => simp [keepsMemory]
  case rest => simp [keepsRest]
  all_goals simp

end Sys2Proof.Machine
end

