-- ==== Sys2Proof/Proofs/Encoding.lean ====
section
/-! The decoder and the encoder are inverse (30_encoding.md R100 to R107, R111). Two facts carry it, each one split over
the matrix: every instruction's encoding is an opcode with the operand bytes that the opcode asks for, and every opcode
decodes, its operand bytes wherever the instruction has them. -/

namespace Sys2Proof

/-- Every instruction stands in the matrix and is as long as its mode. -/
theorem Instr.form_in_matrix (i : Instr) : Laws.WellFormed.Statement i := by
  cases i <;> exact ⟨rfl, rfl⟩

/-! ### Decoding by the number of operand bytes -/

theorem decode_no_operand {op : Byte} (n : operandBytes op = 0) (rest : List Byte) :
    decode (op :: rest) = .ok (decodeOpcode op 0 0, rest) := by
  simp [decode, n]

theorem decode_one_operand {op : Byte} (n : operandBytes op = 1) (l : Byte) (rest : List Byte) :
    decode (op :: l :: rest) = .ok (decodeOpcode op l 0, rest) := by
  simp [decode, n]

theorem decode_two_operands {op : Byte} (n : operandBytes op = 2) (l h : Byte) (rest : List Byte) :
    decode (op :: l :: h :: rest) = .ok (decodeOpcode op l h, rest) := by
  simp [decode, n]

/-- The decoder finds `i` behind `op` and the operand bytes, of which there are as many as the opcode asks for. -/
inductive EncodesAs (i : Instr) : List Byte → Prop
  | alone (op : Byte) (n : operandBytes op = 0) (d : decodeOpcode op 0 0 = i) : EncodesAs i [op]
  | withByte (op l : Byte) (n : operandBytes op = 1) (d : decodeOpcode op l 0 = i) : EncodesAs i [op, l]
  | withWord (op : Byte) (a : Addr) (n : operandBytes op = 2) (d : decodeOpcode op (lo a) (hi a) = i) :
      EncodesAs i [op, lo a, hi a]

/-- A constructor that holds an address is found again from the address's two bytes. -/
theorem word_constructor (c : Addr → Instr) (a : Addr) : c (w16 (hi a) (lo a)) = c a := by rw [w16_hi_lo]

/-- Every instruction's encoding stands in the opcode map. -/
theorem encodesAs_encode (i : Instr) : EncodesAs i (encode i) := by
  cases i <;> first
    | exact .alone _ rfl rfl
    | exact .withByte _ _ rfl rfl
    | exact .withWord _ _ rfl (word_constructor _ _)

theorem EncodesAs.decode_append {i : Instr} {bytes : List Byte} (e : EncodesAs i bytes) (rest : List Byte) :
    decode (bytes ++ rest) = .ok (i, rest) := by
  cases e with
  | alone op n d => exact d ▸ decode_no_operand n rest
  | withByte op l n d => exact d ▸ decode_one_operand n l rest
  | withWord op a n d => exact d ▸ decode_two_operands n (lo a) (hi a) rest

theorem decode_encode_append (i : Instr) (rest : List Byte) : decode (encode i ++ rest) = .ok (i, rest) :=
  (encodesAs_encode i).decode_append rest

/-- Settles O1: the form by the matrix, the decoding by `encodesAs_encode`. -/
theorem decodeOfEncodeIsIdentity : Obligations.DecodeOfEncodeIsIdentity :=
  fun i rest => ⟨i.form_in_matrix.1, decode_encode_append i rest⟩

/-! ### Every opcode -/

/-- An absolute operand is encoded as the two bytes that it was decoded from. -/
theorem encode_word (op l h : Byte) : [op, lo (w16 h l), hi (w16 h l)] = [op, l, h] := by
  rw [lo_w16, hi_w16]

/-- The opcode map cell by cell: the encoding is the opcode with as many operand bytes as it asks for (R100). -/
theorem encode_decodeOpcode (op l h : Byte) :
    encode (decodeOpcode op l h) = [op, l, h].take (operandBytes op + 1) := by
  obtain ⟨n, bound, rfl⟩ : ∃ n < 256, op = BitVec.ofNat 8 n := ⟨op.toNat, op.isLt, by simp⟩
  interval_cases n <;> first | rfl | exact encode_word _ _ _

/-- The opcode byte decides mnemonic and mode: they are those with operand bytes 0 (R100). -/
theorem encode_head_form (i : Instr) : ∃ op, (encode i).head? = some op ∧
    i.mnemonic = (decodeOpcode op 0 0).mnemonic ∧ i.operand.mode = (decodeOpcode op 0 0).operand.mode := by
  cases i <;> exact ⟨_, rfl, rfl, rfl⟩

theorem encode_decodeOpcode_head (op l h : Byte) : (encode (decodeOpcode op l h)).head? = some op := by
  rw [encode_decodeOpcode]
  rfl

theorem decodeOpcode_form (op l h : Byte) :
    (decodeOpcode op l h).mnemonic = (decodeOpcode op 0 0).mnemonic ∧
      (decodeOpcode op l h).operand.mode = (decodeOpcode op 0 0).operand.mode := by
  obtain ⟨op', head, form⟩ := encode_head_form (decodeOpcode op l h)
  rw [encode_decodeOpcode_head, Option.some_inj] at head
  exact head ▸ form

/-- No opcode has more than two operand bytes. -/
theorem operandBytes_le (op : Byte) : operandBytes op ≤ 2 := by
  have mode := (decodeOpcode op 0 0).form_in_matrix.2
  unfold operandBytes
  rw [mode]
  cases (decodeOpcode op 0 0).operand.mode <;> decide

/-- Three bytes always decode, and the opcode takes as many of them as its instruction has. -/
theorem decode_three_bytes (op l h : Byte) :
    ∃ l' h', decode [op, l, h] = .ok (decodeOpcode op l' h', [l, h].drop (operandBytes op)) := by
  have := operandBytes_le op
  obtain n | n | n : operandBytes op = 0 ∨ operandBytes op = 1 ∨ operandBytes op = 2 := by omega
  · exact ⟨0, 0, by rw [n]; exact decode_no_operand n _⟩
  · exact ⟨l, 0, by rw [n]; exact decode_one_operand n l _⟩
  · exact ⟨l, h, by rw [n]; exact decode_two_operands n l h _⟩

/-- Settles O2: by the number of operand bytes, and in each case by how many bytes there are. -/
theorem encodeOfDecodeIsIdentity : Obligations.EncodeOfDecodeIsIdentity := by
  intro bytes rest i decoded
  match bytes with
  | [] => cases decoded
  | op :: tail =>
    have := operandBytes_le op
    obtain n | n | n : operandBytes op = 0 ∨ operandBytes op = 1 ∨ operandBytes op = 2 := by omega
    · rw [decode_no_operand n] at decoded
      cases decoded
      rw [encode_decodeOpcode, n]
      rfl
    · match tail with
      | [] => simp [decode, n] at decoded
      | l :: tail =>
        rw [decode_one_operand n] at decoded
        cases decoded
        rw [encode_decodeOpcode, n]
        rfl
    · match tail with
      | [] => simp [decode, n] at decoded
      | [_] => simp [decode, n] at decoded
      | l :: h :: tail =>
        rw [decode_two_operands n] at decoded
        cases decoded
        rw [encode_decodeOpcode, n]
        rfl

/-- Settles O3: mnemonic, mode and length are those of `decodeOpcode op 0 0`, whatever the operand bytes. -/
theorem everyOpcodeDecodes : Obligations.EveryOpcodeDecodes := by
  intro op l h l' h'
  obtain ⟨l1, h1, decoded⟩ := decode_three_bytes op l h
  obtain ⟨l2, h2, decoded'⟩ := decode_three_bytes op l' h'
  obtain ⟨mnemonic, mode⟩ := decodeOpcode_form op l1 h1
  obtain ⟨mnemonic', mode'⟩ := decodeOpcode_form op l2 h2
  have bytes := encode_decodeOpcode op l1 h1
  have length := (decodeOpcode op l1 h1).form_in_matrix.2
  have bound := operandBytes_le op
  refine ⟨_, _, _, _, decoded, decoded', encode_decodeOpcode_head op l1 h1, mnemonic.trans mnemonic'.symm,
    mode.trans mode'.symm, length, ?rest⟩
  case rest =>
    rw [← length, bytes]
    simp only [List.length_drop, List.length_take, List.length_cons, List.length_nil]
    omega

/-- Settles O4: each word is the encoding of what it stands for. -/
theorem sampleWordsDecode : Obligations.SampleWordsDecode :=
  ⟨rfl, rfl, rfl, rfl, rfl, rfl, rfl, rfl, rfl, rfl, rfl, rfl, rfl, rfl, rfl, rfl⟩

end Sys2Proof
end

