-- ==== Sys2Proof/Proofs/Bus.lean ====
section
/-! One bus cycle: RAM, the on-chip port, the Commodore 64 map and what a write there reaches (10_state.md R40 to R47,
20_memory.md R60 to R83). -/

namespace Sys2Proof.Machine

/-! ### RAM -/

/-- A bus entry does not change what answers. -/
theorem State.log_target (s : State) (c : BusAccess) (addr : Addr) : (s.log c).target addr = s.target addr := rfl

/-- A write cycle to RAM puts its byte there and itself on the bus. -/
theorem State.write_ram {s : State} {addr : Addr} (ram : s.target addr = .ram) (v : Byte) :
    s.write addr v = (s.setMem (s.mem.write addr.toNat v)).log (.write addr v) := by
  rw [State.write, State.accept_ram ram]

/-- A read cycle where RAM answers gives its byte. -/
theorem State.read_ram {s : State} {addr : Addr} (ram : s.target addr = .ram) :
    (s.read addr).1 = s.mem.read addr.toNat := (s.read_gives addr).1 ram

/-- Settles O5: the write in closed form, then the read of the memory that it leaves. -/
theorem ramReturnsLastWrite : Obligations.RamReturnsLastWrite := by
  intro s addr v wf ram
  have frame (b : Nat) (h : b ≠ addr.toNat) := (State.accept_elsewhere s addr v).1 b h
  have again : (s.write addr v).target addr = .ram := by rw [State.write_ram ram]; exact ram
  refine ⟨?back, fun b h => ?other, ?colour, ?ddr, ?prl, ?registers, ?rest, ?pc, ?p⟩
  case back =>
    rw [State.read_ram again, State.write_ram ram]
    exact Memory.read_write_self wf
  case other => simpa using (frame b h).1
  case registers => simp [keepsRegisters]
  case rest => simp [keepsRest]
  all_goals simp [State.accept_ram ram]

/-! ### The on-chip port -/

theorem State.target_ddr {s : State} (port : s.hasPort = true) : s.target 0 = .ddr := by simp [State.target, port]

theorem State.target_pr {s : State} (port : s.hasPort = true) : s.target 1 = .pr := by simp [State.target, port]

/-- A port line is one of eight. -/
theorem line_lt {v : Byte} {k : Nat} (h : v.getLsbD k = true) : k < 8 := BitVec.lt_of_getLsbD h

/-- Line by line: an output has its latch's level, an input the outside's (10_state.md R42). -/
theorem State.lineLevels_bit (s : State) (cycle : Nat) {k : Nat} (hk : k < 8) :
    (s.lineLevels cycle).getLsbD k =
      if s.ddr.getLsbD k then s.prl.getLsbD k else (s.lineInputs cycle).getLsbD k := by
  simp only [State.lineLevels, BitVec.getLsbD_or, BitVec.getLsbD_and, BitVec.getLsbD_not, hk, decide_true, Bool.true_and]
  cases s.ddr.getLsbD k <;> simp

/-- Settles O6: what `accept` does at the two port addresses, and the levels line by line. -/
theorem portWriteSetsDirectionAndLatch : Obligations.PortWriteSetsDirectionAndLatch := by
  intro s v k port line
  have atZero : s.write 0 v = (s.setDdr (v &&& portMask s.board.variant)).log (.write 0 v) := by
    rw [State.write, State.accept, State.target_ddr port]
  have atOne : s.write 1 v = (s.setPrl (v &&& portMask s.board.variant)).log (.write 1 v) := by
    rw [State.write, State.accept, State.target_pr port]
  rw [atZero, atOne]
  refine ⟨?ddr, by simp, by simp, ?prl, by simp, by simp, fun cycle => s.lineLevels_bit cycle (line_lt line)⟩
  case ddr => simpa using fun _ => line
  case prl => simpa using fun _ => line

/-- A bit outside the free ones is the known one. -/
theorem State.withFreeBits_bit (s : State) {known mask : Byte} {k : Nat} (fixed : mask.getLsbD k = false) :
    (s.withFreeBits known mask).1.getLsbD k = known.getLsbD k := by
  unfold State.withFreeBits
  split
  · rfl
  · simp only [BitVec.getLsbD_or, BitVec.getLsbD_and, BitVec.getLsbD_not, fixed, Bool.not_false, Bool.and_true,
      Bool.and_false, Bool.or_false]
    by_cases hk : k < 8
    · simp [hk]
    · rw [BitVec.getLsbD_of_ge _ _ (by omega), Bool.false_and]

/-- A read changes no register, no memory and no port register. -/
theorem State.read_frame (s : State) (addr : Addr) :
    keepsMemory s (s.read addr).2 ∧ keepsRegisters s (s.read addr).2 ∧ keepsRest s (s.read addr).2 ∧
      (s.read addr).2.pc = s.pc ∧ (s.read addr).2.p = s.p := by
  simp [keepsMemory, keepsRegisters, keepsRest]

/-- Settles O7: the port's lines are none of the free bits of its reads, but where the Commodore 64 lets them float. -/
theorem portReadGivesDirectionAndLevels : Obligations.PortReadGivesDirectionAndLevels := by
  intro s k port line
  have implemented : (~~~(portMask s.board.variant)).getLsbD k = false := by
    rw [BitVec.getLsbD_not, line, Bool.not_true, Bool.and_false]
  refine ⟨?_, fun floats => ?_, fun addr _ => s.read_frame addr⟩
  · simp only [State.read, State.answer, State.answerAt, State.target_ddr port]
    exact s.withFreeBits_bit implemented
  · have fixed : (~~~(portMask s.board.variant) ||| s.floatingLines).getLsbD k = false := by
      rw [BitVec.getLsbD_or, implemented, floats, Bool.or_false]
    simp only [State.read, State.answer, State.answerAt, State.target_pr port]
    rw [s.withFreeBits_bit fixed]
    exact s.lineLevels_bit _ (line_lt line)

/-! ### The Commodore 64 map -/

/-- Off the port the Commodore 64 answers by the configuration table (20_memory.md R80, R81). -/
theorem State.target_c64 {s : State} {addr : Addr} (c64 : s.board.platform = .c64)
    (offPort : s.hasPort = true → addr ≠ 0 ∧ addr ≠ 1) :
    s.target addr = (s.column.area addr.toNat).target (s.bankLine 2) addr.toNat := by
  unfold State.target
  rw [if_neg fun h => (offPort h.1).1 h.2, if_neg fun h => (offPort h.1).2 h.2, c64]

/-- The table above $0FFF, row by row. -/
theorem Column.target_rows (col : Column) (charen : Bool) {a : Nat} (above : 0x1000 ≤ a) :
    (col.area a).target charen a =
      if a < 0x8000 then col.at1000.target charen a
      else if a < 0xA000 then col.at8000.target charen a
      else if a < 0xC000 then col.atA000.target charen a
      else if a < 0xD000 then col.atC000.target charen a
      else if a < 0xE000 then col.atD000.target charen a
      else col.atE000.target charen a := by
  rw [Column.area, if_neg (by omega)]
  simp only [apply_ite fun r : Area => r.target charen a]

/-- Two neighbouring rows with the same contents are one. -/
theorem merge_rows {α : Type} (a : Nat) {m n : Nat} (h : m ≤ n) (x y : α) :
    (if a < m then x else if a < n then x else y) = if a < n then x else y := by
  split
  · rw [if_pos (by omega)]
  · rfl

/-- Settles O8: the rows of the table for each state of the two cartridge lines, whose cells are read off for the four
states of LORAM and HIRAM. -/
theorem bankingFollowsTable : Obligations.BankingFollowsTable := by
  intro s addr cycle c64 offPort
  have target := State.target_c64 c64 offPort
  simp only [← State.bankLine_eq c64 cycle (show 0 < 3 by decide), ← State.bankLine_eq c64 cycle (show 1 < 3 by decide),
    ← State.bankLine_eq c64 cycle (show 2 < 3 by decide), target, State.column]
  generalize s.bankLine 0 = loram
  generalize s.bankLine 1 = hiram
  generalize s.bankLine 2 = charen
  generalize addr.toNat = a
  refine ⟨fun low => ?_, fun game exrom above => ?_, fun game exrom above => ?_, fun game exrom above => ?_,
    fun game exrom above => ?_⟩
  · rw [Column.area, if_pos low]
    rfl
  all_goals rw [Column.target_rows _ _ above, game, exrom]
  · refine .trans ?_ (merge_rows a (show 0x8000 ≤ 0xA000 by decide) Target.ram _)
    cases loram <;> cases hiram <;> rfl
  · cases loram <;> cases hiram <;> rfl
  · cases loram <;> cases hiram <;> cases charen <;> rfl
  · refine .trans ?_ (congrArg (ite _ _) (congrArg (ite _ _)
      (merge_rows a (show 0xC000 ≤ 0xD000 by decide) Target.openSpace _)))
    cases loram <;> cases hiram <;> rfl

/-- The Ultimax configuration is -EXROM high and -GAME low (20_memory.md R80). -/
theorem column_ultimax (loram hiram game exrom : Bool) :
    column loram hiram game exrom = .cxx01 ↔ game = false ∧ exrom = true := by
  cases loram <;> cases hiram <;> cases game <;> cases exrom <;> decide

theorem State.column_ultimax (s : State) :
    s.column = .cxx01 ↔ s.inputs.game = false ∧ s.inputs.exrom = true := Machine.column_ultimax ..

/-- The areas of the ROM chips. -/
def romTargets : List Target := [.basicRom, .kernalRom, .charRom, .romL, .romH]

/-- A write to a ROM area reaches the RAM beneath, but in the Ultimax configuration (20_memory.md R82). -/
theorem State.accept_rom {s : State} {addr : Addr} (rom : s.target addr ∈ romTargets) (v : Byte) :
    s.accept addr v = if s.column = .cxx01 then s else s.setMem (s.mem.write addr.toNat v) := by
  simp only [romTargets, List.mem_cons, List.not_mem_nil, or_false] at rom
  obtain h | h | h | h | h := rom <;> simp only [State.accept, h]

/-- What a ROM area answers is a matter of the board and, where the chip is absent, of the draws. -/
theorem State.answer_rom_congr {s t : State} {addr : Addr} (rom : s.target addr ∈ romTargets)
    (target : t.target addr = s.target addr) (board : t.board = s.board) (draws : t.draws = s.draws) :
    (t.answer addr).1 = (s.answer addr).1 := by
  have absent (chip : Nat) (cells : Option (List Host.Cell)) :
      (t.externalRom chip cells addr.toNat).1 = (s.externalRom chip cells addr.toNat).1 := by
    cases cells <;> simp [State.externalRom, State.draw, draws]
  simp only [romTargets, List.mem_cons, List.not_mem_nil, or_false] at rom
  obtain h | h | h | h | h := rom <;> simp only [State.answer, State.answerAt, target, h, board, absent]

/-- Outside the free bits a partly free byte is the known one. -/
theorem State.withFreeBits_and (s : State) (known mask : Byte) :
    (s.withFreeBits known mask).1 &&& ~~~mask = known &&& ~~~mask := by
  unfold State.withFreeBits
  split
  · rfl
  · ext i
    simp only [BitVec.getElem_and, BitVec.getElem_or, BitVec.getElem_not]
    cases mask[i] <;> simp

/-- The colour RAM reads back the nybble written (20_memory.md R83). -/
theorem State.write_colorRam_answer {s : State} {addr : Addr} (colour : s.target addr = .colorRam)
    (wf : s.colorRam.wf = true) (v : Byte) : ((s.write addr v).answer addr).1 &&& 0x0F = v &&& 0x0F := by
  have written : s.write addr v =
      (s.setColorRam (s.colorRam.write addr.toNat (v &&& 0x0F))).log (.write addr v) := by
    rw [State.write, State.accept, colour]
  have again : (s.write addr v).target addr = .colorRam := by rw [written]; exact colour
  have nybble : (s.write addr v).colorRam.read addr.toNat = v &&& 0x0F := by
    rw [written]
    exact Memory.read_write_self wf
  simp only [State.answer, State.answerAt, again, nybble]
  rw [show (0x0F : Byte) = ~~~0xF0 by decide, State.withFreeBits_and, BitVec.and_assoc, BitVec.and_self]

/-- Settles O9: the three kinds of target, each by what `accept` does there. -/
theorem romWritesGoThrough : Obligations.RomWritesGoThrough := by
  intro s addr v
  refine ⟨fun rom => ⟨fun lines => ?through, fun game exrom => ?ultimax⟩, fun colour nyb => ⟨?ram, ?nybble⟩,
    fun outside => ?outside⟩
  case through =>
    have column : s.column ≠ .cxx01 := by
      rw [ne_eq, s.column_ultimax]
      rintro ⟨game, exrom⟩
      simp [game, exrom] at lines
    have accept := State.accept_rom rom v
    rw [if_neg column] at accept
    refine ⟨by simp [accept], State.answer_rom_congr rom ?_ (by simp) (by simp [State.write, accept, State.log])⟩
    rw [State.write, accept]
    rfl
  case ultimax =>
    have accept := State.accept_rom rom v
    rw [if_pos (s.column_ultimax.mpr ⟨game, exrom⟩)] at accept
    simp [accept]
  case ram => simp [State.accept, colour]
  case nybble =>
    simp only [nybbles, Bool.and_eq_true] at nyb
    exact State.write_colorRam_answer colour nyb.1 v
  case outside =>
    have accept : s.accept addr v = s := by
      obtain ⟨owner, register, h⟩ | h := outside <;> simp only [State.accept, h]
    simp [accept]

end Sys2Proof.Machine
end

