-- ==== Sys2Proof/Proofs/Addressing.lean ====
section
/-! The addressing modes cycle by cycle (40_addressing_modes.md R144 to R153, R160), on the machine where every address
is RAM, and the three cycles of a read-modify-write operand on any board. -/

namespace Sys2Proof.Machine

/-! ### Bus cycles where every address is RAM -/

/-- A bus entry does not change what the machine is made of. -/
@[simp] theorem State.log_allRam (s : State) (c : BusAccess) : (s.log c).allRam ↔ s.allRam := Iff.rfl

/-- A read cycle on an all-RAM machine gives the byte of memory and does nothing but record itself. -/
theorem State.read_allRam {s : State} (h : s.allRam) (addr : Addr) :
    s.read addr = (s.mem.read addr.toNat, s.log (.read addr (s.mem.read addr.toNat))) := by
  rw [State.read, State.answer_ram (State.allRam_target h addr)]

theorem State.touch_allRam {s : State} (h : s.allRam) (addr : Addr) :
    s.touch addr = s.log (.read addr (s.mem.read addr.toNat)) := by
  rw [State.touch, State.read_allRam h]

theorem State.write_allRam {s : State} (h : s.allRam) (addr : Addr) (v : Byte) :
    s.write addr v = (s.setMem (s.mem.write addr.toNat v)).log (.write addr v) :=
  State.write_ram (State.allRam_target h addr) v

/-- The pointer cycles of `(zp,X)` (R150). -/
theorem pointerIzx_allRam {s : State} (h : s.allRam) (ptr : Byte) :
    let rd := fun addr : Addr => s.mem.read addr.toNat
    let cyc := fun addr : Addr => BusAccess.read addr (rd addr)
    let low := zeroPage (ptr + s.x)
    let high := zeroPage (ptr + s.x + 1)
    pointerIzx ptr s = (w16 (rd high) (rd low), ((s.log (cyc (zeroPage ptr))).log (cyc low)).log (cyc high)) := by
  simp [pointerIzx, State.touch_allRam, State.read_allRam, h]

/-- The pointer cycles of `(zp),Y` (R151). -/
theorem pointerIzy_allRam {s : State} (h : s.allRam) (ptr : Byte) :
    let rd := fun addr : Addr => s.mem.read addr.toNat
    let cyc := fun addr : Addr => BusAccess.read addr (rd addr)
    pointerIzy ptr s = (w16 (rd (zeroPage (ptr + 1))) (rd (zeroPage ptr)),
      (s.log (cyc (zeroPage ptr))).log (cyc (zeroPage (ptr + 1)))) := by
  simp [pointerIzy, State.read_allRam, h]

/-- An indexed read: the unfixed address first if a page is crossed, then the indexed one (R147, R151). -/
theorem readIndexed_allRam {s : State} (h : s.allRam) (base : Addr) (index : Byte) :
    let rd := fun addr : Addr => s.mem.read addr.toNat
    let cyc := fun addr : Addr => BusAccess.read addr (rd addr)
    let q := (readIndexed base index s).2.read (readIndexed base index s).1
    q.1 = rd (indexed base index) ∧ q.2.bus = s.bus ++
      (if 255 < (lo base).toNat + index.toNat then [cyc (unfixed base index), cyc (indexed base index)]
        else [cyc (indexed base index)]) := by
  by_cases cross : 255 < (lo base).toNat + index.toNat <;>
    simp [readIndexed, crosses, cross, State.touch_allRam, State.read_allRam, h]

/-- An indexed store: the unfixed address is read first, whether or not a page is crossed (R148, R152). -/
theorem storeIndexed_allRam {s : State} (h : s.allRam) (base : Addr) (index v : Byte) :
    let q := (storeIndexed base index s).2.write (storeIndexed base index s).1 v
    q.bus = s.bus ++ [.read (unfixed base index) (s.mem.read (unfixed base index).toNat),
      .write (indexed base index) v] ∧ q.mem = s.mem.write (indexed base index).toNat v := by
  simp [storeIndexed, State.touch_allRam, State.write_allRam, h]

/-- Settles O10: mode by mode, each indexed mode by `readIndexed_allRam`. -/
theorem readOperandCycles : Obligations.ReadOperandCycles := by
  intro s h
  refine ⟨fun d => ?zp, fun d => ?zpx, fun d => ?zpy, fun addr => ?abs, fun base => ?abx, fun base => ?aby,
    fun ptr => ?izx, fun ptr => ?izy⟩
  case abx =>
    dsimp only
    rw [List.append_nil]
    exact readIndexed_allRam h base s.x
  case aby =>
    dsimp only
    rw [List.append_nil]
    exact readIndexed_allRam h base s.y
  case izx => simp [readMem, readAddress, pointerIzx_allRam h, State.read_allRam, h, zeroPage]
  case izy =>
    have indexedRead := readIndexed_allRam (s := (pointerIzy ptr s).2) (by rw [pointerIzy_allRam h]; exact h)
      (pointerIzy ptr s).1 s.y
    rw [pointerIzy_allRam h] at indexedRead
    simpa [readMem, readAddress, pointerIzy_allRam h, zeroPage, indexed, unfixed] using indexedRead
  all_goals simp [readMem, readAddress, State.touch_allRam, State.read_allRam, h, zeroPage]

/-- Settles O11: mode by mode, each indexed mode by `storeIndexed_allRam`. -/
theorem writeOperandCycles : Obligations.WriteOperandCycles := by
  intro s v h
  refine ⟨fun d => ?zp, fun d => ?zpx, fun d => ?zpy, fun addr => ?abs, fun base => ?abx, fun base => ?aby,
    fun ptr => ?izx, fun ptr => ?izy⟩
  case abx =>
    dsimp only
    rw [List.append_assoc]
    exact storeIndexed_allRam h base s.x v
  case aby =>
    dsimp only
    rw [List.append_assoc]
    exact storeIndexed_allRam h base s.y v
  case izx => simp [writeMem, storeAddress, pointerIzx_allRam h, State.write_allRam, h, zeroPage]
  case izy =>
    have indexedStore := storeIndexed_allRam (s := (pointerIzy ptr s).2) (by rw [pointerIzy_allRam h]; exact h)
      (pointerIzy ptr s).1 s.y v
    rw [pointerIzy_allRam h] at indexedStore
    simpa [writeMem, storeAddress, pointerIzy_allRam h, zeroPage, indexed, unfixed] using indexedStore
  all_goals simp [writeMem, storeAddress, State.touch_allRam, State.write_allRam, h, zeroPage]

/-! ### Stores on any board -/

/-- The address cycles of a store change nothing that decides what answers. -/
theorem storeAddress_target (m : MemMode) (s : State) (addr : Addr) :
    (storeAddress m s).2.target addr = s.target addr :=
  State.target_congr (by simp) (by simp) (by simp) (by simp) addr

/-- A store to RAM is read back. -/
theorem holdsStores.read_one {s t : State} {addr : Addr} {v : Byte} (stored : holdsStores [(addr, v)] s t)
    (ram : s.target addr = .ram) (wf : s.mem.wf = true) : t.mem.read addr.toNat = v :=
  holdsStores.read_last (l := []) stored ram wf

/-- Of two stores to one RAM address the second is read back. -/
theorem holdsStores.read_second {s t : State} {addr : Addr} {v w : Byte}
    (stored : holdsStores [(addr, v), (addr, w)] s t) (ram : s.target addr = .ram) (wf : s.mem.wf = true) :
    t.mem.read addr.toNat = w := by
  refine holdsStores.read_last (l := [(addr, v)]) stored ?_ ?_
  · rw [List.foldl_cons, List.foldl_nil, State.accept_ram ram]
    exact ram
  · simpa [State.accept_ram ram] using Memory.write_wf addr.isLt wf

/-- Settles O12: the two stores and the bus by Laws/Stores.lean, the frame from the stores. -/
theorem modifyOperandCycles : Obligations.ModifyOperandCycles := by
  intro s m f
  obtain ⟨byte, stores⟩ := modifyMem_stores m f s
  refine ⟨byte, modifyMem_bus m f s, stores, stores.keepsMemoryBut.mono (by simp), fun ram wf => ⟨?_, ?_⟩⟩
  · rw [State.read_ram ((storeAddress_target m s _).trans ram)]
    simp
  · exact stores.read_second ram wf

end Sys2Proof.Machine
end

