-- ==== Sys2Proof/Proofs/Arithmetic.lean ====
section
/-! The arithmetic functions as numbers: the shifts (43_shift_incdec.md R280), ADC and SBC in both modes
(42_logic_arithmetic.md R250, R252). Bit 7 of a byte is a comparison with 128 throughout, and an OR of disjoint parts a
sum, so that linear arithmetic decides the rest. -/

namespace Sys2Proof.Machine

/-! ### Bytes as numbers -/

theorem byte_lt (v : Byte) : v.toNat < 256 := v.isLt

theorem bit7_eq (v : Byte) : v.getLsbD 7 = decide (128 ≤ v.toNat) := by
  have := BitVec.msb_eq_decide v
  rwa [BitVec.msb_eq_getLsbD_last] at this

theorem bit0_eq (v : Byte) : v.getLsbD 0 = decide (v.toNat % 2 = 1) := by
  rw [BitVec.getLsbD, Nat.testBit_zero]

theorem toInt_eq (v : Byte) : v.toInt = if 128 ≤ v.toNat then (v.toNat : Int) - 256 else v.toNat := by
  have := byte_lt v
  rw [BitVec.toInt_eq_toNat_cond]
  split <;> split <;> omega

theorem beq_zero_eq (v : Byte) : (v == 0) = decide (v.toNat = 0) := by
  rw [beq_eq_decide, decide_eq_decide, BitVec.toNat_eq]
  rfl

theorem eq_zero_eq (v : Byte) : decide (v = 0) = decide (v.toNat = 0) := by
  rw [← beq_eq_decide, beq_zero_eq]

theorem ofInt_toNat (t : Int) : ((BitVec.ofInt 8 t).toNat : Int) = t % 256 := by
  rw [BitVec.toNat_ofInt]
  omega

/-- A multiple of a power of two OR something below it is their sum. -/
theorem mul_or_eq_add (k a : Nat) {b : Nat} (h : b < 2 ^ k) : 2 ^ k * a ||| b = 2 ^ k * a + b :=
  (Nat.two_pow_add_eq_or_of_lt h a).symm

/-! ### Shifts -/

theorem asl_toNat (m : Byte) (c : Bool) : (asl m c).1.toNat = 2 * m.toNat % 256 := by
  rw [asl, BitVec.toNat_shiftLeft, Nat.shiftLeft_eq, Nat.mul_comm]

theorem rol_toNat (m : Byte) (c : Bool) : (rol m c).1.toNat = (2 * m.toNat + c.toNat) % 256 := by
  have hc := Bool.toNat_le c
  have even : m.toNat <<< 1 % 2 ^ 8 = 2 ^ 1 * (m.toNat % 128) := by rw [Nat.shiftLeft_eq]; omega
  rw [rol, BitVec.toNat_or, BitVec.toNat_shiftLeft, BitVec.toNat_ofNat, Nat.mod_eq_of_lt (a := c.toNat) (by omega), even,
    mul_or_eq_add 1 _ (by omega)]
  omega

theorem ror_toNat (m : Byte) (c : Bool) : (ror m c).1.toNat = m.toNat / 2 + 128 * c.toNat := by
  have hm := byte_lt m
  have hc := Bool.toNat_le c
  have low : m.toNat >>> 1 = m.toNat / 2 := by rw [Nat.shiftRight_eq_div_pow]
  rw [ror, BitVec.toNat_or, BitVec.toNat_ushiftRight, BitVec.toNat_ofNat, Nat.mod_eq_of_lt (by omega), low, Nat.or_comm,
    show 128 = 2 ^ 7 by rfl, mul_or_eq_add 7 _ (by omega)]
  omega

/-- Settles O16: the values by the three sums above and `lsr_toNat`, the carries by bits 7 and 0. -/
theorem shiftFunctions : Obligations.ShiftFunctions := fun m c =>
  ⟨asl_toNat m c, bit7_eq m, lsr_toNat m c, bit0_eq m, rol_toNat m c, bit7_eq m, ror_toNat m c, bit0_eq m⟩

/-! ### ADC -/

/-- The overflow of a sum by its top bits: both operands differ from the result there. -/
theorem add_overflow_bit (a s r : Byte) :
    ((a ^^^ r) &&& (s ^^^ r)).getLsbD 7 = true ↔
      (128 ≤ a.toNat ↔ ¬ 128 ≤ r.toNat) ∧ (128 ≤ s.toNat ↔ ¬ 128 ≤ r.toNat) := by
  rw [BitVec.getLsbD_and, BitVec.getLsbD_xor, BitVec.getLsbD_xor, bit7_eq, bit7_eq, bit7_eq, Bool.and_eq_true]
  by_cases ha : 128 ≤ a.toNat <;> by_cases hs : 128 ≤ s.toNat <;> by_cases hr : 128 ≤ r.toNat <;> simp [ha, hs, hr]

/-- Settles O13: `adc` is `adcBinary`, whose result is the sum modulo 256. -/
theorem binaryAdcIsTheSum : Obligations.BinaryAdcIsTheSum := by
  intro a v p binary
  have ha := byte_lt a
  have hv := byte_lt v
  have hc := Bool.toNat_le p.c
  simp only [adc, binary, adcBinary, Bool.false_eq_true, if_false]
  generalize result : BitVec.ofNat 8 (a.toNat + v.toNat + p.c.toNat) = r
  have sum : r.toNat = (a.toNat + v.toNat + p.c.toNat) % 256 := by rw [← result]; rfl
  refine ⟨?carry, by rw [beq_zero_eq, eq_zero_eq], bit7_eq r, ?overflow, trivial, trivial⟩
  case carry =>
    rw [sum]
    by_cases carry : 255 < a.toNat + v.toNat + p.c.toNat <;> simp [carry] <;> omega
  case overflow =>
    rw [add_overflow_bit, toInt_eq, toInt_eq, toInt_eq]
    split <;> split <;> split <;> omega

/-- N XOR-ed with a sign that must match: the overflow of the decimal sum as R250 states it. -/
theorem decide_ne_and_eq (n a v : Prop) [Decidable n] [Decidable a] [Decidable v] :
    decide (n ≠ a ∧ a = v) = ((decide n ^^ decide a) && !(decide a ^^ decide v)) := by
  by_cases n <;> by_cases a <;> by_cases v <;> simp [*]

/-- Bit 3 of a small number. -/
theorem testBit3_eq (n : Nat) : n.testBit 3 = decide (8 ≤ n % 16) := by
  rw [Nat.testBit_eq_decide_div_mod_eq, decide_eq_decide]
  omega

/-- Settles O14: the low digit carries where its sum passes 9, and every field of `adcDecimal` is then linear. -/
theorem decimalAdcAddsDigits : Obligations.DecimalAdcAddsDigits := by
  intro a v p decimal
  have ha := byte_lt a
  have hv := byte_lt v
  have hc := Bool.toNat_le p.c
  simp only [adc, decimal, adcDecimal, if_true]
  have lowCarry (low : Nat) : 15 < (if 9 < low then low + 6 else low) ↔ 9 < low := by split <;> omega
  simp only [lowCarry]
  generalize hlow : a.toNat % 16 + v.toNat % 16 + p.c.toNat = low
  generalize hmid : a.toNat / 16 + v.toNat / 16 + (if 9 < low then 1 else 0) = mid
  have midByte : (BitVec.ofNat 8 (mid * 16)).getLsbD 7 = decide (8 ≤ mid % 16) := by
    rw [bit7_eq, BitVec.toNat_ofNat, decide_eq_decide]
    omega
  refine ⟨?zero, testBit3_eq mid, ?overflow, trivial, ?value, trivial, trivial, fun ah al vh vl => ?digits⟩
  case zero => rw [beq_zero_eq, BitVec.toNat_ofNat]
  case overflow =>
    rw [BitVec.getLsbD_xor, BitVec.getLsbD_xor, midByte, bit7_eq, bit7_eq, decide_ne_and_eq]
  case value => rw [BitVec.toNat_ofNat, Nat.mul_comm]
  case digits =>
    have carryOut : (decide (9 < mid)).toNat = if 9 < mid then 1 else 0 := by split <;> simp [*]
    rw [BitVec.toNat_ofNat, carryOut]
    split_ifs at hmid ⊢ <;> omega

/-! ### SBC -/

/-- The overflow of a difference by its top bits: the operands differ there, and the result differs from the first. -/
theorem sub_overflow_bit (a s r : Byte) :
    ((a ^^^ s) &&& (a ^^^ r)).getLsbD 7 = true ↔
      (128 ≤ a.toNat ↔ ¬ 128 ≤ s.toNat) ∧ (128 ≤ a.toNat ↔ ¬ 128 ≤ r.toNat) := by
  rw [BitVec.getLsbD_and, BitVec.getLsbD_xor, BitVec.getLsbD_xor, bit7_eq, bit7_eq, bit7_eq, Bool.and_eq_true]
  by_cases ha : 128 ≤ a.toNat <;> by_cases hs : 128 ≤ s.toNat <;> by_cases hr : 128 ≤ r.toNat <;> simp [ha, hs, hr]

theorem ofInt_beq_zero (t : Int) : (BitVec.ofInt 8 t == 0) = decide (t % 256 = 0) := by
  have := ofInt_toNat t
  rw [beq_zero_eq, decide_eq_decide]
  omega

theorem ofInt_bit7 (t : Int) : (BitVec.ofInt 8 t).getLsbD 7 = decide (128 ≤ t % 256) := by
  have := ofInt_toNat t
  rw [bit7_eq, decide_eq_decide]
  omega

/-- Two digits in one byte: the upper one above the lower nybble of the lower one. -/
theorem ofInt_digits (high low : Int) :
    ((BitVec.ofInt 8 (high * 16) ||| (BitVec.ofInt 8 low &&& 0x0F)).toNat : Int) = (16 * high + low % 16) % 256 := by
  have hh := ofInt_toNat (high * 16)
  have hl := ofInt_toNat low
  have nybble : (BitVec.ofInt 8 low &&& 0x0F).toNat = (BitVec.ofInt 8 low).toNat % 16 := by
    rw [BitVec.toNat_and]
    exact Nat.and_two_pow_sub_one_eq_mod _ 4
  obtain ⟨q, hq⟩ : ∃ q, (BitVec.ofInt 8 (high * 16)).toNat = 2 ^ 4 * q :=
    ⟨(BitVec.ofInt 8 (high * 16)).toNat / 16, by omega⟩
  rw [BitVec.toNat_or, nybble, hq, mul_or_eq_add 4 q (by omega)]
  omega

/-- The decimal difference: the low digit borrows where it is negative, before and after its fixup alike. -/
theorem sbcDecimalValue_toNat (a s : Byte) (c : Bool) :
    let low : Int := (a.toNat % 16 : Nat) - (s.toNat % 16 : Nat) - (1 - c.toNat)
    let high : Int := (a.toNat / 16 : Nat) - (s.toNat / 16 : Nat) - (if low < 0 then 1 else 0)
    ((sbcDecimalValue a s c).toNat : Int) =
      (16 * (if high < 0 then high - 6 else high) + (if low < 0 then low - 6 else low) % 16) % 256 := by
  have borrow (low : Int) : (if low < 0 then low - 6 else low) < 0 ↔ low < 0 := by split <;> omega
  simp only [sbcDecimalValue, ofInt_digits, borrow]

/-- Two decimal digits less two others and a borrow: where a digit borrows, 6 less modulo 16 is 10 more. -/
theorem decimal_difference {ah al vh vl b : Int} (hah : 0 ≤ ah ∧ ah < 10) (hal : 0 ≤ al ∧ al < 10)
    (hvh : 0 ≤ vh ∧ vh < 10) (hvl : 0 ≤ vl ∧ vl < 10) (hb : 0 ≤ b ∧ b ≤ 1) :
    let low := al - vl - b
    let high := ah - vh - (if low < 0 then 1 else 0)
    let r := (16 * (if high < 0 then high - 6 else high) + (if low < 0 then low - 6 else low) % 16) % 256
    10 * (r / 16) + r % 16 = (10 * ah + al - (10 * vh + vl) - b) % 100 := by
  intro low high r
  obtain ⟨lowDigit, hlow⟩ : ∃ d, (if low < 0 then low - 6 else low) % 16 = d ∧ 0 ≤ d ∧ d < 10 ∧
      d = low + 10 * (if low < 0 then 1 else 0) := by
    refine ⟨_, rfl, ?_⟩
    split <;> omega
  obtain ⟨highDigit, hhigh⟩ : ∃ d, r = 16 * d + lowDigit ∧ 0 ≤ d ∧ d < 10 ∧
      d = high + 10 * (if high < 0 then 1 else 0) := by
    refine ⟨high + 10 * (if high < 0 then 1 else 0), ?_⟩
    simp only [r, hlow.1]
    split <;> split at hlow <;> simp_all [high] <;> omega
  have digits : r / 16 = highDigit ∧ r % 16 = lowDigit := by omega
  rw [digits.1, digits.2]
  split at hlow <;> split at hhigh <;> simp_all [high] <;> omega

/-- Settles O15: the flags from the difference modulo 256, the digits by `ofInt_digits`. -/
theorem sbcSubtractsWithBinaryFlags : Obligations.SbcSubtractsWithBinaryFlags := by
  intro a v p
  have ha := byte_lt a
  have hv := byte_lt v
  have hc := Bool.toNat_le p.c
  simp only [sbc, sbcFlags, sbcDifference]
  have difference := ofInt_toNat ((a.toNat : Int) - v.toNat - (1 - p.c.toNat))
  have decimalValue := sbcDecimalValue_toNat a v p.c
  refine ⟨rfl, ofInt_beq_zero _, ofInt_bit7 _, ?overflow, trivial, trivial, fun binary => ?binary,
    fun decimal => ?decimal, fun decimal ah al vh vl => ?digits⟩
  case overflow =>
    rw [sub_overflow_bit, toInt_eq, toInt_eq, toInt_eq]
    split <;> split <;> split <;> omega
  case binary => simpa [binary] using difference
  case decimal => simpa [decimal] using decimalValue
  case digits =>
    simp only [decimal, if_true, decimalValue]
    exact decimal_difference (by omega) (by omega) (by omega) (by omega) (by omega)

end Sys2Proof.Machine
end

