-- ==== Sys2Proof/Proofs/ReadInstructions.lean ====
section
/-! The instructions that read an operand and change registers and flags alone: loads, logic, BIT, ADC, SBC, the
compares, the NOPs and LAS (41_load_store_transfer.md, 42_logic_arithmetic.md, 46_undocumented_stable.md). Each is the
shared operation that `exec_read` names. -/

namespace Sys2Proof.Machine

/-- What a load leaves, for each register it can go to. -/
theorem load_spec (put : State → Byte → State) (o : Source) (s : State)
    (register : put = State.setA ∨ put = State.setX ∨ put = State.setY ∨ put = putAX) :
    let v := (readOperand o s).1
    ∃ t, loadWith put o s = .next t ∧ t.a = (put s v).a ∧ t.x = (put s v).x ∧ t.y = (put s v).y ∧
      t.p = { s.p with n := v.getLsbD 7, z := v == 0 } ∧ t.sp = s.sp ∧ t.pc = s.pc ∧
      keepsMemory s t ∧ keepsRest s t ∧ t.bus = (readOperand o s).2.bus := by
  obtain rfl | rfl | rfl | rfl := register <;>
    exact ⟨_, rfl, by simp [putAX, Flags.withNZ, keepsMemory, keepsRest]⟩

/-- Settles O17: each mnemonic is `loadWith` of its register. -/
theorem loadsTakeTheOperand : Obligations.LoadsTakeTheOperand := by
  intro i s load
  obtain ⟨o, operand, meaning⟩ := exec_read i
    ((by decide : ∀ m ∈ [Mnemonic.lda, .ldx, .ldy, .lax], readsOperand m = true) _ load)
  simp only [List.mem_cons, List.not_mem_nil, or_false] at load
  refine ⟨o, ?_⟩
  obtain m | m | m | m := load <;> rw [m] at meaning
  · obtain ⟨t, next, fields⟩ := load_spec State.setA o s (by simp)
    exact ⟨t, operand, (meaning s).trans next, by simpa [m] using fields⟩
  · obtain ⟨t, next, fields⟩ := load_spec State.setX o s (by simp)
    exact ⟨t, operand, (meaning s).trans next, by simpa [m] using fields⟩
  · obtain ⟨t, next, fields⟩ := load_spec State.setY o s (by simp)
    exact ⟨t, operand, (meaning s).trans next, by simpa [m] using fields⟩
  · obtain ⟨t, next, fields⟩ := load_spec putAX o s (by simp)
    exact ⟨t, operand, (meaning s).trans next, by simpa [m, putAX] using fields⟩

/-- What a logic operation leaves. -/
theorem logicWith_spec (f : Byte → Byte → Byte) (o : Source) (s : State) :
    let r := f s.a (readOperand o s).1
    ∃ t, logicWith f o s = .next t ∧ t.a = r ∧ t.p = { s.p with n := r.getLsbD 7, z := r == 0 } ∧
      t.x = s.x ∧ t.y = s.y ∧ t.sp = s.sp ∧ t.pc = s.pc ∧ keepsMemory s t ∧ keepsRest s t ∧
      t.bus = (readOperand o s).2.bus :=
  ⟨_, rfl, by simp [Flags.withNZ, keepsMemory, keepsRest]⟩

/-- Settles O20: each mnemonic is `logicWith` of its function. -/
theorem logicCombinesA : Obligations.LogicCombinesA := by
  intro i s logic
  obtain ⟨o, operand, meaning⟩ := exec_read i
    ((by decide : ∀ m ∈ [Mnemonic.and, .ora, .eor], readsOperand m = true) _ logic)
  simp only [List.mem_cons, List.not_mem_nil, or_false] at logic
  refine ⟨o, ?_⟩
  obtain m | m | m := logic <;> rw [m] at meaning
  · obtain ⟨t, next, fields⟩ := logicWith_spec (· &&& ·) o s
    exact ⟨t, operand, (meaning s).trans next, by simpa [m] using fields⟩
  · obtain ⟨t, next, fields⟩ := logicWith_spec (· ||| ·) o s
    exact ⟨t, operand, (meaning s).trans next, by simpa [m] using fields⟩
  · obtain ⟨t, next, fields⟩ := logicWith_spec (· ^^^ ·) o s
    exact ⟨t, operand, (meaning s).trans next, by simpa [m] using fields⟩

/-- What BIT leaves. -/
theorem bitTest_spec (o : Source) (s : State) :
    let v := (readOperand o s).1
    ∃ t, bitTest o s = .next t ∧ t.p = { s.p with n := v.getLsbD 7, v := v.getLsbD 6, z := s.a &&& v == 0 } ∧
      keepsRegisters s t ∧ t.pc = s.pc ∧ keepsMemory s t ∧ keepsRest s t ∧ t.bus = (readOperand o s).2.bus :=
  ⟨_, rfl, by simp [bitFlags, keepsRegisters, keepsMemory, keepsRest]⟩

/-- Settles O21: BIT is `bitTest`. -/
theorem bitTestsTheOperand : Obligations.BitTestsTheOperand := by
  intro i s m
  obtain ⟨o, operand, meaning⟩ := exec_read i (by rw [m]; rfl)
  rw [m] at meaning
  obtain ⟨t, next, fields⟩ := bitTest_spec o s
  exact ⟨o, t, operand, (meaning s).trans next, fields⟩

/-- ADC leaves D and I alone in both modes. -/
theorem adc_keeps (a v : Byte) (p : Flags) : (adc a v p).2.d = p.d ∧ (adc a v p).2.i = p.i := by
  unfold adc
  split <;> exact ⟨rfl, rfl⟩

/-- SBC leaves D and I alone in both modes. -/
theorem sbc_keeps (a v : Byte) (p : Flags) : (sbc a v p).2.d = p.d ∧ (sbc a v p).2.i = p.i := ⟨rfl, rfl⟩

/-- What an addition or a subtraction leaves. -/
theorem arithWith_spec (f : Byte → Byte → Flags → Byte × Flags) (o : Source) (s : State) :
    let r := f s.a (readOperand o s).1 s.p
    ∃ t, arithWith f o s = .next t ∧ t.a = r.1 ∧ t.p = r.2 ∧ t.x = s.x ∧ t.y = s.y ∧ t.sp = s.sp ∧ t.pc = s.pc ∧
      keepsMemory s t ∧ keepsRest s t ∧ t.bus = (readOperand o s).2.bus :=
  ⟨_, rfl, by simp [keepsMemory, keepsRest]⟩

/-- Settles O22: each mnemonic is `arithWith` of its function, which leaves D and I alone. -/
theorem adcAndSbcApplyTheirFunctions : Obligations.AdcAndSbcApplyTheirFunctions := by
  intro i s arith
  obtain ⟨o, operand, meaning⟩ := exec_read i
    ((by decide : ∀ m ∈ [Mnemonic.adc, .sbc], readsOperand m = true) _ arith)
  simp only [List.mem_cons, List.not_mem_nil, or_false] at arith
  refine ⟨o, ?_⟩
  obtain m | m := arith <;> rw [m] at meaning
  · obtain ⟨t, next, a, p, fields⟩ := arithWith_spec adc o s
    obtain ⟨d, i⟩ := adc_keeps s.a (readOperand o s).1 s.p
    exact ⟨t, operand, (meaning s).trans next, by simpa [m, a, p, d, i] using fields⟩
  · obtain ⟨t, next, a, p, fields⟩ := arithWith_spec sbc o s
    obtain ⟨d, i⟩ := sbc_keeps s.a (readOperand o s).1 s.p
    exact ⟨t, operand, (meaning s).trans next, by simpa [m, a, p, d, i] using fields⟩

/-- The flags of a comparison: Z says that the two are equal. -/
theorem compare_flags (r v : Byte) (p : Flags) :
    (compare r v p).2 = { p with n := (r - v).getLsbD 7, z := decide (r = v), c := decide (v.toNat ≤ r.toNat) } := by
  have zero : (r - v == 0) = decide (r = v) := by
    rw [beq_eq_decide, decide_eq_decide]
    exact BitVec.sub_eq_iff_eq_add.trans (by rw [BitVec.ofNat_eq_ofNat, BitVec.zero_add])
  rw [compare, zero]

/-- What a comparison leaves. -/
theorem compareWith_spec (r : Byte) (o : Source) (s : State) :
    ∃ t, compareWith r o s = .next t ∧ t.p = (compare r (readOperand o s).1 s.p).2 ∧ keepsRegisters s t ∧
      t.pc = s.pc ∧ keepsMemory s t ∧ keepsRest s t ∧ t.bus = (readOperand o s).2.bus :=
  ⟨_, rfl, by simp [keepsRegisters, keepsMemory, keepsRest]⟩

/-- Settles O23: each mnemonic is `compareWith` of its register. -/
theorem comparesSetFlagsAlone : Obligations.ComparesSetFlagsAlone := by
  intro i s compares
  obtain ⟨o, operand, meaning⟩ := exec_read i
    ((by decide : ∀ m ∈ [Mnemonic.cmp, .cpx, .cpy], readsOperand m = true) _ compares)
  simp only [List.mem_cons, List.not_mem_nil, or_false] at compares
  refine ⟨o, ?_⟩
  obtain m | m | m := compares <;> rw [m] at meaning
  · obtain ⟨t, next, fields⟩ := compareWith_spec s.a o s
    exact ⟨t, operand, (meaning s).trans next, by simpa [m, compare_flags] using fields⟩
  · obtain ⟨t, next, fields⟩ := compareWith_spec s.x o s
    exact ⟨t, operand, (meaning s).trans next, by simpa [m, compare_flags] using fields⟩
  · obtain ⟨t, next, fields⟩ := compareWith_spec s.y o s
    exact ⟨t, operand, (meaning s).trans next, by simpa [m, compare_flags] using fields⟩

/-! ### NOP and LAS -/

/-- The NOPs, but for the three that may jam. -/
def idles : Instr → Bool
  | .nopImm82 _ | .nopImmC2 _ | .nopImmE2 _ => false
  | i => i.mnemonic == .nop

/-- A NOP has no operand, or reads the one it has. -/
theorem exec_idle (i : Instr) : idles i = true →
    (i.operand = .implied ∧ ∀ s, exec i s = idle s) ∨ ∃ o, i.operand = .source o ∧ ∀ s, exec i s = idleRead o s := by
  cases i <;> first
    | exact fun h => absurd h Bool.false_ne_true
    | exact fun _ => .inl ⟨rfl, fun _ => rfl⟩
    | exact fun _ => .inr ⟨_, rfl, fun _ => rfl⟩

/-- Settles O37: the two kinds of NOP by `exec_idle`, each of which reads and does nothing else. -/
theorem nopsOnlyRead : Obligations.NopsOnlyRead := by
  intro i s nop ordinary
  have idle : idles i = true := by
    unfold idles
    split
    · exact absurd rfl (ordinary _).1
    · exact absurd rfl (ordinary _).2.1
    · exact absurd rfl (ordinary _).2.2
    · rw [nop]; rfl
  obtain ⟨implied, meaning⟩ | ⟨o, operand, meaning⟩ := exec_idle i idle
  · exact ⟨_, meaning s, by simp [implied, keepsRegisters, keepsMemory, keepsRest]⟩
  · exact ⟨_, meaning s, by simp [operand, keepsRegisters, keepsMemory, keepsRest]⟩

/-- Settles O48: the operand is read, and its AND with S goes into the three registers. -/
theorem lasLoadsThreeRegisters : Obligations.LasLoadsThreeRegisters :=
  fun _ _ => ⟨_, rfl, by simp [putAX, Flags.withNZ, keepsMemory, keepsRest]⟩

end Sys2Proof.Machine
end

