-- ==== Sys2Proof/Proofs/StoreInstructions.lean ====
section
/-! The instructions that store to memory: stores, shifts and counts of memory, their combinations with arithmetic on A,
and the SHA family (41_load_store_transfer.md, 43_shift_incdec.md, 46_undocumented_stable.md,
47_undocumented_unusual.md). Laws/Shared.lean says what each shared operation leaves; here the mnemonics are matched to
them. -/

namespace Sys2Proof.Machine

/-- What a store leaves, its byte read back from RAM included. -/
theorem storeValue_full (v : Byte) (m : MemMode) (s : State) :
    let ea := (storeAddress m s).1
    ∃ t, storeValue v m s = .next t ∧ keepsRegisters s t ∧ t.p = s.p ∧ t.pc = s.pc ∧ keepsRest s t ∧
      holdsStores [(ea, v)] s t ∧ keepsMemoryBut [ea] s t ∧
      (s.target ea = .ram → s.mem.wf = true → t.mem.read ea.toNat = v) ∧
      t.bus = (storeAddress m s).2.bus ++ [.write ea v] := by
  obtain ⟨t, next, registers, p, pc, rest, stores, frame, bus⟩ := storeValue_spec v m s
  exact ⟨t, next, registers, p, pc, rest, stores, frame, stores.read_one, bus⟩

/-- Settles O18: each mnemonic is `storeValue` of its register. -/
theorem storesWriteTheRegister : Obligations.StoresWriteTheRegister := by
  intro i s store
  obtain ⟨o, operand, meaning⟩ := exec_store i
    ((by decide : ∀ m ∈ [Mnemonic.sta, .stx, .sty, .sax], storesOperand m = true) _ store)
  simp only [List.mem_cons, List.not_mem_nil, or_false] at store
  refine ⟨o, ?_⟩
  obtain m | m | m | m := store <;> rw [m] at meaning ⊢
  · obtain ⟨t, next, fields⟩ := storeValue_full s.a o s
    exact ⟨t, operand, (meaning s).trans next, fields⟩
  · obtain ⟨t, next, fields⟩ := storeValue_full s.x o s
    exact ⟨t, operand, (meaning s).trans next, fields⟩
  · obtain ⟨t, next, fields⟩ := storeValue_full s.y o s
    exact ⟨t, operand, (meaning s).trans next, fields⟩
  · obtain ⟨t, next, fields⟩ := storeValue_full (s.a &&& s.x) o s
    exact ⟨t, operand, (meaning s).trans next, fields⟩

/-- A shift with a memory operand is one of `exec_shift`. -/
theorem shiftsMemory_of_operand {i : Instr} {m : MemMode} (shift : i.mnemonic ∈ [Mnemonic.asl, .lsr, .rol, .ror])
    (operand : i.operand = .source (.mem m)) : shiftsMemory i = true := by
  simp only [List.mem_cons, List.not_mem_nil, or_false] at shift
  obtain h | h | h | h := shift <;> rw [shiftsMemory, h, operand]

/-- Settles O24: each mnemonic is `shiftMem` of its function. -/
theorem memoryShifts : Obligations.MemoryShifts := by
  intro i s m shift operand
  obtain ⟨o, operand', meaning⟩ := exec_shift i (shiftsMemory_of_operand shift operand)
  obtain rfl : o = m := by simpa [operand] using operand'.symm
  simp only [List.mem_cons, List.not_mem_nil, or_false] at shift
  obtain h | h | h | h := shift <;> rw [h] at meaning ⊢
  · obtain ⟨t, next, fields⟩ := shiftMem_spec asl o s
    exact ⟨t, (meaning s).trans next, fields⟩
  · obtain ⟨t, next, fields⟩ := shiftMem_spec lsr o s
    exact ⟨t, (meaning s).trans next, fields⟩
  · obtain ⟨t, next, fields⟩ := shiftMem_spec rol o s
    exact ⟨t, (meaning s).trans next, fields⟩
  · obtain ⟨t, next, fields⟩ := shiftMem_spec ror o s
    exact ⟨t, (meaning s).trans next, fields⟩

/-- Settles O26: each mnemonic is `countMem` of its function. -/
theorem memoryCounts : Obligations.MemoryCounts := by
  intro i s count
  obtain ⟨o, operand, meaning⟩ := exec_store i
    ((by decide : ∀ m ∈ [Mnemonic.inc, .dec], storesOperand m = true) _ count)
  simp only [List.mem_cons, List.not_mem_nil, or_false] at count
  refine ⟨o, ?_⟩
  obtain m | m := count <;> rw [m] at meaning ⊢
  · obtain ⟨t, next, fields⟩ := countMem_spec (· + 1) o s
    exact ⟨t, operand, (meaning s).trans next, fields⟩
  · obtain ⟨t, next, fields⟩ := countMem_spec (· - 1) o s
    exact ⟨t, operand, (meaning s).trans next, fields⟩

/-- Settles O40: each mnemonic is `shiftLogic` of its two functions. -/
theorem shiftThenLogic : Obligations.ShiftThenLogic := by
  intro i s combined
  obtain ⟨o, operand, meaning⟩ := exec_store i
    ((by decide : ∀ m ∈ [Mnemonic.slo, .rla, .sre], storesOperand m = true) _ combined)
  simp only [List.mem_cons, List.not_mem_nil, or_false] at combined
  refine ⟨o, ?_⟩
  obtain m | m | m := combined <;> rw [m] at meaning ⊢
  · obtain ⟨t, next, fields⟩ := shiftLogic_spec asl (· ||| ·) o s
    exact ⟨t, operand, (meaning s).trans next, fields⟩
  · obtain ⟨t, next, fields⟩ := shiftLogic_spec rol (· &&& ·) o s
    exact ⟨t, operand, (meaning s).trans next, fields⟩
  · obtain ⟨t, next, fields⟩ := shiftLogic_spec lsr (· ^^^ ·) o s
    exact ⟨t, operand, (meaning s).trans next, fields⟩

/-- Settles O41: the three mnemonics by what `rotateAdd`, `incSubtract` and `decCompare` leave. -/
theorem modifyThenArithmetic : Obligations.ModifyThenArithmetic := by
  intro i s combined
  obtain ⟨o, operand, meaning⟩ := exec_store i
    ((by decide : ∀ m ∈ [Mnemonic.rra, .isb, .dcp], storesOperand m = true) _ combined)
  simp only [List.mem_cons, List.not_mem_nil, or_false] at combined
  refine ⟨o, ?_⟩
  obtain m | m | m := combined <;> rw [m] at meaning ⊢
  · obtain ⟨t, next, a, p, fields⟩ := rotateAdd_spec o s
    obtain ⟨d, i⟩ := adc_keeps s.a (ror ((storeAddress o s).2.read (storeAddress o s).1).1 s.p.c).1
      { s.p with c := (ror ((storeAddress o s).2.read (storeAddress o s).1).1 s.p.c).2 }
    exact ⟨t, operand, (meaning s).trans next, fun _ => ⟨a, p⟩, nofun, nofun, p ▸ d, p ▸ i, fields⟩
  · obtain ⟨t, next, a, p, fields⟩ := incSubtract_spec o s
    exact ⟨t, operand, (meaning s).trans next, nofun, fun _ => ⟨a, p⟩, nofun, p ▸ rfl, p ▸ rfl, fields⟩
  · obtain ⟨t, next, p, ⟨a, x, y, sp⟩, pc, fields⟩ := decCompare_spec o s
    exact ⟨t, operand, (meaning s).trans next, nofun, nofun, fun _ => ⟨a, p.trans (compare_flags ..)⟩,
      p ▸ rfl, p ▸ rfl, x, y, sp, pc, fields⟩

/-! ### The SHA family -/

/-- Where the SHA family stores, as the rule writes it (R420). -/
theorem highAddress_eq (base : Addr) (index reg : Byte) :
    highAddress base index reg = if 255 < (lo base).toNat + index.toNat then w16 (reg &&& (hi base + 1)) (lo base + index)
      else base + index.setWidth 16 := by
  simp [highAddress, crosses, highAnd, indexed]

/-- What states with one store hold of a list of stores is the same. -/
theorem holdsStores.of_store {l : List (Addr × Byte)} {s u t : State} (stored : holdsStores l u t)
    (same : u.store = s.store) : holdsStores l s t := by
  obtain ⟨-, -, hd, hp, hm, hc⟩ := State.store_eq.mp (foldl_accept_congr same l)
  exact ⟨stored.1.trans hm, stored.2.1.trans hc, stored.2.2.1.trans hd, stored.2.2.2.trans hp⟩

/-- What a store of the SHA family leaves, begun in a state `u` that differs from `s` by reads made and S. -/
theorem storeHigh_spec {s u : State} (base : Addr) (index reg : Byte) (same : u.store = s.store)
    (kept : u.a = s.a ∧ u.x = s.x ∧ u.y = s.y ∧ u.p = s.p ∧ u.pc = s.pc ∧ keepsRest s u) :
    let d := reg &&& (hi base + 1)
    let ea := if 255 < (lo base).toNat + index.toNat then w16 d (lo base + index) else base + index.setWidth 16
    let wrong := w16 (hi base) (lo base + index)
    let t := storeHigh base index reg u
    t.a = s.a ∧ t.x = s.x ∧ t.y = s.y ∧ t.p = s.p ∧ t.pc = s.pc ∧ t.sp = u.sp ∧ keepsRest s t ∧
      holdsStores [(ea, d)] s t ∧ keepsMemoryBut [ea] s t ∧
      (s.target ea = .ram → s.mem.wf = true → t.mem.read ea.toNat = d) ∧
      t.bus = u.bus ++ [.read wrong (u.answer wrong).1, .write ea d] := by
  obtain ⟨a, x, y, p, pc, rest⟩ := kept
  have stores := (storeHigh_stores base index reg u).of_store same
  have bus : (storeHigh base index reg u).bus = u.bus ++ [.read (unfixed base index) (u.answer (unfixed base index)).1,
      .write (highAddress base index reg) (highAnd base reg)] := by simp [storeHigh]
  rw [highAddress_eq] at stores bus
  refine ⟨by simpa using a, by simpa using x, by simpa using y, by simpa using p, by simpa using pc, by simp, ?_, stores,
    stores.keepsMemoryBut, stores.read_one, bus⟩
  simpa [keepsRest] using rest

/-- Settles O47: every row is `storeHigh`, of the state after the pointer cycles for `(zp),Y`, of that with the new S for
SHS. -/
theorem shaFamilyStores : Obligations.ShaFamilyStores := by
  intro i s base index reg ptr addr row
  simp only [List.mem_cons, List.not_mem_nil, or_false, Prod.mk.injEq] at row
  obtain ⟨rfl, rfl, rfl, rfl⟩ | ⟨rfl, rfl, rfl, rfl⟩ | ⟨rfl, rfl, rfl, rfl⟩ | ⟨rfl, rfl, rfl, rfl⟩ |
    ⟨rfl, rfl, rfl, rfl⟩ := row
  all_goals simp only [reduceCtorEq, if_true, if_false]
  case inr.inr.inr.inl =>
    have answer (a : Addr) : ((s.setSp (s.a &&& s.x)).answer a).1 = (s.answer a).1 :=
      State.answer_congr (s := s) (t := s.setSp (s.a &&& s.x)) rfl rfl rfl rfl rfl rfl rfl rfl a
    have fields := storeHigh_spec (s := s) (u := s.setSp (s.a &&& s.x)) base s.y (s.a &&& s.x) rfl
      (by simp [keepsRest])
    simp only [answer] at fields
    exact ⟨_, rfl, fields⟩
  case inr.inr.inr.inr =>
    have fields := storeHigh_spec (pointerIzy ptr s).1 s.y (s.a &&& s.x) (pointerIzy_store ptr s)
      (by simp [keepsRest])
    rw [show (pointerIzy ptr s).2.sp = s.sp by simp] at fields
    exact ⟨_, rfl, fields⟩
  all_goals exact ⟨_, rfl, storeHigh_spec _ _ _ rfl (by simp [keepsRest])⟩

end Sys2Proof.Machine
end

