-- ==== Sys2Proof/Proofs/ImpliedInstructions.lean ====
section
/-! The instructions without an operand that work on registers and flags: transfers, counts, shifts of A, the flag
instructions, and the jams (41_load_store_transfer.md, 43_shift_incdec.md, 45_stack_flags_system.md,
46_undocumented_stable.md). Each makes the dummy read of `Implied()` and an update of registers. -/

namespace Sys2Proof.Machine

/-- What a transfer or a count leaves: N, Z and the register that `put` writes are new, and PC has been read. -/
theorem transferWith_spec (put : State → Byte → State) (v : Byte) (s : State)
    (register : put = State.setA ∨ put = State.setX ∨ put = State.setY) :
    ∃ t, transferWith put v s = .next t ∧ t.a = (put s v).a ∧ t.x = (put s v).x ∧ t.y = (put s v).y ∧
      t.p = { s.p with n := v.getLsbD 7, z := v == 0 } ∧ t.sp = s.sp ∧ t.pc = s.pc ∧ keepsMemory s t ∧ keepsRest s t ∧
      t.bus = s.bus ++ [.read s.pc (s.answer s.pc).1] := by
  obtain rfl | rfl | rfl := register <;>
    exact ⟨_, rfl, by simp [Flags.withNZ, keepsMemory, keepsRest]⟩

/-- Settles O19: TXS by its one update, the others as `transferWith` of their register and value. -/
theorem transfersMoveRegisters : Obligations.TransfersMoveRegisters := by
  intro i op s row
  simp only [List.mem_cons, List.not_mem_nil, or_false, Prod.mk.injEq] at row
  obtain ⟨rfl, rfl⟩ | ⟨rfl, rfl⟩ | ⟨rfl, rfl⟩ | ⟨rfl, rfl⟩ | ⟨rfl, rfl⟩ | ⟨rfl, rfl⟩ := row
  · obtain ⟨t, next, fields⟩ := transferWith_spec State.setX s.a s (by simp)
    exact ⟨rfl, rfl, t, next, by simpa [and_assoc, and_left_comm] using fields⟩
  · obtain ⟨t, next, fields⟩ := transferWith_spec State.setY s.a s (by simp)
    exact ⟨rfl, rfl, t, next, by simpa [and_assoc, and_left_comm] using fields⟩
  · obtain ⟨t, next, fields⟩ := transferWith_spec State.setA s.x s (by simp)
    exact ⟨rfl, rfl, t, next, by simpa [and_assoc, and_left_comm] using fields⟩
  · obtain ⟨t, next, fields⟩ := transferWith_spec State.setA s.y s (by simp)
    exact ⟨rfl, rfl, t, next, by simpa [and_assoc, and_left_comm] using fields⟩
  · obtain ⟨t, next, fields⟩ := transferWith_spec State.setX s.sp s (by simp)
    exact ⟨rfl, rfl, t, next, by simpa [and_assoc, and_left_comm] using fields⟩
  · exact ⟨rfl, rfl, _, rfl, by simp [keepsMemory, keepsRest]⟩

/-- Settles O27: each of the four is `transferWith` of its register, one up or down. -/
theorem indexCounts : Obligations.IndexCounts := by
  intro i op s row
  simp only [List.mem_cons, List.not_mem_nil, or_false, Prod.mk.injEq] at row
  obtain ⟨rfl, rfl⟩ | ⟨rfl, rfl⟩ | ⟨rfl, rfl⟩ | ⟨rfl, rfl⟩ := row
  · obtain ⟨t, next, a, x, y, p, fields⟩ := transferWith_spec State.setX (s.x + 1) s (by simp)
    exact ⟨rfl, rfl, t, next, x, y, p, a, fields⟩
  · obtain ⟨t, next, a, x, y, p, fields⟩ := transferWith_spec State.setY (s.y + 1) s (by simp)
    exact ⟨rfl, rfl, t, next, x, y, p, a, fields⟩
  · obtain ⟨t, next, a, x, y, p, fields⟩ := transferWith_spec State.setX (s.x - 1) s (by simp)
    exact ⟨rfl, rfl, t, next, x, y, p, a, fields⟩
  · obtain ⟨t, next, a, x, y, p, fields⟩ := transferWith_spec State.setY (s.y - 1) s (by simp)
    exact ⟨rfl, rfl, t, next, x, y, p, a, fields⟩

/-- What a shift of A leaves. -/
theorem shiftAcc_spec (f : Byte → Bool → Byte × Bool) (s : State) :
    let r := f s.a s.p.c
    ∃ t, shiftAcc f s = .next t ∧ t.a = r.1 ∧ t.p = { s.p with n := r.1.getLsbD 7, z := r.1 == 0, c := r.2 } ∧
      t.x = s.x ∧ t.y = s.y ∧ t.sp = s.sp ∧ t.pc = s.pc ∧ keepsMemory s t ∧ keepsRest s t ∧
      t.bus = s.bus ++ [.read s.pc (s.answer s.pc).1] :=
  ⟨_, rfl, by simp [Flags.withNZ, Flags.withC, keepsMemory, keepsRest]⟩

/-- Settles O25: each of the four is `shiftAcc` of its function. -/
theorem accumulatorShifts : Obligations.AccumulatorShifts := by
  intro i s shift
  simp only [List.mem_cons, List.not_mem_nil, or_false] at shift
  obtain rfl | rfl | rfl | rfl := shift
  · exact shiftAcc_spec asl s
  · exact shiftAcc_spec lsr s
  · exact shiftAcc_spec rol s
  · exact shiftAcc_spec ror s

/-- What a change of flags leaves. -/
theorem changeFlags_spec (f : Flags → Flags) (s : State) :
    ∃ t, changeFlags f s = .next t ∧ t.p = f s.p ∧ keepsRegisters s t ∧ t.pc = s.pc ∧ keepsMemory s t ∧ keepsRest s t ∧
      t.bus = s.bus ++ [.read s.pc (s.answer s.pc).1] :=
  ⟨_, rfl, by simp [keepsRegisters, keepsMemory, keepsRest]⟩

/-- Settles O36: each of the seven is `changeFlags` of one flag. -/
theorem flagInstructionsSetOneFlag : Obligations.FlagInstructionsSetOneFlag := by
  intro i op p s row
  simp only [List.mem_cons, List.not_mem_nil, or_false, Prod.mk.injEq] at row
  obtain ⟨rfl, rfl, rfl⟩ | ⟨rfl, rfl, rfl⟩ | ⟨rfl, rfl, rfl⟩ | ⟨rfl, rfl, rfl⟩ | ⟨rfl, rfl, rfl⟩ | ⟨rfl, rfl, rfl⟩ |
    ⟨rfl, rfl, rfl⟩ := row
  · exact ⟨rfl, rfl, changeFlags_spec (fun p => { p with c := false }) s⟩
  · exact ⟨rfl, rfl, changeFlags_spec (fun p => { p with c := true }) s⟩
  · exact ⟨rfl, rfl, changeFlags_spec (fun p => { p with i := false }) s⟩
  · exact ⟨rfl, rfl, changeFlags_spec (fun p => { p with i := true }) s⟩
  · exact ⟨rfl, rfl, changeFlags_spec (fun p => { p with v := false }) s⟩
  · exact ⟨rfl, rfl, changeFlags_spec (fun p => { p with d := false }) s⟩
  · exact ⟨rfl, rfl, changeFlags_spec (fun p => { p with d := true }) s⟩

/-! ### Jams -/

/-- What $82, $C2 and $E2 leave: a draw decides the jam, and nothing else changes. -/
theorem idleOrJam_spec (s : State) :
    ∃ t, idleOrJam s = .next t ∧ keepsRegisters s t ∧ t.p = s.p ∧ t.pc = s.pc ∧ keepsMemory s t ∧
      (t.jammed = true ∨ t.jammed = s.jammed) ∧ t.nmiPending = s.nmiPending ∧ t.inputs = s.inputs ∧
      t.board = s.board ∧ t.bus = s.bus := by
  refine ⟨_, rfl, ?_⟩
  cases s.drawBool.1 <;> simp [keepsRegisters, keepsMemory]

/-- Settles O38: each of the three is `idleOrJam`. -/
theorem rareJamsOrNothing : Obligations.RareJamsOrNothing := by
  intro i s v rare
  simp only [List.mem_cons, List.not_mem_nil, or_false] at rare
  obtain rfl | rfl | rfl := rare <;> exact idleOrJam_spec s

/-- What a jam leaves. -/
theorem State.jam_spec (s : State) :
    s.jam.jammed = true ∧ keepsRegisters s s.jam ∧ s.jam.p = s.p ∧ keepsMemory s s.jam ∧
      s.jam.nmiPending = s.nmiPending ∧ s.jam.inputs = s.inputs ∧ s.jam.board = s.board := by
  simp [keepsRegisters, keepsMemory]

/-- Settles O39: each of the twelve opcodes decodes to an instruction that is `jam`. -/
theorem jamOpcodesJam : Obligations.JamOpcodesJam := by
  intro op jam
  simp only [List.mem_cons, List.not_mem_nil, or_false] at jam
  obtain rfl | rfl | rfl | rfl | rfl | rfl | rfl | rfl | rfl | rfl | rfl | rfl := jam <;>
    exact ⟨_, rfl, rfl, rfl, fun s => ⟨s.jam, rfl, s.jam_spec⟩⟩

end Sys2Proof.Machine
end

