-- ==== Sys2Proof/Proofs/ControlAndStack.lean ====
section
/-! Branches, calls, returns and the stack (44_control_flow.md, 45_stack_flags_system.md, 60_exceptions.md R522, R531).
The stack is RAM on every platform, so that what is pushed and pulled is memory at $0100 + S. -/

namespace Sys2Proof.Machine

/-! ### Branches -/

def branches : Mnemonic → Bool
  | .bpl | .bmi | .bvc | .bvs | .bcc | .bcs | .bne | .beq => true
  | _ => false

/-- The opcodes of the branches (30_encoding.md R104). -/
def branchOpcode : Mnemonic → Byte
  | .bpl => 0x10
  | .bmi => 0x30
  | .bvc => 0x50
  | .bvs => 0x70
  | .bcc => 0x90
  | .bcs => 0xB0
  | .bne => 0xD0
  | _ => 0xF0

/-- A branch has an offset, and is `branchIf` on the condition of Machine/Timing.lean. -/
theorem exec_branch (i : Instr) : branches i.mnemonic = true →
    ∃ off, i.operand = .relative off ∧ encode i = [branchOpcode i.mnemonic, off] ∧
      ∀ s, exec i s = branchIf (branchTaken i.mnemonic s.p) off s := by
  cases i <;> first | exact fun h => absurd h Bool.false_ne_true | exact fun _ => ⟨_, rfl, rfl, fun _ => rfl⟩

/-- The cycles of a branch after its fetch: none if it is not taken, one in its page, two to another one (R312). -/
theorem branchIf_bus {cond : Bool} {off : Byte} {s t : State} (next : branchIf cond off s = .next t) :
    let target := s.pc + off.signExtend 16
    ∃ v w, t.bus = s.bus ++ (if cond then
      (if hi target = hi s.pc then [.read s.pc v] else [.read s.pc v, .read (w16 (hi s.pc) (lo target)) w]) else []) := by
  intro target
  cases cond with
  | false =>
    cases next
    exact ⟨0, 0, by simp⟩
  | true =>
    cases next
    refine ⟨(s.answer s.pc).1, ((s.touch s.pc).answer (w16 (hi s.pc) (lo target))).1, ?_⟩
    by_cases page : hi target = hi s.pc
    · simp [page, offset, target] at page ⊢
    · simp [page, offset, target] at page ⊢

/-- Settles O30: the condition row by row, the rest by what `branchIf` leaves. -/
theorem branchesTestOneFlag : Obligations.BranchesTestOneFlag := by
  intro i op taken s row
  have branch : branches i.mnemonic = true ∧ op = branchOpcode i.mnemonic ∧ taken = branchTaken i.mnemonic s.p := by
    simp only [List.mem_cons, List.not_mem_nil, or_false, Prod.mk.injEq] at row
    obtain ⟨m, rfl, rfl⟩ | ⟨m, rfl, rfl⟩ | ⟨m, rfl, rfl⟩ | ⟨m, rfl, rfl⟩ | ⟨m, rfl, rfl⟩ | ⟨m, rfl, rfl⟩ |
      ⟨m, rfl, rfl⟩ | ⟨m, rfl, rfl⟩ := row <;> rw [m] <;> exact ⟨rfl, rfl, rfl⟩
  obtain ⟨known, rfl, rfl⟩ := branch
  obtain ⟨off, operand, encoding, meaning⟩ := exec_branch i known
  obtain ⟨t, next, pc, registers, p, memory, rest⟩ := branchIf_spec (branchTaken i.mnemonic s.p) off s
  exact ⟨off, t, operand, encoding, (meaning s).trans next, pc, registers, p, memory, rest, branchIf_bus next⟩

/-! ### Pushes and pulls -/

/-- Stack addresses are as far apart as their low bytes. -/
theorem page1_toNat_inj {d e : Byte} : (w16 0x01 d).toNat = (w16 0x01 e).toNat ↔ d = e := by
  rw [w16_toNat, w16_toNat, Nat.add_left_cancel_iff, BitVec.toNat_inj]

/-- A pull gives the byte of memory above the stack top. -/
@[simp] theorem State.pull_value (s : State) : s.pull.1 = s.mem.read (w16 0x01 (s.sp + 1)).toNat := by
  simp [State.pull, State.read, State.stackAddr]

@[simp] theorem State.pull_bus (s : State) :
    s.pull.2.bus = s.bus ++ [.read (w16 0x01 (s.sp + 1)) (s.mem.read (w16 0x01 (s.sp + 1)).toNat)] := by
  simp [State.pull, State.stackAddr]

/-- The first pull reads the old stack top before (R345). -/
@[simp] theorem State.pullFirst_value (s : State) : s.pullFirst.1 = s.mem.read (w16 0x01 (s.sp + 1)).toNat := by
  simp [State.pullFirst]

@[simp] theorem State.pullFirst_bus (s : State) :
    s.pullFirst.2.bus = s.bus ++ [.read (w16 0x01 s.sp) (s.mem.read (w16 0x01 s.sp).toNat),
      .read (w16 0x01 (s.sp + 1)) (s.mem.read (w16 0x01 (s.sp + 1)).toNat)] := by
  simp [State.pullFirst, State.stackAddr]

/-- Writes leave every address outside theirs alone. -/
theorem Memory.read_writes {b : Nat} (l : List (Addr × Byte)) (m : Memory) (h : b ∉ (l.map Prod.fst).map BitVec.toNat) :
    (l.foldl (fun m c => m.write c.1.toNat c.2) m).read b = m.read b := by
  induction l generalizing m with
  | nil => rfl
  | cons c rest ih =>
    simp only [List.map_cons, List.mem_cons, not_or] at h
    exact (ih _ h.2).trans (Memory.read_write_other h.1)

/-- Writes to RAM alone leave all but their addresses. -/
theorem keepsMemoryBut_writes {s t : State} (l : List (Addr × Byte))
    (mem : t.mem = l.foldl (fun m c => m.write c.1.toNat c.2) s.mem) (colour : t.colorRam = s.colorRam)
    (ddr : t.ddr = s.ddr) (prl : t.prl = s.prl) : keepsMemoryBut (l.map Prod.fst) s t :=
  ⟨fun b hb => ⟨mem ▸ Memory.read_writes l s.mem hb, by rw [colour]⟩, fun _ => ddr, fun _ => prl⟩

/-- The pushed status byte has bit 5 set and B in bit 4 (10_state.md R31). -/
theorem Flags.pack_bits (b : Bool) (p : Flags) : (p.pack b).getLsbD 5 = true ∧ (p.pack b).getLsbD 4 = b := by
  obtain ⟨n, v, d, i, z, c⟩ := p
  cases b <;> cases n <;> cases v <;> cases d <;> cases i <;> cases z <;> cases c <;> exact ⟨rfl, rfl⟩

/-- The other bits of the pushed status byte are the six flags: they are what a pull gives. -/
theorem Flags.pack_flags (b : Bool) (p : Flags) :
    (p.pack b).getLsbD 7 = p.n ∧ (p.pack b).getLsbD 6 = p.v ∧ (p.pack b).getLsbD 3 = p.d ∧ (p.pack b).getLsbD 2 = p.i ∧
      (p.pack b).getLsbD 1 = p.z ∧ (p.pack b).getLsbD 0 = p.c := by
  have pulled := Flags.unpack_pack b p
  exact ⟨congrArg Flags.n pulled, congrArg Flags.v pulled, congrArg Flags.d pulled, congrArg Flags.i pulled,
    congrArg Flags.z pulled, congrArg Flags.c pulled⟩

/-- What a one-byte instruction that pushes leaves. -/
theorem touch_push_spec (s : State) (v : Byte) :
    let top := w16 0x01 s.sp
    let t := (s.touch s.pc).push v
    t.mem = s.mem.write top.toNat v ∧ keepsMemoryBut [top] s t ∧ t.sp = s.sp - 1 ∧ t.a = s.a ∧ t.x = s.x ∧ t.y = s.y ∧
      t.p = s.p ∧ t.pc = s.pc ∧ keepsRest s t ∧ t.bus = s.bus ++ [.read s.pc (s.answer s.pc).1, .write top v] := by
  have frame := keepsMemoryBut_writes (s := s) (t := (s.touch s.pc).push v) [(w16 0x01 s.sp, v)]
    (by simp [State.stackAddr]) (by simp [State.stackAddr]) (by simp [State.stackAddr]) (by simp [State.stackAddr])
  refine ⟨?_, frame, ?_⟩ <;> simp [State.stackAddr, keepsRest]

/-- Settles O31: both are `touch_push_spec`, of A and of P with bits 5 and 4 set. -/
theorem pushesWriteTheStack : Obligations.PushesWriteTheStack := by
  intro i op s row
  simp only [List.mem_cons, List.not_mem_nil, or_false, Prod.mk.injEq] at row
  obtain ⟨rfl, rfl⟩ | ⟨rfl, rfl⟩ := row
  · exact ⟨rfl, rfl, s.a, _, rfl, fun _ => rfl, nofun, touch_push_spec s s.a⟩
  · obtain ⟨bit5, bit4⟩ := Flags.pack_bits true s.p
    obtain ⟨n, v, d, i, z, c⟩ := Flags.pack_flags true s.p
    exact ⟨rfl, rfl, s.p.pack true, _, rfl, nofun, fun _ => ⟨n, v, bit5, bit4, d, i, z, c⟩, touch_push_spec s _⟩

/-- Settles O32: `pullFirst` gives the byte and its cycles, the rest is what the updates keep. -/
theorem pullsReadTheStack : Obligations.PullsReadTheStack := by
  intro i op s row
  simp only [List.mem_cons, List.not_mem_nil, or_false, Prod.mk.injEq] at row
  obtain ⟨rfl, rfl⟩ | ⟨rfl, rfl⟩ := row <;>
    exact ⟨rfl, rfl, _, rfl, by simp [Flags.withNZ, Flags.unpack, keepsMemory, keepsRest]⟩

/-! ### Subroutines -/

/-- What JSR leaves: the two pushed bytes, and PC from the operand as its last cycle finds it. -/
theorem jsrAbs_spec (addr : Addr) (s : State) :
    let top := w16 0x01 s.sp
    let below := w16 0x01 (s.sp - 1)
    let h := jsrHigh addr s
    ∃ t, exec (.jsrAbs addr) s = .next t ∧ t.pc = w16 h (lo addr) ∧ t.sp = s.sp - 2 ∧ t.a = s.a ∧ t.x = s.x ∧
      t.y = s.y ∧ t.p = s.p ∧ keepsRest s t ∧
      t.mem = (s.mem.write top.toNat (hi s.pc)).write below.toNat (lo s.pc) ∧ keepsMemoryBut [top, below] s t ∧
      t.bus = s.bus ++ [.read top (s.mem.read top.toNat), .write top (hi s.pc), .write below (lo s.pc),
        .read s.pc h] := by
  have two : s.sp - 1 - 1 = s.sp - 2 := by rw [BitVec.sub_sub]; rfl
  intro top below h
  refine ⟨_, rfl, ?_, by simpa using two, ?_, ?_, ?_, ?_, ?_, ?_,
    keepsMemoryBut_writes [(top, hi s.pc), (below, lo s.pc)] ?_ ?_ ?_ ?_, ?_⟩
  all_goals simp [State.stackAddr, keepsRest, top, below, h]

/-- Settles O29: by `jsrAbs_spec`; where no push reached PC the operand is as it was fetched. -/
theorem jsrPushesAndJumps : Obligations.JsrPushesAndJumps := by
  intro addr s
  obtain ⟨t, next, pc, fields⟩ := jsrAbs_spec addr s
  refine ⟨rfl, t, next, pc, fun notTop notBelow => ?_, fields⟩
  rw [pc, jsrHigh, if_neg notBelow, if_neg notTop, w16_hi_lo]

/-- What RTS leaves. -/
theorem rts_spec (s : State) :
    let slot := fun k : Byte => w16 0x01 (s.sp + k)
    let rd := fun k : Byte => s.mem.read (slot k).toNat
    let back := w16 (rd 2) (rd 1)
    ∃ t, exec .rts s = .next t ∧ t.pc = back + 1 ∧ t.sp = s.sp + 2 ∧ t.a = s.a ∧ t.x = s.x ∧ t.y = s.y ∧ t.p = s.p ∧
      keepsMemory s t ∧ keepsRest s t ∧
      ∃ v w, t.bus = s.bus ++ [.read s.pc v, .read (slot 0) (rd 0), .read (slot 1) (rd 1), .read (slot 2) (rd 2),
        .read back w] := by
  intro slot rd back
  refine ⟨_, rfl, ?_, ?_, ?_, ?_, ?_, ?_, ?_, ?_, (s.answer s.pc).1,
    ((s.touch s.pc).pullFirst.2.pull.2.answer back).1, ?bus⟩
  case bus => simp [BitVec.add_assoc, slot, rd, back]
  all_goals simp [BitVec.add_assoc, keepsMemory, keepsRest, slot, rd, back]

/-- Settles O33: by `rts_spec`; a launch has put the caller's address less one where RTS pulls it. -/
theorem rtsReturnsPastTheCall : Obligations.RtsReturnsPastTheCall := by
  intro s
  obtain ⟨t, next, pc, sp, a, x, y, p, memory, rest, bus⟩ := rts_spec s
  refine ⟨rfl, rfl, t, next, pc, sp, a, x, y, p, memory, rest, bus, fun prog launched endPc => ?_⟩
  obtain ⟨jammed, -, -, board⟩ := rest
  simp only [Program.callerOnStack, Bool.and_eq_true, beq_iff_eq] at launched
  have back : t.pc = prog.back := by
    rw [pc]
    dsimp only
    rw [launched.1, launched.2, w16_hi_lo, BitVec.sub_add_cancel]
  have reached : (t.board.endPc == some t.pc) = true := by rw [board, endPc, back, beq_self_eq_true]
  refine ⟨back, ?_, fun running => ?_⟩
  · rw [State.ended, reached, Bool.or_true]
  · rw [Program.runEnd, jammed, running, reached]
    rfl

/-! ### Interrupts and returns from them -/

/-- The cycles of the return from an interrupt. -/
theorem State.returnFromInterrupt_bus (s : State) :
    let slot := fun k : Byte => w16 0x01 (s.sp + k)
    let rd := fun k : Byte => s.mem.read (slot k).toNat
    s.returnFromInterrupt.bus = s.bus ++ [.read (slot 0) (rd 0), .read (slot 1) (rd 1), .read (slot 2) (rd 2),
      .read (slot 3) (rd 3)] := by
  simp [State.returnFromInterrupt, BitVec.add_assoc]

/-- What RTI leaves. -/
theorem rti_spec (s : State) :
    let slot := fun k : Byte => w16 0x01 (s.sp + k)
    let rd := fun k : Byte => s.mem.read (slot k).toNat
    ∃ t, exec .rti s = .next t ∧ t.pc = w16 (rd 3) (rd 2) ∧ t.sp = s.sp + 3 ∧ t.a = s.a ∧ t.x = s.x ∧ t.y = s.y ∧
      t.p = Flags.unpack (rd 1) ∧ keepsMemory s t ∧ keepsRest s t ∧
      ∃ v, t.bus = s.bus ++ [.read s.pc v, .read (slot 0) (rd 0), .read (slot 1) (rd 1), .read (slot 2) (rd 2),
        .read (slot 3) (rd 3)] := by
  have fields := (s.touch s.pc).returnFromInterrupt_spec
  have bus := (s.touch s.pc).returnFromInterrupt_bus
  refine ⟨_, rfl, ?_, ?_, ?_, ?_, ?_, ?_, ?_, ?_, (s.answer s.pc).1, ?_⟩
  all_goals simp_all [keepsMemory, keepsRest]

/-- Settles O34: by `rti_spec`. -/
theorem rtiRestoresFlagsAndPc : Obligations.RtiRestoresFlagsAndPc := by
  intro s
  obtain ⟨t, next, pc, sp, a, x, y, p, memory, rest, bus⟩ := rti_spec s
  exact ⟨rfl, rfl, t, next, pc, sp, a, x, y, p, memory, rest, bus⟩

/-- BRK takes an interrupt, in the state in which the byte after the opcode has been read and PC is behind it: through
its own vector, or through that of an NMI whose edge falls inside it and is used up (R355, R525). -/
theorem exec_brk (s : State) : ∃ (u : State) (vec : Addr), exec .brk s = .next (u.takeInterrupt true vec) ∧
    (vec = brkVector ∧ u.inputs = s.inputs ∨
      vec = nmiVector ∧ s.inputs.nmiArriving = true ∧ u.inputs = { s.inputs with nmiArriving := false }) ∧
    u.a = s.a ∧ u.x = s.x ∧ u.y = s.y ∧ u.sp = s.sp ∧ u.p = s.p ∧ u.pc = s.pc + 1 ∧ u.mem = s.mem ∧
    u.colorRam = s.colorRam ∧ u.ddr = s.ddr ∧ u.prl = s.prl ∧ u.jammed = s.jammed ∧ u.nmiPending = s.nmiPending ∧
    u.board = s.board ∧ u.bus = s.bus ++ [.read s.pc (s.answer s.pc).1] := by
  have meaning : exec .brk s = execBrk s := rfl
  have inputs : s.fetchByte.2.inputs = s.inputs := by simp
  simp only [meaning, execBrk, inputs]
  by_cases arriving : s.inputs.nmiArriving = true
  · cases draw : s.fetchByte.2.drawBool.1
    · exact ⟨s.fetchByte.2.drawBool.2, brkVector, by simp [arriving], by simp⟩
    · exact ⟨s.fetchByte.2.drawBool.2.useNmiEdge, nmiVector, by simp [arriving], by simp [arriving]⟩
  · exact ⟨s.fetchByte.2, brkVector, by simp [arriving], by simp⟩

/-- What answers does not depend on an NMI edge. -/
theorem State.target_of_edge {s u : State} (inputs : u.inputs = s.inputs ∨ u.inputs = { s.inputs with nmiArriving := false })
    (board : u.board = s.board) (ddr : u.ddr = s.ddr) (prl : u.prl = s.prl) (addr : Addr) :
    u.target addr = s.target addr := by
  refine State.target_of_lines board ?_ ?_ (fun k => by rw [State.bankLine, ddr, prl, State.bankLine]) addr <;>
    obtain h | h := inputs <;> rw [h]

/-- Settles O35: by `exec_brk` and what taking an interrupt leaves. -/
theorem brkEntersThroughItsVector : Obligations.BrkEntersThroughItsVector := by
  intro s
  obtain ⟨u, vec, next, edge, a, x, y, sp, p, pc, mem, colour, ddr, prl, jam, pending, board, bus⟩ := exec_brk s
  obtain ⟨ta, tx, ty, tsp, tp, ⟨tjam, tpending, tinputs, tboard⟩, tmem, tcolour, tddr, tprl, l, h, tpc, tbus, low, high⟩ :=
    u.takeInterrupt_spec true vec
  have target := State.target_of_edge (s := s) (u := u)
    (edge.elim (fun e => .inl e.2) fun e => .inr e.2.2) board ddr prl
  have low := low.congr board (target _)
  have high := high.congr board (target _)
  rw [sp, pc, p, mem] at tmem low high
  rw [sp, pc, p, bus] at tbus
  refine ⟨rfl, rfl, _, s.p.pack true, vec, l, h, (s.answer s.pc).1, next, rfl, (Flags.pack_bits true s.p).2, ?vector, tpc,
    tsp.trans (by rw [sp]), ta.trans a, tx.trans x, ty.trans y, tp.trans (by rw [p]), tjam.trans jam,
    tpending.trans pending, tboard.trans board, tmem,
    keepsMemoryBut_writes [(_, _), (_, _), (_, _)] tmem (tcolour.trans colour) (tddr.trans ddr) (tprl.trans prl),
    by rw [tbus]; simp, tmem ▸ low, tmem ▸ high⟩
  case vector => exact edge.imp (fun e => ⟨e.1, tinputs.trans e.2⟩) fun e => ⟨e.1, e.2.1, tinputs.trans e.2.2⟩

/-- The three slots of an interrupt entry, seen from the stack pointer that it leaves. -/
theorem State.takeInterrupt_pushed {s : State} (wf : s.mem.wf = true) (b : Bool) (vec : Addr) :
    let t := s.takeInterrupt b vec
    let rd := fun k : Byte => t.mem.read (w16 0x01 (t.sp + k)).toNat
    t.sp + 3 = s.sp ∧ rd 1 = s.p.pack b ∧ rd 2 = lo s.pc ∧ rd 3 = hi s.pc := by
  obtain ⟨-, -, -, sp, -, -, mem, -⟩ := s.takeInterrupt_spec b vec
  have slot0 : s.sp - 3 + 3 = s.sp - 0 := by bv_omega
  have slot1 : s.sp - 3 + 2 = s.sp - 1 := by bv_omega
  have slot2 : s.sp - 3 + 1 = s.sp - 2 := by bv_omega
  have wf1 := Memory.write_wf (a := (w16 0x01 (s.sp - 0)).toNat) (v := hi s.pc) (BitVec.isLt _) wf
  have wf2 := Memory.write_wf (a := (w16 0x01 (s.sp - 1)).toNat) (v := lo s.pc) (BitVec.isLt _) wf1
  dsimp only
  rw [sp, mem, slot0, slot1, slot2]
  refine ⟨BitVec.sub_zero _, Memory.read_write_self wf2, ?_, ?_⟩
  · rw [Memory.read_write_other, Memory.read_write_self wf1]
    rw [ne_eq, page1_toNat_inj]
    bv_omega
  · rw [Memory.read_write_other, Memory.read_write_other, Memory.read_write_self wf] <;>
      rw [ne_eq, page1_toNat_inj] <;> bv_omega

/-- The stack bytes above `u`'s stack pointer, `n` of them, are in `v` as `u` has them. -/
def standsAbove (u v : State) (n : Nat) : Prop :=
  v.sp = u.sp ∧ ∀ k : Byte, 0 < k.toNat → k.toNat ≤ n →
    v.mem.read (w16 0x01 (u.sp + k)).toNat = u.mem.read (w16 0x01 (u.sp + k)).toNat

/-- An RTI takes up what an interrupt left off (R531). -/
theorem rti_undoes_takeInterrupt {s v : State} (wf : s.mem.wf = true) {b : Bool} {vec : Addr}
    (stands : standsAbove (s.takeInterrupt b vec) v 3) :
    ∃ t, exec .rti v = .next t ∧ t.pc = s.pc ∧ t.sp = s.sp ∧ t.p = s.p := by
  obtain ⟨t, next, pc, sp, -, -, -, p, -⟩ := rti_spec v
  obtain ⟨vsp, agree⟩ := stands
  obtain ⟨top, status, low, high⟩ := State.takeInterrupt_pushed wf b vec
  dsimp only at status low high pc p
  refine ⟨t, next, ?_, ?_, ?_⟩
  · rw [pc, vsp, agree 2 (by decide) (by decide), agree 3 (by decide) (by decide), low, high, w16_hi_lo]
  · rw [sp, vsp, top]
  · rw [p, vsp, agree 1 (by decide) (by decide), status, Flags.unpack_pack]

/-- An RTS goes on after the address that a JSR pushed (R351). -/
theorem rts_undoes_jsr {s u v : State} (wf : s.mem.wf = true) {addr : Addr} (call : exec (.jsrAbs addr) s = .next u)
    (stands : standsAbove u v 2) : ∃ t, exec .rts v = .next t ∧ t.pc = s.pc + 1 ∧ t.sp = s.sp ∧ t.p = v.p := by
  obtain ⟨t, next, pc, sp, -, -, -, p, -⟩ := rts_spec v
  obtain ⟨vsp, agree⟩ := stands
  obtain ⟨u', next', -, usp, -, -, -, -, -, umem, -⟩ := jsrAbs_spec addr s
  obtain rfl : u' = u := by simpa [next'] using call
  have slot0 : s.sp - 2 + 2 = s.sp := BitVec.sub_add_cancel _ _
  have slot1 : s.sp - 2 + 1 = s.sp - 1 := by bv_omega
  have wf1 := Memory.write_wf (a := (w16 0x01 s.sp).toNat) (v := hi s.pc) (BitVec.isLt _) wf
  refine ⟨t, next, ?_, by rw [sp, vsp, usp, slot0], p⟩
  rw [pc, vsp]
  dsimp only
  rw [agree 1 (by decide) (by decide), agree 2 (by decide) (by decide), usp, umem, slot0, slot1,
    Memory.read_write_self wf1, Memory.read_write_other, Memory.read_write_self wf, w16_hi_lo]
  rw [ne_eq, page1_toNat_inj]
  bv_omega

/-- Settles O60: an interrupt entry and a BRK are `takeInterrupt`, in states that differ from `s` in PC and the cycles
made. -/
theorem returnsUndoEntries : Obligations.ReturnsUndoEntries := by
  intro s v vec addr wf
  refine ⟨fun stands => ?interrupt, ?brk, ?call⟩
  case interrupt =>
    obtain ⟨t, next, pc, sp, p⟩ := rti_undoes_takeInterrupt (s := (s.touch s.pc).touch s.pc) (by simpa using wf) stands
    exact ⟨t, next, by simpa using pc, by simpa using sp, by simpa using p⟩
  case brk =>
    obtain ⟨u, vec, next, -, -, -, -, sp, p, pc, mem, -⟩ := exec_brk s
    refine ⟨_, next, fun stands => ?_⟩
    obtain ⟨t, returned, tpc, tsp, tp⟩ := rti_undoes_takeInterrupt (mem ▸ wf) stands
    exact ⟨t, returned, tpc.trans pc, tsp.trans sp, tp.trans p⟩
  case call =>
    obtain ⟨u, call, -⟩ := jsrAbs_spec addr s
    exact ⟨u, call, fun stands => rts_undoes_jsr wf call stands⟩

end Sys2Proof.Machine
end

