-- ==== Sys2Proof/Proofs/UnusualInstructions.lean ====
section
/-! The undocumented instructions with unusual behaviour and an immediate operand: ANC, SBX, ARR, ANE and LXA
(47_undocumented_unusual.md). -/

namespace Sys2Proof.Machine

theorem compare_value (r v : Byte) (p : Flags) : (compare r v p).1 = r - v := rfl

/-- Settles O43: ANC is a load of the AND with its bit 7 as carry, SBX a comparison that keeps the difference. -/
theorem immediateCombinations : Obligations.ImmediateCombinations := by
  intro i s v combination
  simp only [List.mem_cons, List.not_mem_nil, or_false] at combination
  obtain rfl | rfl | rfl := combination
  · exact ⟨_, rfl, by simp [Flags.withNZ, Flags.withC, keepsMemory, keepsRest]⟩
  · exact ⟨_, rfl, by simp [Flags.withNZ, Flags.withC, keepsMemory, keepsRest]⟩
  · exact ⟨_, rfl, by simp [compare_value, compare_flags, keepsMemory, keepsRest]⟩

/-! ### ARR -/

/-- The carry goes into bit 7 of what ROR gives. -/
theorem ror_bit7 (m : Byte) (c : Bool) : (ror m c).1.getLsbD 7 = c := by
  have sum := ror_toNat m c
  have bound := byte_lt m
  rw [bit7_eq, sum]
  cases c
  · simp
    omega
  · simp

/-- ARR with D = 0 changes A, N, Z, C and V alone. -/
theorem arrBinary_spec (v : Byte) (s : State) :
    let u := s.a &&& v
    let t := arrBinary v s
    t.a = (ror u s.p.c).1 ∧ t.p.n = t.a.getLsbD 7 ∧ t.p.z = (t.a == 0) ∧
    (s.board.arrFlags = .plainRor → t.p.c = u.getLsbD 0 ∧ t.p.v = s.p.v) ∧
    (s.board.arrFlags = .adder → t.p.c = t.a.getLsbD 6 ∧ t.p.v = (t.a.getLsbD 6 ^^ t.a.getLsbD 5)) ∧
    t.p.d = s.p.d ∧ t.p.i = s.p.i ∧ t.x = s.x ∧ t.y = s.y ∧ t.sp = s.sp ∧ t.pc = s.pc ∧
    keepsMemory s t ∧ keepsRest s t ∧ t.bus = s.bus := by
  cases flags : s.board.arrFlags <;> simp [arrBinary, flags, Flags.withNZ, keepsMemory, keepsRest]

/-- Settles O44: with D = 0 by `arrBinary_spec`, with D = 1 by the frame of two draws. -/
theorem arrRotatesTheAnd : Obligations.ArrRotatesTheAnd := by
  intro s v
  have meaning : exec (.arrImm v) s = if s.p.d then arrDecimal s else .next (arrBinary v s) := rfl
  cases mode : s.p.d
  · obtain ⟨a, n, z, plain, adder, d, frame⟩ := arrBinary_spec v s
    refine ⟨arrBinary v s, by rw [meaning, mode]; rfl, fun _ => ⟨?_, ?_, ?_, plain, adder⟩, d.trans mode, frame⟩
    · rw [a, ror_toNat]
    · rw [n, a, ror_bit7]
    · rw [z, beq_eq_decide]
  · exact ⟨_, by rw [meaning, mode]; rfl, by simp [mode, keepsMemory, keepsRest]⟩

/-! ### ANE and LXA -/

/-- A drawn element of a set that has one is in it. -/
theorem State.drawFrom_mem (s : State) {set : List Byte} (nonempty : 0 < set.length) : (s.drawFrom set).1 ∈ set := by
  rw [State.drawFrom, List.getD_eq_getElem _ _ (Nat.mod_lt _ nonempty)]
  exact List.getElem_mem _

/-- ANE's constants are those of the part and, on the 8502, of its clock (R415). -/
theorem aneConsts_mem {b : Board} {k : Byte} (mem : k ∈ aneConsts b) :
    (b.variant ≠ .mos8502 → k ∈ [0xEE, 0xEF, 0xFE, (0xFF : Byte)]) ∧
    (b.variant = .mos8502 → k ∈ [0x8C, 0xCC, 0xEE, 0x0C, (0x8E : Byte)]) ∧
    (b.variant = .mos8502 → b.fast = true → k = 0xEE) := by
  unfold aneConsts at mem
  cases part : b.variant <;> cases clock : b.fast <;> simp_all

/-- ANE always has a constant to draw. -/
theorem aneConsts_nonempty (b : Board) : 0 < (aneConsts b).length := by
  unfold aneConsts
  split
  · decide
  · decide
  · cases b.fast <;> decide

/-- Settles O45: the constant is the element drawn, the mask the second draw outside it. -/
theorem aneWithinItsConstants : Obligations.AneWithinItsConstants := by
  intro s v
  let k := s.drawFrom (aneConsts s.board)
  obtain ⟨other, part, fast⟩ := aneConsts_mem (s.drawFrom_mem (aneConsts_nonempty s.board))
  refine ⟨_, k.1, k.2.draw.1 &&& ~~~k.1, rfl, ?outside, other, part, fast, ?_⟩
  case outside => 
    rw [BitVec.and_assoc, BitVec.not_and_self]
    exact BitVec.and_zero
  have cleared : s.x &&& v = 0 → ∀ m : Byte, m &&& s.x &&& v = 0 := fun zero m => by
    rw [BitVec.and_assoc, zero]; exact BitVec.and_zero
  refine ⟨rfl, fun zero => cleared zero _, ?_⟩
  simp [State.drawFrom, Flags.withNZ, keepsMemory, keepsRest]

/-- Settles O46: both values that LXA can take are an AND with the operand. -/
theorem lxaWithinTheOperand : Obligations.LxaWithinTheOperand := by
  intro s v
  have outside (m : Byte) : m &&& v &&& ~~~v = 0 := by rw [BitVec.and_assoc, BitVec.and_not_self]; exact BitVec.and_zero
  refine ⟨_, rfl, ?_⟩
  cases s.drawBool.1
  · simpa [State.lxaCleared, putAX, Flags.withNZ, keepsMemory, keepsRest] using outside _
  · simpa [State.lxaUsual, State.drawFrom, putAX, Flags.withNZ, keepsMemory, keepsRest] using outside _

end Sys2Proof.Machine
end

