-- ==== Sys2Proof/Proofs/EveryInstruction.lean ====
section
/-! What holds of every instruction: it has a next state, keeps the invariant and the parameters, writes the flags it is
named for alone (10_state.md R33), and makes as many accesses as the cycle tables say (40_addressing_modes.md R165). The
instructions are taken by the shared operation that they are, and one by one where they share none. -/

namespace Sys2Proof.Machine

/-! ### Flags -/

/-- The mnemonics that write no flag (10_state.md R33). -/
def silentMnemonics : List Mnemonic :=
  [.sta, .stx, .sty, .txs, .pha, .php, .jmp, .jsr, .rts, .bpl, .bmi, .bvc, .bvs, .bcc,
    .bcs, .bne, .beq, .nop, .jam, .sax, .sha, .shx, .shy, .shs]

/-- The mnemonics that may write V. -/
def overflowMnemonics : List Mnemonic := [.adc, .sbc, .rra, .isb, .arr, .bit, .clv, .plp, .rti]

/-- The mnemonics that may write C. -/
def carryMnemonics : List Mnemonic :=
  [.asl, .lsr, .rol, .ror, .slo, .rla, .sre, .asr, .anc, .adc, .sbc, .rra, .isb, .arr,
    .cmp, .cpx, .cpy, .dcp, .sbx, .clc, .sec, .plp, .rti]

/-- The mnemonics that write flags and leave N and Z alone. -/
def singleFlagMnemonics : List Mnemonic := [.clc, .sec, .cld, .sed, .cli, .sei, .clv, .brk]

/-- A mnemonic may have changed the flags from `p` to `q`: the table of flag writers (10_state.md R33). -/
def FlagsAllowed (m : Mnemonic) (p q : Flags) : Prop :=
  (m ∈ silentMnemonics → q = p) ∧
  (m ∉ [Mnemonic.cld, .sed, .plp, .rti] → q.d = p.d) ∧
  (m ∉ [Mnemonic.cli, .sei, .plp, .rti, .brk] → q.i = p.i) ∧
  (m ∉ overflowMnemonics → q.v = p.v) ∧
  (m ∉ carryMnemonics → q.c = p.c) ∧
  (m ∈ singleFlagMnemonics → q.n = p.n ∧ q.z = p.z)

/-- No change is allowed to every mnemonic. -/
theorem FlagsAllowed.refl (m : Mnemonic) (p : Flags) : FlagsAllowed m p p :=
  ⟨fun _ => rfl, fun _ => rfl, fun _ => rfl, fun _ => rfl, fun _ => rfl, fun _ => ⟨rfl, rfl⟩⟩

/-- The mnemonics that set N and Z from a result. -/
def setsNZ (m : Mnemonic) : Bool := decide (m ∉ silentMnemonics) && decide (m ∉ singleFlagMnemonics)

/-- N, Z and C are allowed to a mnemonic that sets N and Z from a result and may write C. -/
theorem FlagsAllowed.of_nzc {m : Mnemonic} {p q : Flags} (result : setsNZ m = true)
    (carry : m ∈ carryMnemonics ∨ q.c = p.c) (kept : q.v = p.v ∧ q.d = p.d ∧ q.i = p.i) : FlagsAllowed m p q := by
  obtain ⟨v, d, i⟩ := kept
  simp only [setsNZ, Bool.and_eq_true, decide_eq_true_eq] at result
  exact ⟨fun h => absurd h result.1, fun _ => d, fun _ => i, fun _ => v, fun h => carry.resolve_left h,
    fun h => absurd h result.2⟩

/-- N, V, Z and C are allowed to arithmetic. -/
theorem FlagsAllowed.of_nvzc {m : Mnemonic} {p q : Flags} (result : setsNZ m = true) (overflow : m ∈ overflowMnemonics)
    (carry : m ∈ carryMnemonics ∨ q.c = p.c) (kept : q.d = p.d ∧ q.i = p.i) : FlagsAllowed m p q := by
  simp only [setsNZ, Bool.and_eq_true, decide_eq_true_eq] at result
  exact ⟨fun h => absurd h result.1, fun _ => kept.1, fun _ => kept.2, fun h => absurd overflow h,
    fun h => carry.resolve_left h, fun h => absurd h result.2⟩

/-- A pull of P may change every flag. -/
theorem FlagsAllowed.of_pull {m : Mnemonic} {p q : Flags} (pull : m = .plp ∨ m = .rti) : FlagsAllowed m p q := by
  obtain rfl | rfl := pull <;>
    exact ⟨fun silent => absurd silent (by decide), fun other => absurd (by decide) other,
      fun other => absurd (by decide) other, fun other => absurd (by decide) other,
      fun other => absurd (by decide) other, fun single => absurd single (by decide)⟩

/-! ### Frame -/

/-- The bytes of an instruction that its step fetches before `exec`: JSR reads its last one in its last cycle (R316). -/
def fetches (i : Instr) : Nat := if i.mnemonic = .jsr then 2 else i.operand.mode.bytes

/-- What every instruction keeps: the parameters, the invariant, and, where it jams, stack pointer, memory and bus. No
instruction of three bytes jams. -/
structure Frame (i : Instr) (s t : State) : Prop where
  board : t.board = s.board
  inv : s.inv = true → t.inv = true
  jam : t.jammed = s.jammed ∨
    fetches i ≤ 2 ∧ t.sp = s.sp ∧ t.mem = s.mem ∧ t.colorRam = s.colorRam ∧ t.bus = s.bus

/-- Stores keep the invariant and the parameters. -/
theorem foldl_accept_inv {s : State} (l : List (Addr × Byte)) (inv : s.inv = true) :
    (l.foldl (fun w c => w.accept c.1 c.2) s).inv = true := by
  induction l generalizing s with
  | nil => exact inv
  | cons c rest ih => exact ih (State.accept_inv inv c.1 c.2)

theorem foldl_accept_board (s : State) (l : List (Addr × Byte)) :
    (l.foldl (fun w c => w.accept c.1 c.2) s).board = s.board := by
  induction l generalizing s with
  | nil => rfl
  | cons c rest ih => exact (ih (s.accept c.1 c.2)).trans (by simp)

/-- What only stores has the frame. -/
theorem Frame.of_stores {i : Instr} {l : List (Addr × Byte)} {s t : State} (stored : holdsStores l s t)
    (rest : keepsRest s t) : Frame i s t := by
  obtain ⟨jammed, -, -, board⟩ := rest
  obtain ⟨mem, colour, ddr, prl⟩ := stored
  refine ⟨board, fun inv => ?_, .inl jammed⟩
  rw [State.inv_congr (board.trans (foldl_accept_board s l).symm) ddr prl mem colour]
  exact foldl_accept_inv l inv

/-- What stores nothing has the frame. -/
theorem Frame.of_memory {i : Instr} {s t : State} (kept : t.mem = s.mem ∧ t.colorRam = s.colorRam ∧ t.ddr = s.ddr ∧
    t.prl = s.prl ∧ keepsRest s t) : Frame i s t := by
  obtain ⟨mem, colour, ddr, prl, rest⟩ := kept
  exact .of_stores (l := []) ⟨mem, colour, ddr, prl⟩ rest

/-- Writes to memory keep its canonical form. -/
theorem foldl_write_wf {m : Memory} (l : List (Addr × Byte)) (wf : m.wf = true) :
    (l.foldl (fun m c => m.write c.1.toNat c.2) m).wf = true := by
  induction l generalizing m with
  | nil => exact wf
  | cons c rest ih => exact ih (Memory.write_wf c.1.isLt wf)

/-- What pushes to the stack alone has the frame. -/
theorem Frame.of_writes {i : Instr} {s t : State} (l : List (Addr × Byte))
    (mem : t.mem = l.foldl (fun m c => m.write c.1.toNat c.2) s.mem) (colour : t.colorRam = s.colorRam)
    (ddr : t.ddr = s.ddr) (prl : t.prl = s.prl) (board : t.board = s.board) (jammed : t.jammed = s.jammed) :
    Frame i s t := by
  refine ⟨board, fun inv => ?_, .inl jammed⟩
  simp only [State.inv, Bool.and_eq_true, mem, colour, ddr, prl, board] at inv ⊢
  obtain ⟨⟨⟨wf, nybbles⟩, lines⟩, latch⟩ := inv
  exact ⟨⟨⟨foldl_write_wf l wf, nybbles⟩, lines⟩, latch⟩

/-! ### Cycles -/

/-- The mnemonics whose count is not that of their operand (70_reset_and_hazards.md R572). -/
def ownCount : Mnemonic → Bool
  | .jam | .pha | .php | .pla | .plp | .rts | .rti | .brk | .jsr | .jmp => true
  | _ => false

/-- The count of an operand. -/
def operandCycles (m : Mnemonic) : Operand → Nat
  | .source (.mem mode) => memCycles (accessClass m) mode
  | _ => 2

theorem cycles_of_operand {i : Instr} (ordinary : ownCount i.mnemonic = false) :
    cycles i = some (operandCycles i.mnemonic i.operand) := by
  unfold cycles operandCycles
  generalize i.mnemonic = m at ordinary
  generalize i.operand = o
  cases m <;> first | exact absurd ordinary Bool.false_ne_true.symm | (rcases o with _ | _ | (_ | _) | _ | _ <;> rfl)

theorem fetches_of_operand {i : Instr} (ordinary : ownCount i.mnemonic = false) :
    fetches i = i.operand.mode.bytes := by
  refine if_neg fun jsr => ?_
  rw [jsr] at ordinary
  exact Bool.false_ne_true ordinary.symm

theorem readIndexed_length (base : Addr) (index : Byte) (s : State) :
    (readIndexed base index s).2.bus.length = s.bus.length + (crosses base index).toNat := by
  unfold readIndexed
  cases crosses base index <;> simp

/-- A read operand makes the accesses of its mode, and one more across a page (R144 to R151). -/
theorem readMem_length (m : MemMode) (s : State) :
    (readMem m s).2.bus.length + m.mode.bytes = s.bus.length + memCycles .read m + crossingCycles .read m s := by
  cases m with
  | abx addr | aby addr =>
    simp [readMem, readAddress, readIndexed_length, memCycles, crossingCycles, MemMode.mode, Mode.bytes]
    omega
  | izy ptr =>
    simp [readMem, readAddress, readIndexed_length, pointerIzy, memCycles, crossingCycles, MemMode.mode, Mode.bytes]
    omega
  | _ => simp [readMem, readAddress, pointerIzx, memCycles, crossingCycles, MemMode.mode, Mode.bytes]

/-- A store operand's address takes all its accesses but the store (R144 to R152). -/
theorem storeAddress_length (m : MemMode) (s : State) :
    (storeAddress m s).2.bus.length + 1 + m.mode.bytes = s.bus.length + memCycles .write m := by
  cases m <;> simp [storeAddress, storeIndexed, pointerIzx, pointerIzy, memCycles, MemMode.mode, Mode.bytes]

/-- A read-modify-write operand has two accesses more (R153, R160). -/
theorem memCycles_modify (m : MemMode) : memCycles .modify m = memCycles .write m + 2 := by
  cases m <;> rfl

/-- What the cycle tables say of a step that runs `i`, fetched bytes included. -/
def CyclesMatch (i : Instr) (s t : State) : Prop :=
  ∀ n, cycles i = some n → t.bus.length + fetches i = s.bus.length + n + extraCycles i s

/-- What holds of every instruction. -/
structure Executes (i : Instr) (s t : State) : Prop where
  flags : FlagsAllowed i.mnemonic s.p t.p
  frame : Frame i s t
  counted : CyclesMatch i s t

/-! ### Reads -/

/-- What a read operand's operation leaves. -/
theorem sourceMeaning_spec (i : Instr) (m : Mnemonic) (o : Source) (s : State) :
    ∃ t, sourceMeaning m o s = .next t ∧ FlagsAllowed m s.p t.p ∧ Frame i s t ∧ t.bus = (readOperand o s).2.bus := by
  unfold sourceMeaning
  split
  case h_8 =>
    have kept := adc_keeps s.a (readOperand o s).1 s.p
    exact ⟨_, rfl, .of_nvzc rfl (by decide) (.inl (by decide)) (by simpa using kept),
      .of_memory (by simp [keepsRest]), by simp⟩
  case h_9 =>
    have kept := sbc_keeps s.a (readOperand o s).1 s.p
    exact ⟨_, rfl, .of_nvzc rfl (by decide) (.inl (by decide)) (by simpa using kept),
      .of_memory (by simp [keepsRest]), by simp⟩
  case h_13 =>
    exact ⟨_, rfl, .of_nvzc rfl (by decide) (.inr (by simp [bitFlags])) (by simp [bitFlags]),
      .of_memory (by simp [keepsRest]), by simp⟩
  case h_14 =>
    exact ⟨_, rfl, by simp [FlagsAllowed.refl], .of_memory (by simp [keepsRest]),
      rfl⟩
  all_goals
    exact ⟨_, rfl, .of_nzc rfl (by simp [carryMnemonics, putAX, Flags.withNZ])
      (by simp [putAX, Flags.withNZ, compare_flags]), .of_memory (by simp [putAX, keepsRest]), by simp [putAX]⟩

/-- A read operand makes the accesses that the tables give it. -/
theorem readOperand_cycles {i : Instr} {o : Source} {s t : State} (ordinary : ownCount i.mnemonic = false)
    (operand : i.operand = .source o) (reads : accessClass i.mnemonic = .read) (bus : t.bus = (readOperand o s).2.bus) :
    CyclesMatch i s t := by
  intro n count
  rw [cycles_of_operand ordinary, operand] at count
  cases count
  rw [fetches_of_operand ordinary, extraCycles, operand, bus]
  cases o with
  | imm v => rfl
  | mem m => simpa [operandCycles, reads, readOperand, Operand.mode] using readMem_length m s

/-- The classes that the tables of mnemonics come to. -/
theorem readsOperand_class {m : Mnemonic} (reads : readsOperand m = true) :
    ownCount m = false ∧ accessClass m = .read := by
  cases m <;> first | exact absurd reads Bool.false_ne_true | exact ⟨rfl, rfl⟩

theorem read_executes {i : Instr} (reads : readsOperand i.mnemonic = true) (s : State) :
    ∃ t, exec i s = .next t ∧ Executes i s t := by
  obtain ⟨o, operand, meaning⟩ := exec_read i reads
  obtain ⟨ordinary, cls⟩ := readsOperand_class reads
  obtain ⟨t, next, flags, frame, bus⟩ := sourceMeaning_spec i i.mnemonic o s
  exact ⟨t, (meaning s).trans next, flags, frame, readOperand_cycles ordinary operand cls bus⟩

/-! ### Stores -/

/-- The mnemonics of `exec_store` and `exec_shift`. -/
def storesOrShifts (m : Mnemonic) : Bool :=
  storesOperand m || [Mnemonic.asl, .lsr, .rol, .ror].contains m

theorem store_length {o : MemMode} {s t : State} {c : BusAccess} (bus : t.bus = (storeAddress o s).2.bus ++ [c]) :
    t.bus.length + o.mode.bytes = s.bus.length + memCycles .write o := by
  rw [bus, List.length_append]
  exact storeAddress_length o s

theorem modify_length {o : MemMode} {s t : State} {c d e : BusAccess}
    (bus : t.bus = (storeAddress o s).2.bus ++ [c, d, e]) :
    t.bus.length + o.mode.bytes = s.bus.length + memCycles .modify o := by
  have address := storeAddress_length o s
  rw [bus, List.length_append, memCycles_modify]
  simp only [List.length_cons, List.length_nil]
  omega

/-- What a storing operation leaves. -/
theorem memMeaning_spec (i : Instr) {m : Mnemonic} (stores : storesOrShifts m = true) (o : MemMode) (s : State) :
    ∃ t, memMeaning m o s = .next t ∧ FlagsAllowed m s.p t.p ∧ Frame i s t ∧
      t.bus.length + o.mode.bytes = s.bus.length + memCycles (accessClass m) o := by
  cases m with
  | sta | stx | sty | sax =>
    obtain ⟨t, next, -, p, -, rest, stored, -, bus⟩ := storeValue_spec _ o s
    refine ⟨t, next, p ▸ .refl _ _, .of_stores stored rest, store_length bus⟩
  | asl | lsr | rol | ror =>
    obtain ⟨t, next, p, -, -, rest, stored, -, bus⟩ := shiftMem_spec _ o s
    refine ⟨t, next, p ▸ .of_nzc rfl (.inl (by decide)) ⟨rfl, rfl, rfl⟩, .of_stores stored rest, modify_length bus⟩
  | inc | dec =>
    obtain ⟨t, next, p, -, -, rest, stored, -, bus⟩ := countMem_spec _ o s
    refine ⟨t, next, p ▸ .of_nzc rfl (.inr rfl) ⟨rfl, rfl, rfl⟩, .of_stores stored rest, modify_length bus⟩
  | slo | rla | sre =>
    obtain ⟨t, next, -, p, -, -, -, -, rest, stored, -, bus⟩ := shiftLogic_spec _ _ o s
    refine ⟨t, next, p ▸ .of_nzc rfl (.inl (by decide)) ⟨rfl, rfl, rfl⟩, .of_stores stored rest, modify_length bus⟩
  | rra =>
    obtain ⟨t, next, -, p, -, -, -, -, rest, stored, -, bus⟩ := rotateAdd_spec o s
    refine ⟨t, next, p ▸ .of_nvzc rfl (by decide) (.inl (by decide)) (adc_keeps ..),
      .of_stores stored rest, modify_length bus⟩
  | isb =>
    obtain ⟨t, next, -, p, -, -, -, -, rest, stored, -, bus⟩ := incSubtract_spec o s
    refine ⟨t, next, p ▸ .of_nvzc rfl (by decide) (.inl (by decide)) (sbc_keeps ..),
      .of_stores stored rest, modify_length bus⟩
  | dcp =>
    obtain ⟨t, next, p, -, -, rest, stored, -, bus⟩ := decCompare_spec o s
    rw [compare_flags] at p
    refine ⟨t, next, p ▸ .of_nzc rfl (.inl (by decide)) ⟨rfl, rfl, rfl⟩, .of_stores stored rest, modify_length bus⟩
  | _ => exact absurd stores Bool.false_ne_true

/-- A storing mnemonic is counted by its operand, without an extra cycle. -/
theorem storesOrShifts_class {m : Mnemonic} (stores : storesOrShifts m = true) :
    ownCount m = false ∧ ∀ o s, crossingCycles (accessClass m) o s = 0 := by
  cases m <;> first | exact absurd stores Bool.false_ne_true | exact ⟨rfl, fun _ _ => rfl⟩

theorem memMeaning_executes {i : Instr} (stores : storesOrShifts i.mnemonic = true)
    (meaning : ∃ m, i.operand = .source (.mem m) ∧ ∀ s, exec i s = memMeaning i.mnemonic m s) (s : State) :
    ∃ t, exec i s = .next t ∧ Executes i s t := by
  obtain ⟨m, operand, meaning⟩ := meaning
  obtain ⟨ordinary, extra⟩ := storesOrShifts_class stores
  obtain ⟨t, next, flags, frame, length⟩ := memMeaning_spec i stores m s
  refine ⟨t, (meaning s).trans next, flags, frame, fun n count => ?_⟩
  rw [cycles_of_operand ordinary, operand] at count
  cases count
  rw [fetches_of_operand ordinary, extraCycles, operand]
  simpa [operandCycles, Operand.mode, extra] using length

theorem store_executes {i : Instr} (stores : storesOperand i.mnemonic = true) (s : State) :
    ∃ t, exec i s = .next t ∧ Executes i s t :=
  memMeaning_executes (by rw [storesOrShifts, stores, Bool.true_or]) (exec_store i stores) s

theorem shiftsMemory_mnemonic {i : Instr} (shift : shiftsMemory i = true) : storesOrShifts i.mnemonic = true := by
  unfold shiftsMemory at shift
  split at shift
  case h_5 => exact absurd shift Bool.false_ne_true
  all_goals next m _ => rw [m]; rfl

theorem shift_executes {i : Instr} (shift : shiftsMemory i = true) (s : State) :
    ∃ t, exec i s = .next t ∧ Executes i s t :=
  memMeaning_executes (shiftsMemory_mnemonic shift) (exec_shift i shift) s

/-! ### Groups without a memory operand -/

/-- An instruction counted without its operand, whose step changes memory only by the writes listed. -/
theorem Executes.of_count {i : Instr} {s t : State} {n k : Nat} (count : cycles i = some n) (fetched : fetches i = k)
    (extra : extraCycles i s = 0) (length : t.bus.length + k = s.bus.length + n)
    (flags : FlagsAllowed i.mnemonic s.p t.p) (frame : Frame i s t) : Executes i s t := by
  refine ⟨flags, frame, fun n' count' => ?_⟩
  obtain rfl : n = n' := Option.some_inj.mp (count.symm.trans count')
  rw [fetched, length, extra, Nat.add_zero]

/-- The NOPs that only idle are counted by their operand. -/
theorem idles_class {i : Instr} (idle : idles i = true) : i.mnemonic = .nop := by
  unfold idles at idle
  split at idle
  case h_4 => exact eq_of_beq idle
  all_goals exact absurd idle Bool.false_ne_true

theorem idle_executes {i : Instr} (idles : idles i = true) (s : State) : ∃ t, exec i s = .next t ∧ Executes i s t := by
  have nop := idles_class idles
  have ordinary : ownCount i.mnemonic = false := by rw [nop]; rfl
  obtain ⟨implied, meaning⟩ | ⟨o, operand, meaning⟩ := exec_idle i idles
  · refine ⟨_, meaning s, .of_count (n := 2) (k := 1) ?_ ?_ ?_ (by simp) (by simp [FlagsAllowed.refl]) ?frame⟩
    case frame => exact .of_memory (by simp [keepsRest])
    · rw [cycles_of_operand ordinary, implied]; rfl
    · rw [fetches_of_operand ordinary, implied]; rfl
    · rw [extraCycles, implied]
  · exact ⟨_, meaning s, by simp [FlagsAllowed.refl], .of_memory (by simp [keepsRest]),
      readOperand_cycles ordinary operand (by rw [nop]; rfl) rfl⟩

theorem branches_class {m : Mnemonic} (branch : branches m = true) : ownCount m = false ∧ m ∈ silentMnemonics := by
  cases m <;> first | exact absurd branch Bool.false_ne_true | exact ⟨rfl, by decide⟩

/-- A branch stores nothing, and makes its dummy reads (R312). -/
theorem branchIf_frame (i : Instr) (cond : Bool) (off : Byte) (s : State) :
    ∃ t, branchIf cond off s = .next t ∧ t.p = s.p ∧ Frame i s t ∧
      t.bus.length = s.bus.length + if cond then (if hi (s.pc + offset off) = hi s.pc then 1 else 2) else 0 := by
  cases cond with
  | false => exact ⟨s, rfl, rfl, .of_memory ⟨rfl, rfl, rfl, rfl, rfl, rfl, rfl, rfl⟩, rfl⟩
  | true =>
    refine ⟨_, rfl, ?_⟩
    by_cases page : hi (s.pc + offset off) = hi s.pc <;> simp only [page, if_true, if_false]
    · exact ⟨by simp, .of_memory (by simp [keepsRest]), by simp⟩
    · exact ⟨by simp, .of_memory (by simp [keepsRest]), by simp⟩

theorem branch_executes {i : Instr} (branch : branches i.mnemonic = true) (s : State) :
    ∃ t, exec i s = .next t ∧ Executes i s t := by
  obtain ⟨off, operand, -, meaning⟩ := exec_branch i branch
  obtain ⟨ordinary, silent⟩ := branches_class branch
  obtain ⟨t, next, p, frame, length⟩ := branchIf_frame i (branchTaken i.mnemonic s.p) off s
  refine ⟨t, (meaning s).trans next, p ▸ .refl _ _, frame, fun n count => ?_⟩
  rw [cycles_of_operand ordinary, operand] at count
  cases count
  rw [fetches_of_operand ordinary, extraCycles, operand, length]
  exact Nat.add_right_comm ..

/-- The transfers that set N and Z, and the counts of an index register. -/
def transfers : Mnemonic → Bool
  | .tax | .tay | .txa | .tya | .tsx | .inx | .iny | .dex | .dey => true
  | _ => false

theorem exec_transfer (i : Instr) : transfers i.mnemonic = true → i.operand = .implied ∧
    ∃ put, (put = State.setA ∨ put = State.setX ∨ put = State.setY) ∧ ∀ s, ∃ v, exec i s = transferWith put v s := by
  cases i <;> first
    | exact fun h => absurd h Bool.false_ne_true
    | exact fun _ => ⟨rfl, State.setA, .inl rfl, fun s => ⟨_, rfl⟩⟩
    | exact fun _ => ⟨rfl, State.setX, .inr (.inl rfl), fun s => ⟨_, rfl⟩⟩
    | exact fun _ => ⟨rfl, State.setY, .inr (.inr rfl), fun s => ⟨_, rfl⟩⟩

theorem transfers_class {m : Mnemonic} (transfer : transfers m = true) : ownCount m = false ∧ setsNZ m = true := by
  cases m <;> first | exact absurd transfer Bool.false_ne_true | exact ⟨rfl, rfl⟩

/-- The count of an instruction without an operand. -/
theorem implied_count {i : Instr} (ordinary : ownCount i.mnemonic = false) (operand : i.operand = .implied)
    (s : State) : cycles i = some 2 ∧ fetches i = 1 ∧ extraCycles i s = 0 := by
  rw [cycles_of_operand ordinary, fetches_of_operand ordinary, extraCycles, operand]
  exact ⟨rfl, rfl, rfl⟩

theorem transfer_executes {i : Instr} (transfer : transfers i.mnemonic = true) (s : State) :
    ∃ t, exec i s = .next t ∧ Executes i s t := by
  obtain ⟨operand, put, register, meaning⟩ := exec_transfer i transfer
  obtain ⟨v, meaning⟩ := meaning s
  obtain ⟨ordinary, result⟩ := transfers_class transfer
  obtain ⟨count, fetched, extra⟩ := implied_count ordinary operand s
  refine ⟨_, meaning, ?_⟩
  obtain rfl | rfl | rfl := register <;>
    exact .of_count count fetched extra (by simp)
      (.of_nzc result (.inr (by simp [Flags.withNZ])) (by simp [Flags.withNZ]))
      (.of_memory (by simp [keepsRest]))

/-- The mnemonics that change one flag. -/
def changesFlag : Mnemonic → Bool
  | .clc | .sec | .cli | .sei | .clv | .cld | .sed => true
  | _ => false

/-- What each of them makes of the flags (R360 to R366). -/
def flagChange (m : Mnemonic) (p : Flags) : Flags :=
  match m with
  | .clc => { p with c := false }
  | .sec => { p with c := true }
  | .cli => { p with i := false }
  | .sei => { p with i := true }
  | .clv => { p with v := false }
  | .cld => { p with d := false }
  | .sed => { p with d := true }
  | _ => p

theorem exec_changeFlags (i : Instr) : changesFlag i.mnemonic = true →
    i.operand = .implied ∧ ∀ s, exec i s = changeFlags (flagChange i.mnemonic) s := by
  cases i <;> first | exact fun h => absurd h Bool.false_ne_true | exact fun _ => ⟨rfl, fun _ => rfl⟩

theorem changesFlag_class {m : Mnemonic} (change : changesFlag m = true) :
    ownCount m = false ∧ ∀ p, FlagsAllowed m p (flagChange m p) := by
  cases m <;> first
    | exact absurd change Bool.false_ne_true
    | exact ⟨rfl, fun p => ⟨by simp [silentMnemonics], by simp [flagChange], by simp [flagChange],
        by simp [overflowMnemonics, flagChange], by simp [carryMnemonics, flagChange], fun _ => ⟨rfl, rfl⟩⟩⟩

theorem changeFlags_executes {i : Instr} (change : changesFlag i.mnemonic = true) (s : State) :
    ∃ t, exec i s = .next t ∧ Executes i s t := by
  obtain ⟨operand, meaning⟩ := exec_changeFlags i change
  obtain ⟨ordinary, allowed⟩ := changesFlag_class change
  obtain ⟨count, fetched, extra⟩ := implied_count ordinary operand s
  exact ⟨_, meaning s, .of_count count fetched extra (by simp) (by simpa using allowed s.p)
    (.of_memory (by simp [keepsRest]))⟩

theorem shiftAcc_executes {i : Instr} {f : Byte → Bool → Byte × Bool} {s : State} (meaning : exec i s = shiftAcc f s)
    (count : cycles i = some 2) (fetched : fetches i = 1) (extra : extraCycles i s = 0)
    (result : setsNZ i.mnemonic = true) (carry : carryMnemonics.contains i.mnemonic = true) :
    ∃ t, exec i s = .next t ∧ Executes i s t :=
  ⟨_, meaning, .of_count count fetched extra (by simp)
    (.of_nzc result (.inl (List.contains_iff_mem.mp carry)) (by simp [Flags.withNZ, Flags.withC]))
    (.of_memory (by simp [keepsRest]))⟩

/-- A jam has no count (R395), and keeps all but the jam. -/
theorem jam_executes {i : Instr} {s : State} (jam : i.mnemonic = .jam) (meaning : exec i s = .next s.jam)
    (fetched : fetches i = 1) : ∃ t, exec i s = .next t ∧ Executes i s t := by
  refine ⟨_, meaning, .refl _ _, ⟨rfl, id, .inr ⟨by omega, rfl, rfl, rfl, rfl⟩⟩, fun n count => ?_⟩
  rw [cycles, jam] at count
  cases count

/-- The drawn jam of $82, $C2 and $E2 has the count of the NOP. -/
theorem idleOrJam_executes {i : Instr} {s : State} (meaning : exec i s = idleOrJam s) (count : cycles i = some 2)
    (fetched : fetches i = 2) (extra : extraCycles i s = 0) : ∃ t, exec i s = .next t ∧ Executes i s t := by
  refine ⟨_, meaning, ?_⟩
  cases s.drawBool.1
  · exact .of_count count fetched extra (by simp) (by simp [FlagsAllowed.refl])
      (.of_memory (by simp [keepsRest]))
  · refine .of_count count fetched extra (by simp) (by simp [FlagsAllowed.refl])
      ⟨by simp, fun inv => ?_, .inr ⟨by omega, by simp⟩⟩
    rwa [State.inv_congr (s := s)] <;> simp

/-! ### Instructions with a meaning of their own -/

theorem storeHigh_executes {i : Instr} {base : Addr} {index reg : Byte} {s u : State} {n k : Nat}
    (meaning : exec i s = .next (storeHigh base index reg u)) (same : u.store = s.store) (rest : keepsRest s u)
    (p : u.p = s.p) (count : cycles i = some n) (fetched : fetches i = k)
    (extra : extraCycles i s = 0) (length : u.bus.length + 2 + k = s.bus.length + n) :
    ∃ t, exec i s = .next t ∧ Executes i s t := by
  have stored := (storeHigh_stores base index reg u).of_store same
  refine ⟨_, meaning, .of_count count fetched extra ?_ ?_ (.of_stores stored ?_)⟩
  · simpa [storeHigh] using length
  · simpa [p] using FlagsAllowed.refl i.mnemonic s.p
  · simpa [keepsRest] using rest

theorem push_executes {i : Instr} {v : Byte} {s : State} (meaning : exec i s = .next ((s.touch s.pc).push v))
    (count : cycles i = some 3) (fetched : fetches i = 1) (extra : extraCycles i s = 0) :
    ∃ t, exec i s = .next t ∧ Executes i s t :=
  ⟨_, meaning, .of_count count fetched extra (by simp) (by simp [FlagsAllowed.refl])
    (.of_writes [(w16 0x01 s.sp, v)] (by simp [State.stackAddr]) (by simp [State.stackAddr]) (by simp [State.stackAddr])
      (by simp [State.stackAddr]) (by simp) (by simp))⟩

theorem brk_executes (s : State) : ∃ t, exec .brk s = .next t ∧ Executes .brk s t := by
  obtain ⟨u, vec, next, -, -, -, -, sp, p, pc, mem, colour, ddr, prl, jam, -, board, bus⟩ := exec_brk s
  obtain ⟨-, -, -, -, tp, ⟨tjam, -, -, tboard⟩, tmem, tcolour, tddr, tprl, l, h, -, tbus, -⟩ :=
    u.takeInterrupt_spec true vec
  refine ⟨_, next, .of_count (n := 7) (k := 1) rfl rfl rfl ?_ ?_ (.of_writes [(_, _), (_, _), (_, _)] (mem ▸ tmem)
    (tcolour.trans colour) (tddr.trans ddr) (tprl.trans prl) (tboard.trans board) (tjam.trans jam))⟩
  · simp [tbus, bus]
  · rw [tp, p]
    exact ⟨fun silent => absurd silent (by decide), fun _ => rfl, fun other => absurd (by decide) other, fun _ => rfl,
      fun _ => rfl, fun _ => ⟨rfl, rfl⟩⟩

theorem jsrAbs_executes (addr : Addr) (s : State) :
    ∃ t, exec (.jsrAbs addr) s = .next t ∧ Executes (.jsrAbs addr) s t :=
  ⟨_, rfl, .of_count (n := 6) (k := 2) rfl rfl rfl (by simp) (by simp [FlagsAllowed.refl])
    (.of_writes [(w16 0x01 s.sp, hi s.pc), (w16 0x01 (s.sp - 1), lo s.pc)] (by simp [State.stackAddr])
      (by simp [State.stackAddr]) (by simp [State.stackAddr]) (by simp [State.stackAddr]) (by simp) (by simp))⟩

theorem rti_executes (s : State) : ∃ t, exec .rti s = .next t ∧ Executes .rti s t := by
  refine ⟨_, rfl, .of_count (n := 6) (k := 1) rfl rfl rfl (by simp [State.returnFromInterrupt_bus])
    (.of_pull (.inr rfl)) (.of_memory ?_)⟩
  all_goals simp [State.returnFromInterrupt, keepsRest]

theorem plp_executes (s : State) : ∃ t, exec .plp s = .next t ∧ Executes .plp s t := by
  refine ⟨_, rfl, .of_count (n := 4) (k := 1) rfl rfl rfl (by simp) (.of_pull (.inl rfl)) (.of_memory ?_)⟩
  all_goals simp [keepsRest]

theorem pla_executes (s : State) : ∃ t, exec .pla s = .next t ∧ Executes .pla s t := by
  refine ⟨_, rfl, .of_count (n := 4) (k := 1) rfl rfl rfl (by simp) (.of_nzc rfl (.inr ?_) ?_)
    (.of_memory ?_)⟩
  all_goals simp [Flags.withNZ, keepsRest]

theorem rts_executes (s : State) : ∃ t, exec .rts s = .next t ∧ Executes .rts s t := by
  refine ⟨_, rfl, .of_count (n := 6) (k := 1) rfl rfl rfl (by simp) (by simp [FlagsAllowed.refl]) (.of_memory ?_)⟩
  all_goals simp [keepsRest]

theorem txs_executes (s : State) : ∃ t, exec .txs s = .next t ∧ Executes .txs s t := by
  refine ⟨_, rfl, .of_count (n := 2) (k := 1) rfl rfl rfl (by simp) (by simp [FlagsAllowed.refl]) (.of_memory ?_)⟩
  all_goals simp [keepsRest]

theorem jmpAbs_executes (addr : Addr) (s : State) :
    ∃ t, exec (.jmpAbs addr) s = .next t ∧ Executes (.jmpAbs addr) s t :=
  ⟨_, rfl, .of_count (n := 3) (k := 3) rfl rfl rfl rfl (.refl _ _)
    (.of_memory ⟨rfl, rfl, rfl, rfl, rfl, rfl, rfl, rfl⟩)⟩

theorem jmpInd_executes (addr : Addr) (s : State) :
    ∃ t, exec (.jmpInd addr) s = .next t ∧ Executes (.jmpInd addr) s t := by
  refine ⟨_, rfl, .of_count (n := 5) (k := 3) rfl rfl rfl (by simp) (by simp [FlagsAllowed.refl]) (.of_memory ?_)⟩
  all_goals simp [keepsRest]

/-- An instruction with an immediate operand that changes registers and flags alone. -/
theorem immediate_executes {i : Instr} {s t : State} (meaning : exec i s = .next t) (count : cycles i = some 2)
    (fetched : fetches i = 2) (extra : extraCycles i s = 0) (same : t.store = s.store) (jam : t.jammed = s.jammed)
    (pending : t.nmiPending = s.nmiPending) (bus : t.bus = s.bus) (flags : FlagsAllowed i.mnemonic s.p t.p) :
    ∃ t, exec i s = .next t ∧ Executes i s t := by
  obtain ⟨board, inputs, ddr, prl, mem, colour⟩ := State.store_eq.mp same
  exact ⟨t, meaning, .of_count count fetched extra (by rw [bus]) flags
    (.of_memory ⟨mem, colour, ddr, prl, jam, pending, inputs, board⟩)⟩

/-- The flags of ARR, which may write all but D and I. -/
theorem FlagsAllowed.of_arr {p q : Flags} (kept : q.d = p.d ∧ q.i = p.i) : FlagsAllowed .arr p q :=
  .of_nvzc rfl (by decide) (.inl (by decide)) kept

theorem arrImm_executes (v : Byte) (s : State) : ∃ t, exec (.arrImm v) s = .next t ∧ Executes (.arrImm v) s t := by
  have meaning : exec (.arrImm v) s = if s.p.d then arrDecimal s else .next (arrBinary v s) := rfl
  obtain ⟨-, -, -, -, -, d, i, -⟩ := arrBinary_spec v s
  cases mode : s.p.d
  · refine immediate_executes (meaning.trans (if_neg (by simp [mode]))) rfl rfl rfl ?_ ?_ ?_ ?_ (.of_arr ⟨d, i⟩)
    all_goals simp [arrBinary, State.store]
  · refine immediate_executes (meaning.trans (if_pos mode)) rfl rfl rfl ?_ ?_ ?_ ?_ (.of_arr ?_)
    all_goals simp [State.store]

theorem aneImm_executes (v : Byte) (s : State) : ∃ t, exec (.aneImm v) s = .next t ∧ Executes (.aneImm v) s t := by
  refine immediate_executes (i := .aneImm v) (s := s) rfl rfl rfl rfl ?_ ?_ ?_ ?_ (.of_nzc rfl (.inr ?_) ?_)
  all_goals simp [State.drawFrom, State.store, Flags.withNZ]

theorem lxaImm_executes (v : Byte) (s : State) : ∃ t, exec (.lxaImm v) s = .next t ∧ Executes (.lxaImm v) s t := by
  refine immediate_executes (i := .lxaImm v) (s := s) rfl rfl rfl rfl ?_ ?_ ?_ ?_ (.of_nzc rfl (.inr ?_) ?_)
  all_goals
    cases s.drawBool.1 <;>
      simp [State.lxaUsual, State.lxaCleared, State.drawFrom, putAX, State.store, Flags.withNZ]

/-- A result in A or X with N, Z and a carry. -/
theorem withCarry_executes {i : Instr} {s t : State} (meaning : exec i s = .next t) (count : cycles i = some 2)
    (fetched : fetches i = 2) (extra : extraCycles i s = 0) (result : setsNZ i.mnemonic = true)
    (carry : carryMnemonics.contains i.mnemonic = true)
    (fields : t.store = s.store ∧ t.jammed = s.jammed ∧ t.nmiPending = s.nmiPending ∧ t.bus = s.bus ∧
      t.p.v = s.p.v ∧ t.p.d = s.p.d ∧ t.p.i = s.p.i) : ∃ t, exec i s = .next t ∧ Executes i s t := by
  obtain ⟨same, jam, pending, bus, kept⟩ := fields
  exact immediate_executes meaning count fetched extra same jam pending bus (.of_nzc result
    (.inl (List.contains_iff_mem.mp carry)) kept)

theorem lasAby_executes (addr : Addr) (s : State) :
    ∃ t, exec (.lasAby addr) s = .next t ∧ Executes (.lasAby addr) s t := by
  refine ⟨_, rfl, .of_nzc rfl (.inr ?_) ?_, .of_memory ?_,
    readOperand_cycles (o := .mem (.aby addr)) rfl rfl rfl ?_⟩
  all_goals simp [putAX, Flags.withNZ, keepsRest, readOperand]

/-- Every instruction has a next state, keeps the frame, writes the flags it is named for and has its cycles. -/
theorem executes (i : Instr) (s : State) : ∃ t, exec i s = .next t ∧ Executes i s t := by
  cases i with
  | brk => exact brk_executes s
  | jsrAbs addr => exact jsrAbs_executes addr s
  | rts => exact rts_executes s
  | rti => exact rti_executes s
  | jmpAbs addr => exact jmpAbs_executes addr s
  | jmpInd addr => exact jmpInd_executes addr s
  | pha | php => exact push_executes rfl rfl rfl rfl
  | pla => exact pla_executes s
  | plp => exact plp_executes s
  | txs => exact txs_executes s
  | nopImm82 v | nopImmC2 v | nopImmE2 v => exact idleOrJam_executes rfl rfl rfl rfl
  | aslAcc | lsrAcc | rolAcc | rorAcc => exact shiftAcc_executes rfl rfl rfl rfl rfl rfl
  | ancImm0B v | ancImm2B v | asrImm v =>
    exact withCarry_executes rfl rfl rfl rfl rfl rfl (by simp [State.store, Flags.withNZ, Flags.withC])
  | sbxImm v =>
    exact withCarry_executes rfl rfl rfl rfl rfl rfl (by simp [State.store, compare_flags])
  | arrImm v => exact arrImm_executes v s
  | aneImm v => exact aneImm_executes v s
  | lxaImm v => exact lxaImm_executes v s
  | lasAby addr => exact lasAby_executes addr s
  | shaIzy ptr =>
    exact storeHigh_executes (n := 6) (k := 2) rfl (pointerIzy_store ptr s) (by simp [keepsRest]) (by simp) rfl rfl rfl
      (by simp [pointerIzy])
  | shsAby addr | shyAbx addr | shxAby addr | shaAby addr =>
    exact storeHigh_executes rfl rfl (by simp [keepsRest]) (by simp) rfl rfl rfl rfl
  | _ => first
    | exact read_executes rfl s
    | exact store_executes rfl s
    | exact shift_executes rfl s
    | exact idle_executes rfl s
    | exact branch_executes rfl s
    | exact transfer_executes rfl s
    | exact changeFlags_executes rfl s
    | exact jam_executes rfl rfl rfl

/-- Settles O49: by `executes`. -/
theorem onlyFlagWritersWriteFlags : Obligations.OnlyFlagWritersWriteFlags := by
  intro i s
  obtain ⟨t, next, facts⟩ := executes i s
  exact ⟨t, next, facts.flags⟩

end Sys2Proof.Machine
end

