-- ==== Sys2Proof/Proofs/Fetching.lean ====
section
/-! The fetch of an instruction (00_scope.md R15, 30_encoding.md R100): which bytes it reads over the bus, what it leaves
alone, and which instruction it gives where the bytes at PC are known. -/

namespace Sys2Proof.Machine

/-! ### What the opcode asks for -/

/-- $20 is JSR's one opcode. -/
theorem decodeOpcode_jsr (op l h : Byte) : (decodeOpcode op l h).mnemonic = .jsr ↔ op = 0x20 := by
  rw [(decodeOpcode_form op l h).1]
  obtain ⟨n, bound, rfl⟩ : ∃ n < 256, op = BitVec.ofNat 8 n := ⟨op.toNat, op.isLt, by simp⟩
  interval_cases n <;> decide

/-- The opcode says how many bytes are fetched before `exec`. -/
theorem fetches_decodeOpcode (op l h : Byte) :
    fetches (decodeOpcode op l h) = if op = 0x20 then 2 else operandBytes op + 1 := by
  have bound := operandBytes_le op
  have bytes : (decodeOpcode op l h).operand.mode.bytes = operandBytes op + 1 := by
    rw [← (decodeOpcode op l h).form_in_matrix.2, encode_decodeOpcode, List.length_take]
    simp only [List.length_cons, List.length_nil]
    omega
  simp only [fetches, decodeOpcode_jsr, bytes]

/-- $20 has two operand bytes. -/
theorem operandBytes_jsr : operandBytes 0x20 = 2 := rfl

theorem ne_jsr_of_operandBytes {op : Byte} (few : operandBytes op < 2) : op ≠ 0x20 := by
  rintro rfl
  exact absurd few (by decide)

theorem not_jsr_of_operandBytes {op l h : Byte} (few : operandBytes op < 2) :
    (decodeOpcode op l h).mnemonic ≠ .jsr :=
  mt (decodeOpcode_jsr ..).mp (ne_jsr_of_operandBytes few)

/-- The fetch by the number of operand bytes. -/
theorem State.fetchInstr_none {s : State} (n : operandBytes s.fetchByte.1 = 0) :
    s.fetchInstr = (decodeOpcode s.fetchByte.1 0 0, s.fetchByte.2) := by
  rw [State.fetchInstr, n]
  rfl

theorem State.fetchInstr_one {s : State} (n : operandBytes s.fetchByte.1 = 1) :
    let l := s.fetchByte.2.fetchByte
    s.fetchInstr = (decodeOpcode s.fetchByte.1 l.1 0, l.2) := by
  rw [State.fetchInstr, n]
  rfl

theorem State.fetchInstr_two {s : State} (n : operandBytes s.fetchByte.1 = 2) (other : s.fetchByte.1 ≠ 0x20) :
    let l := s.fetchByte.2.fetchByte
    let h := l.2.fetchByte
    s.fetchInstr = (decodeOpcode s.fetchByte.1 l.1 h.1, h.2) := by
  rw [State.fetchInstr, n]
  simp only [if_neg other]

/-- JSR's last byte is looked at as it answers three cycles later (R316; log 23). -/
theorem State.fetchInstr_jsr {s : State} (jsr : s.fetchByte.1 = 0x20) :
    let l := s.fetchByte.2.fetchByte
    let h := l.2.answerAt (l.2.bus.length + 3) l.2.pc
    s.fetchInstr = (decodeOpcode s.fetchByte.1 l.1 h.1, h.2) := by
  rw [State.fetchInstr, jsr, operandBytes_jsr]
  simp only [if_true]

/-- The four ways of a fetch. -/
theorem State.fetch_cases (s : State) :
    operandBytes s.fetchByte.1 = 0 ∨ operandBytes s.fetchByte.1 = 1 ∨
      (operandBytes s.fetchByte.1 = 2 ∧ s.fetchByte.1 ≠ 0x20) ∨ s.fetchByte.1 = 0x20 := by
  have bound := operandBytes_le s.fetchByte.1
  by_cases jsr : s.fetchByte.1 = 0x20
  · exact .inr (.inr (.inr jsr))
  · have : operandBytes s.fetchByte.1 = 0 ∨ operandBytes s.fetchByte.1 = 1 ∨ operandBytes s.fetchByte.1 = 2 := by omega
    exact this.imp_right (Or.imp_right fun n => .inl ⟨n, jsr⟩)

/-! ### What a fetch leaves -/

/-- The fetched bytes stand on the bus, the first two of them read at PC and behind it. -/
def fetchedFrom (pc : Addr) (reads : List BusAccess) : Prop :=
  reads.length ≤ 2 → ∀ c ∈ reads, ∃ v, c = .read pc v ∨ c = .read (pc + 1) v

theorem State.fetchInstr_spec (s : State) :
    let f := s.fetchInstr
    f.2.a = s.a ∧ f.2.x = s.x ∧ f.2.y = s.y ∧ f.2.sp = s.sp ∧ f.2.p = s.p ∧ f.2.ddr = s.ddr ∧ f.2.prl = s.prl ∧
      f.2.mem = s.mem ∧ f.2.colorRam = s.colorRam ∧ f.2.jammed = s.jammed ∧ f.2.board = s.board ∧
      ∃ reads, f.2.bus = s.bus ++ reads ∧ reads.length = fetches f.1 ∧ fetchedFrom s.pc reads := by
  obtain n | n | ⟨n, other⟩ | jsr := s.fetch_cases
  · rw [State.fetchInstr_none n]
    simpa [fetches_decodeOpcode, n, fetchedFrom] using ne_jsr_of_operandBytes (by omega)
  · rw [State.fetchInstr_one n]
    simp [fetches_decodeOpcode, n, fetchedFrom]
  · rw [State.fetchInstr_two n other]
    simpa [fetches_decodeOpcode, n, fetchedFrom] using other
  · rw [State.fetchInstr_jsr jsr]
    simp [fetches_decodeOpcode, jsr, fetchedFrom]

/-! ### Fetching known bytes -/

/-- What answers does not depend on PC and the bus list. -/
theorem State.answerAt_moved (s : State) (pc : Addr) (bus : List BusAccess) (n : Nat) (addr : Addr) :
    ((s.setPc pc).setBus bus).answerAt n addr =
      ((s.answerAt n addr).1, ((s.answerAt n addr).2.setPc pc).setBus bus) := by
  have drawn (k m : Byte) : ((s.setPc pc).setBus bus).withFreeBits k m =
      ((s.withFreeBits k m).1, ((s.withFreeBits k m).2.setPc pc).setBus bus) := by
    unfold State.withFreeBits
    split <;> rfl
  have rom (k : Nat) (m : Option (List Host.Cell)) (a : Nat) : ((s.setPc pc).setBus bus).externalRom k m a =
      ((s.externalRom k m a).1, ((s.externalRom k m a).2.setPc pc).setBus bus) := by
    unfold State.externalRom
    split <;> rfl
  have target : ((s.setPc pc).setBus bus).target addr = s.target addr := rfl
  unfold State.answerAt
  rw [target]
  cases s.target addr <;> first | exact drawn _ _ | exact rom _ _ _ | rfl

/-- A byte that is known is fetched without a draw. -/
theorem State.fetchByte_known {s : State} {pc next : Addr} {bus : List BusAccess} {v : Byte} (following : pc + 1 = next)
    (known : s.answerAt bus.length pc = (v, s)) :
    ((s.setPc pc).setBus bus).fetchByte = (v, (s.setPc next).setBus (bus ++ [.read pc v])) := by
  have answer : ((s.setPc pc).setBus bus).answer pc = (v, (s.setPc pc).setBus bus) := by
    rw [State.answer, State.setBus_bus, State.answerAt_moved, known]
  have here : ((s.setPc pc).setBus bus).pc = pc := rfl
  simp only [State.fetchByte, State.read, here, answer, following]
  rfl

/-- The bytes that stand from `pc` on, as the read cycles that fetch them. -/
def readsFrom (pc : Addr) (bytes : List Byte) : List BusAccess :=
  bytes.zipIdx.map fun c => .read (pc + BitVec.ofNat 16 c.2) c.1

/-- The fetch of an instruction whose bytes are known, each in the cycle that reads it. -/
theorem State.fetchInstr_known {s : State} {i : Instr} {bytes : List Byte} (encoded : EncodesAs i bytes)
    (known : ∀ k, (h : k < bytes.length) →
      s.answerAt (if i.mnemonic = .jsr ∧ k = 2 then 5 else k) (s.pc + BitVec.ofNat 16 k) = (bytes[k], s)) :
    let n := if i.mnemonic = .jsr then 2 else bytes.length
    (s.setBus []).fetchInstr =
      (i, (s.setPc (s.pc + BitVec.ofNat 16 n)).setBus (readsFrom s.pc (bytes.take n))) := by
  have two : s.pc + 1 + 1 = s.pc + 2 := BitVec.add_assoc ..
  have three : s.pc + 2 + 1 = s.pc + 3 := BitVec.add_assoc ..
  have first {op : Byte} (opcode : s.answerAt 0 s.pc = (op, s)) :
      (s.setBus []).fetchByte = (op, (s.setPc (s.pc + 1)).setBus [.read s.pc op]) :=
    State.fetchByte_known (bus := []) rfl opcode
  have second {op l : Byte} (low : s.answerAt 1 (s.pc + 1) = (l, s)) :
      ((s.setPc (s.pc + 1)).setBus [.read s.pc op]).fetchByte =
        (l, (s.setPc (s.pc + 2)).setBus [.read s.pc op, .read (s.pc + 1) l]) :=
    State.fetchByte_known two low
  cases encoded with
  | alone op n d =>
    have plain : i.mnemonic ≠ .jsr := d ▸ not_jsr_of_operandBytes (by omega)
    have opcode := first (by simpa using known 0 (by simp))
    rw [State.fetchInstr_none (by rw [opcode]; exact n), opcode, d, if_neg plain]
    simp [readsFrom]
  | withByte op l n d =>
    have plain : i.mnemonic ≠ .jsr := d ▸ not_jsr_of_operandBytes (by omega)
    have opcode := first (by simpa using known 0 (by simp))
    have low := second (op := op) (by simpa using known 1 (by simp))
    rw [State.fetchInstr_one (by rw [opcode]; exact n), opcode, low, d, if_neg plain]
    simp [readsFrom]
  | withWord op a n d =>
    have opcode := first (by simpa using known 0 (by simp))
    have low := second (op := op) (by simpa using known 1 (by simp))
    have last := known 2 (by simp)
    by_cases jsr : op = 0x20
    · have called : i.mnemonic = .jsr := d ▸ (decodeOpcode_jsr ..).mpr jsr
      have high : s.answerAt 5 (s.pc + 2) = (hi a, s) := by simpa [called] using last
      rw [State.fetchInstr_jsr (by rw [opcode]; exact jsr), opcode, low, if_pos called, State.answerAt_moved]
      simp only [State.setBus_bus, State.setBus_pc, State.setPc_pc, List.length_cons, List.length_nil,
        Nat.reduceAdd, high, d]
      simp [readsFrom]
    · have plain : i.mnemonic ≠ .jsr := d ▸ mt (decodeOpcode_jsr ..).mp jsr
      have high := State.fetchByte_known (bus := [.read s.pc op, .read (s.pc + 1) (lo a)]) three
        (by simpa [plain] using last)
      rw [State.fetchInstr_two (by rw [opcode]; exact n) (by rw [opcode]; exact jsr), opcode, low, high, d, if_neg plain]
      simp [readsFrom]

end Sys2Proof.Machine
end

