-- ==== Sys2Proof/Proofs/Steps.lean ====
section
/-! Steps (60_exceptions.md R512, R520 to R523, R530, 00_scope.md R15): what each event at an instruction boundary comes
to, and from it what holds of every step. -/

namespace Sys2Proof.Machine

/-! ### Events -/

theorem State.event_instruction {s : State} (running : s.inputs.resetPin = .inactive) (awake : s.jammed = false)
    (noNmi : s.nmiPending = false) (noIrq : s.inputs.irqLine = false ∨ s.p.i = true) : s.event = .instruction := by
  have masked : (s.inputs.irqLine && !s.p.i) = false := by
    obtain h | h := noIrq <;> simp [h]
  simp [State.event, running, awake, noNmi, masked]

/-- An instruction is due only to a processor that is not jammed. -/
theorem State.awake_of_event {s : State} (due : s.event = .instruction) : s.jammed = false := by
  unfold State.event at due
  cases jammed : s.jammed
  · rfl
  · rw [jammed] at due
    split at due <;> cases due

/-- Settles O53: in both cases the event is the stuck one. -/
theorem jammedOrHeldStateStays : Obligations.JammedOrHeldStateStays := by
  intro s stopped
  refine step_stuck ?_
  obtain held | ⟨running, jammed⟩ := stopped
  · simp [State.event, held]
  · simp [State.event, running, jammed]

/-- Settles O56: the reset state, evaluated. -/
theorem resetStateValues : Obligations.ResetStateValues := ⟨rfl, rfl, rfl, rfl, rfl, rfl⟩

/-- Settles O57: the reset state, evaluated. -/
theorem resetMeetsInvariant : Obligations.ResetMeetsInvariant := by
  unfold Obligations.ResetMeetsInvariant
  decide

/-- Settles O50: the fetch by `fetchInstr_known`, the end of the step by `finish_none`. -/
theorem stepRunsDecodedInstruction : Obligations.StepRunsDecodedInstruction := by
  intro s bytes i running complete awake noNmi noIrq decoded known
  have encoding : encode i = bytes := by simpa using encodeOfDecodeIsIdentity bytes [] i decoded
  have fetch := State.fetchInstr_known (encoding ▸ encodesAs_encode i) known
  rw [step_instruction (State.event_instruction (s := s.setBus []) running awake noNmi noIrq),
    finish_none (s := s.setBus []) complete, fetch]
  rfl

/-- A step that runs to its end, from what it comes to. -/
theorem step_uncut {s v : State} {f : State → Nat → Flags} (complete : s.inputs.resetArriving = none)
    (step_eq : step s = finish (s.setBus []) f (.next v)) : step s = .next v.settleNmi.elapse := by
  rw [step_eq, finish_none (s := s.setBus []) complete, settle]

/-! ### Interrupts -/

/-- What the interrupt sequence of NMI and IRQ leaves (R522). -/
theorem State.interruptSequence_spec (s : State) (vec : Addr) :
    let slot := fun k : Byte => w16 0x01 (s.sp - k)
    let t := s.interruptSequence vec
    let mem := ((s.mem.write (slot 0).toNat (hi s.pc)).write (slot 1).toNat (lo s.pc)).write (slot 2).toNat
      (s.p.pack false)
    t.a = s.a ∧ t.x = s.x ∧ t.y = s.y ∧ t.sp = s.sp - 3 ∧ t.p = { s.p with i := true } ∧ keepsRest s t ∧
      t.mem = mem ∧ t.colorRam = s.colorRam ∧ t.ddr = s.ddr ∧ t.prl = s.prl ∧
      ∃ x y l h, t.pc = w16 h l ∧
        t.bus = s.bus ++ [.read s.pc x, .read s.pc y, .write (slot 0) (hi s.pc), .write (slot 1) (lo s.pc),
          .write (slot 2) (s.p.pack false), .read vec l, .read (vec + 1) h] ∧
        givesByte s mem vec l ∧ givesByte s mem (vec + 1) h := by
  obtain ⟨a, x, y, sp, p, rest, mem, colour, ddr, prl, l, h, pc, bus, low, high⟩ :=
    ((s.touch s.pc).touch s.pc).takeInterrupt_spec false vec
  have target (addr : Addr) : ((s.touch s.pc).touch s.pc).target addr = s.target addr :=
    State.target_congr (by simp) (by simp) (by simp) (by simp) addr
  have low := low.congr (by simp) (target _)
  have high := high.congr (by simp) (target _)
  refine ⟨a.trans (by simp), x.trans (by simp), y.trans (by simp), sp.trans (by simp), p.trans (by simp),
    by simpa [keepsRest, State.interruptSequence] using rest, mem.trans (by simp), colour.trans (by simp),
    ddr.trans (by simp), prl.trans (by simp), (s.answer s.pc).1, ((s.touch s.pc).answer s.pc).1, l, h, pc, bus.trans (by simp), ?_, ?_⟩
  · simpa using low
  · simpa using high

/-- What a step that takes an interrupt comes to, where the latched NMI, if it was that, is no longer pending. -/
theorem interruptStep_spec {s u : State} {vec : Addr} (start : u = s.setBus [] ∨ u = (s.setBus []).setNmiPending false)
    (pending : u.nmiPending = false) (awake : s.jammed = false) :
    let slot := fun k : Byte => w16 0x01 (s.sp - k)
    let t := (u.interruptSequence vec).settleNmi.elapse
    let pushed := s.p.pack false
    ∃ l h x y, t.pc = w16 h l ∧ t.sp = s.sp - 3 ∧ t.a = s.a ∧ t.x = s.x ∧ t.y = s.y ∧ t.p = { s.p with i := true } ∧
      t.jammed = false ∧ t.nmiPending = s.inputs.nmiArriving ∧
      t.inputs = { s.inputs with nmiArriving := false }.elapse 7 ∧ t.board = s.board ∧
      t.mem = ((s.mem.write (slot 0).toNat (hi s.pc)).write (slot 1).toNat (lo s.pc)).write (slot 2).toNat pushed ∧
      keepsMemoryBut [slot 0, slot 1, slot 2] s t ∧
      t.bus = [.read s.pc x, .read s.pc y, .write (slot 0) (hi s.pc), .write (slot 1) (lo s.pc),
        .write (slot 2) pushed, .read vec l, .read (vec + 1) h] ∧
      givesByte s t.mem vec l ∧ givesByte s t.mem (vec + 1) h := by
  obtain ⟨ta, tx, ty, tsp, tp, ⟨tjam, tpending, tinputs, tboard⟩, tmem, tcolour, tddr, tprl, x, y, l, h, tpc, tbus,
    low, high⟩ := u.interruptSequence_spec vec
  have same : u.a = s.a ∧ u.x = s.x ∧ u.y = s.y ∧ u.sp = s.sp ∧ u.p = s.p ∧ u.pc = s.pc ∧ u.mem = s.mem ∧
      u.colorRam = s.colorRam ∧ u.ddr = s.ddr ∧ u.prl = s.prl ∧ u.jammed = s.jammed ∧ u.inputs = s.inputs ∧
      u.board = s.board ∧ u.bus = [] := by
    obtain rfl | rfl := start <;> simp
  obtain ⟨a, x', y', sp, p, pc, mem, colour, ddr, prl, jam, inputs, board, bus⟩ := same
  have target := State.target_congr board inputs ddr prl
  have low := low.congr board (target _)
  have high := high.congr board (target _)
  rw [sp, pc, p, mem] at tmem low high
  rw [sp, pc, p, bus, List.nil_append] at tbus
  have written := (show (u.interruptSequence vec).settleNmi.elapse.mem = _ by simp).trans tmem
  refine ⟨l, h, x, y, by simpa using tpc, by simpa [sp] using tsp, by simpa [a] using ta, by simpa [x'] using tx,
    by simpa [y'] using ty, by simpa [p] using tp, by simpa [jam, awake] using tjam, ?_, ?_, by simpa [board] using tboard,
    written,
    keepsMemoryBut_writes [(_, _), (_, _), (_, _)] written (by simpa [colour] using tcolour)
      (by simpa [ddr] using tddr) (by simpa [prl] using tprl), by simpa using tbus, ?_, ?_⟩
  · simp [tpending, pending, tinputs, inputs]
  · simp [tinputs, inputs, tbus]
  · exact written ▸ low
  · exact written ▸ high

/-- Settles O52: the NMI or the IRQ is due, and its step is `interruptStep_spec`. -/
theorem interruptEntry : Obligations.InterruptEntry := by
  intro s vec running complete awake due
  obtain ⟨bit5, bit4⟩ := Flags.pack_bits false s.p
  obtain ⟨pending, rfl⟩ | ⟨pending, line, unmasked, rfl⟩ := due
  · have event : (s.setBus []).event = .nmi := by simp [State.event, running, awake, pending]
    obtain ⟨l, h, x, y, fields⟩ := interruptStep_spec (s := s) (vec := nmiVector) (.inr rfl) rfl awake
    exact ⟨_, s.p.pack false, l, h, x, y, step_uncut complete (step_nmi event), rfl, bit4, bit5, fields⟩
  · have event : (s.setBus []).event = .irq := by simp [State.event, running, awake, pending, line, unmasked]
    obtain ⟨l, h, x, y, fields⟩ := interruptStep_spec (s := s) (vec := s.board.irqVector) (.inl rfl) pending awake
    exact ⟨_, s.p.pack false, l, h, x, y, step_uncut complete (step_irq event), rfl, bit4, bit5, fields⟩

/-! ### Reset -/

/-- Settles O54: the reset sequence by Laws/Entry.lean, and the time of its two cycles. -/
theorem resetSequenceEffects : Obligations.ResetSequenceEffects := by
  intro s released complete
  have event : (s.setBus []).event = .reset := by simp [State.event, released]
  obtain ⟨jam, pending, ddr, prl, a, x, y, n, v, z, c, mem, colour, inputs, board, l, h, pc, bus, low, high⟩ :=
    (s.setBus []).resetSequence_spec
  refine ⟨_, l, h, step_uncut complete (step_reset event), ?_⟩
  have low := low.congr (s := s.setDdr 0) rfl rfl
  have high := high.congr (s := s.setDdr 0) rfl rfl
  simp [jam, pending, ddr, a, x, y, n, v, z, c, mem, colour, inputs, board, pc, bus]
  exact ⟨prl, low, high⟩

/-! ### How a step ends -/

/-- What the end of a step leaves as it was: parameters, jam, memory and the port's latch; -RESET may have made every
line an input. -/
structure Settled (w t : State) : Prop where
  board : t.board = w.board
  jammed : t.jammed = w.jammed
  mem : t.mem = w.mem
  colour : t.colorRam = w.colorRam
  prl : t.prl = w.prl
  ddr : t.ddr = w.ddr ∨ t.ddr = 0

theorem Settled.inv {w t : State} (settled : Settled w t) (inv : w.inv = true) : t.inv = true := by
  obtain ⟨board, -, mem, colour, prl, ddr⟩ := settled
  simp only [State.inv, Bool.and_eq_true, beq_iff_eq, board, mem, colour, prl] at inv ⊢
  obtain ⟨⟨memories, lines⟩, latch⟩ := inv
  refine ⟨⟨memories, ?_⟩, latch⟩
  obtain ddr | ddr := ddr
  · rw [ddr, lines]
  · rw [ddr]
    exact BitVec.zero_and

/-- A step ends in what it comes to, or, cut short, in its beginning with the writes made done over. -/
theorem finish_spec (s : State) (f : State → Nat → Flags) (v : State) : ∃ t, finish s f (.next v) = .next t ∧
    (Settled v t ∧ t.sp = v.sp ∧ t.bus = v.bus ∨ ∃ writes, Settled (s.replay writes) t) := by
  obtain whole | ⟨k, -, cut⟩ := finish_next s f v
  · exact ⟨_, whole, .inl ⟨⟨by simp, by simp, by simp, by simp, by simp, .inl (by simp)⟩, by simp, by simp⟩⟩
  · refine ⟨_, cut, ?_⟩
    by_cases done : v.bus.length ≤ k
    · refine .inl ⟨⟨?_, ?_, ?_, ?_, ?_, .inr ?_⟩, ?_, ?_⟩ <;> simp [State.cutShort, done, State.pullReset]
    · refine .inr ⟨v.bus.take k, ⟨?_, ?_, ?_, ?_, ?_, .inr ?_⟩⟩ <;> simp [State.cutShort, done, State.pullReset]

/-- What every step that runs comes to, before its end. -/
structure Runs (s v : State) : Prop where
  board : v.board = s.board
  inv : s.inv = true → v.inv = true
  jam : v.jammed = true → s.jammed = true ∨ v.sp = s.sp ∧ v.mem = s.mem ∧ v.colorRam = s.colorRam ∧
    ∀ c ∈ v.bus, ∃ b, c = .read s.pc b ∨ c = .read (s.pc + 1) b

/-- The reset sequence leaves memory, and the port in its bounds. -/
theorem runs_reset (s : State) : Runs s (s.setBus []).resetSequence := by
  obtain ⟨jam, -, ddr, prl, -, -, -, -, -, -, -, mem, colour, -, board, -⟩ := (s.setBus []).resetSequence_spec
  refine ⟨board, fun inv => ?_, fun jammed => absurd (jam.symm.trans jammed) Bool.false_ne_true⟩
  simp only [State.inv, Bool.and_eq_true, beq_iff_eq] at inv ⊢
  obtain ⟨⟨memories, -⟩, -⟩ := inv
  rw [mem, colour, board, ddr]
  exact ⟨⟨memories, BitVec.zero_and⟩, prl⟩

/-- An interrupt writes to the stack alone. -/
theorem runs_interrupt {s u : State} (vec : Addr) (store : u.store = s.store) (jammed : u.jammed = s.jammed) :
    Runs s (u.interruptSequence vec) := by
  obtain ⟨-, -, -, -, -, ⟨jam, -, -, board⟩, mem, colour, ddr, prl, -⟩ := u.interruptSequence_spec vec
  obtain ⟨ub, -, ud, up, um, uc⟩ := State.store_eq.mp store
  rw [um] at mem
  have frame : Frame .brk s (u.interruptSequence vec) := .of_writes [(w16 0x01 (u.sp - 0), hi u.pc),
    (w16 0x01 (u.sp - 1), lo u.pc), (w16 0x01 (u.sp - 2), u.p.pack false)] mem
    (colour.trans uc) (ddr.trans ud) (prl.trans up) (board.trans ub) (jam.trans jammed)
  exact ⟨frame.board, frame.inv, fun stuck => .inl ((jam.trans jammed).symm.trans stuck)⟩

/-- An instruction runs by `executes`, after a fetch that changes nothing of this. -/
theorem runs_instruction (s : State) :
    ∃ v, exec (s.setBus []).fetchInstr.1 (s.setBus []).fetchInstr.2 = .next v ∧ Runs s v := by
  obtain ⟨-, -, -, sp, -, ddr, prl, mem, colour, jammed, board, reads, bus, length, fetched⟩ :=
    (s.setBus []).fetchInstr_spec
  obtain ⟨v, next, -, frame, -⟩ := executes (s.setBus []).fetchInstr.1 (s.setBus []).fetchInstr.2
  refine ⟨v, next, frame.board.trans board, fun inv => frame.inv ?_, fun stuck => ?_⟩
  · rw [State.inv_congr (s := s) board ddr prl mem colour]
    exact inv
  · obtain same | ⟨few, vsp, vmem, vcolour, vbus⟩ := frame.jam
    · exact .inl (jammed.symm.trans (same.symm.trans stuck))
    · refine .inr ⟨vsp.trans sp, vmem.trans mem, vcolour.trans colour, ?_⟩
      rw [vbus, bus]
      exact fetched (length ▸ few)

/-- Every step does nothing but clear the bus list, or ends what runs. -/
theorem step_cases (s : State) : step s = .next (s.setBus []) ∨
    ∃ f v, step s = finish (s.setBus []) f (.next v) ∧ Runs s v := by
  cases event : (s.setBus []).event with
  | stuck => exact .inl (step_stuck event)
  | reset => exact .inr ⟨_, _, step_reset event, runs_reset s⟩
  | nmi => exact .inr ⟨_, _, step_nmi event, runs_interrupt _ rfl rfl⟩
  | irq => exact .inr ⟨_, _, step_irq event, runs_interrupt _ rfl rfl⟩
  | instruction =>
    obtain ⟨v, next, runs⟩ := runs_instruction s
    exact .inr ⟨_, v, (step_instruction event).trans (by rw [next]), runs⟩

/-- Settles O58: what runs keeps the invariant, so do writes done over, and the end of a step keeps it. -/
theorem everyStepKeepsInvariant : Obligations.EveryStepKeepsInvariant := by
  intro s t inv stepped
  obtain stuck | ⟨f, v, running, runs⟩ := step_cases s
  · obtain rfl : s.setBus [] = t := by simpa [stuck] using stepped
    exact inv
  · obtain ⟨t', ended, how⟩ := finish_spec (s.setBus []) f v
    obtain rfl : t' = t := by simpa [running, ended] using stepped
    obtain ⟨settled, -⟩ | ⟨writes, settled⟩ := how
    · exact settled.inv (runs.inv inv)
    · exact settled.inv (State.replay_inv (s := s.setBus []) inv writes)

/-- Settles O51: by `step_cases`; a step cut short does not jam. -/
theorem everyStepHasANextState : Obligations.EveryStepHasANextState := by
  intro s
  obtain stuck | ⟨f, v, running, runs⟩ := step_cases s
  · exact ⟨_, stuck, rfl, fun awake jammed => absurd (awake.symm.trans jammed) Bool.false_ne_true⟩
  · obtain ⟨t, ended, how⟩ := finish_spec (s.setBus []) f v
    refine ⟨t, running.trans ended, ?_⟩
    obtain ⟨settled, sp, bus⟩ | ⟨writes, settled⟩ := how
    · refine ⟨settled.board.trans runs.board, fun awake jammed => ?_⟩
      obtain before | ⟨vsp, vmem, vcolour, vbus⟩ := runs.jam (settled.jammed.symm.trans jammed)
      · exact absurd (awake.symm.trans before) Bool.false_ne_true
      · exact ⟨sp.trans vsp, settled.mem.trans vmem, settled.colour.trans vcolour, bus ▸ vbus⟩
    · have same : t.jammed = s.jammed := settled.jammed.trans (by simp)
      exact ⟨settled.board.trans (by simp), fun awake jammed =>
        absurd (awake.symm.trans (same.symm.trans jammed)) Bool.false_ne_true⟩

/-! ### Instructions -/

/-- Settles O59: the fetched bytes and the cycles of `exec` come to the table's count. -/
theorem accessesMatchCycleTable : Obligations.AccessesMatchCycleTable := by
  intro s n event complete f count
  obtain ⟨-, -, -, -, -, -, -, -, -, -, -, reads, bus, length, -⟩ := (s.setBus []).fetchInstr_spec
  obtain ⟨v, next, facts⟩ := executes f.1 f.2
  have counted := facts.counted n count
  have fetched : f.2.bus.length = fetches f.1 := by rw [bus, State.setBus_bus, List.nil_append, length]
  refine ⟨_, step_uncut complete ((step_instruction event).trans (by rw [next])), ?_⟩
  simp only [State.elapse_keeps, State.settleNmi_keeps]
  omega

/-- The address and the byte of a write access. -/
def BusAccess.stored : BusAccess → Option (Addr × Byte)
  | .write a v => some (a, v)
  | .read _ _ => none

/-- Writes done over are the stores among the accesses. -/
theorem State.replay_eq (s : State) (l : List BusAccess) :
    s.replay l = (l.filterMap BusAccess.stored).foldl (fun w c => w.accept c.1 c.2) s := by
  induction l generalizing s with
  | nil => rfl
  | cons c rest ih => cases c <;> exact ih _

/-- They are held, however the stores are picked out. -/
theorem replay_holdsStores {pick : BusAccess → Option (Addr × Byte)} (picks : ∀ c, pick c = c.stored) (s : State)
    (l : List BusAccess) : holdsStores (l.filterMap pick) s (s.replay l) := by
  rw [State.replay_eq, funext picks]
  exact ⟨rfl, rfl, rfl, rfl⟩

/-- An instruction cut short has the flags from before it, but for an RTI that has pulled them. -/
theorem earlyFlags_cases (i : Instr) (s u : State) (k : Nat) :
    earlyFlags i s u k = s.p ∨ i = .rti ∧ earlyFlags i s u k = u.p := by
  unfold earlyFlags
  split
  · next pulled => exact .inr ⟨pulled.1, rfl⟩
  · exact .inl rfl

/-- Settles O55: what `cutShort` leaves where the instruction is not over, with the writes made done over. -/
theorem unfinishedInstructionKeepsItsWrites : Obligations.UnfinishedInstructionKeepsItsWrites := by
  intro s u k event arriving f next unfinished
  have awake : s.jammed = false := State.awake_of_event event
  have cut := finish_some (s := s.setBus []) arriving (earlyFlags f.1 (s.setBus [])) u
  refine ⟨_, (s.setBus []).replay (u.bus.take k), (step_instruction event).trans (next ▸ cut), ?_⟩
  have flags := earlyFlags_cases f.1 (s.setBus []) u k
  have short := Nat.not_le.mpr unfinished
  refine ⟨?bus, ?a, ?x, ?y, ?p, ?jammed, ?board, ?pin, ?arriving, ?ddr, ?stores, ?mem, ?colour, ?prl⟩
  case stores =>
    exact (replay_holdsStores (fun c => by cases c <;> rfl) (s.setBus []) (u.bus.take k)).of_store rfl
  case p => simpa [State.cutShort, State.pullReset, short] using flags
  all_goals simp [State.cutShort, State.pullReset, short, awake, Inputs.elapse]

end Sys2Proof.Machine
end
